-- ==== Sys2Proof/Word.lean ====
section
/-! DEFINITION. The bit-vector types of the block (spec/00_scope.md R13). -/
namespace Sys2Proof

/-- A `byte` or `u8` (R13). -/
abbrev Byte := BitVec 8

/-- A `u32`, or the bit pattern of an `i32` (R13). -/
abbrev Word := BitVec 32

/-- A `u64` (R13). -/
abbrev DWord := BitVec 64

end Sys2Proof
end

