-- ==== Sys2Proof/Config.lean ====
section
/-! DEFINITION. What one block fixes and no command changes: the parameters of spec/00_scope.md R12
and the contents of `ROM` (spec/10_state.md R36, R37), as a record that State holds; and the opaque
constants that stand for the parameters the spec leaves OPEN. -/
namespace Sys2Proof

/-- The generator family (30_encoding.md R99; 10_state.md R27): `AF` is 0, `LC` is 1. -/
inductive Family where
  | af
  | lc
  deriving DecidableEq, Repr, Inhabited

/-- The register encoding of the family (R99). -/
def Family.bit : Family → BitVec 1
  | .af => 0
  | .lc => 1

/-- The other family of the two. -/
def Family.other : Family → Family
  | .af => .lc
  | .lc => .af

/-- One record of the override table (10_state.md R36). `stated` stands beside `key` because the
self-check compares the two. -/
structure OvrEntry where
  key    : Word
  stated : Word
  real   : Word
  family : Family
  deriving DecidableEq, Repr

/-- The parameters of R12 and the parts of `ROM` that differ from block to block. -/
structure Config where
  /-- `AF_WARMUP` (R12): 309 by the source's literal, a parameter because 90_conflicts.md C1 doubts it. -/
  afWarmup        : Nat
  /-- `CONTAINER_OFFSET` (R12, 45_offset_detector.md R214): OPEN, at least 10. -/
  containerOffset : DWord
  /-- `OVR_TABLE` (R12, 44_magic_resolver.md R201): OPEN but for one entry. -/
  ovrTable        : List OvrEntry
  /-- The first family of `TRIAL_ORDER`; the other one is the second. -/
  trialFirst      : Family
  /-- `BUF_MAX` (R12): the capacity of `IN` and of `OUT`, OPEN, at most 2^64 - 1. -/
  bufMax          : DWord
  deriving DecidableEq, Repr

/-- `TRIAL_ORDER` (R12, R37): a permutation of the two families, so it is fixed by its first. -/
def Config.trialOrder (c : Config) : List Family := [c.trialFirst, c.trialFirst.other]

/-! ### The OPEN parameters: opaque constants -/

/-- Stands for `CONTAINER_OFFSET` (assumption log 5). -/
opaque Config.openContainerOffset : DWord

/-- Stands for `BUF_MAX` (assumption log 7). -/
opaque Config.openBufMax : DWord

/-- Stands for the entries of `OVR_TABLE` beside the one the spec states: stated magic, real magic,
family (assumption log 6). -/
opaque Config.openOverrides : List (Word × Word × Family)

/-- What a 64-bit information word shows for a number of 65 bits or more: no rule states it
(assumption log 12). A FREE VALUE. -/
opaque Config.wideInfo : Nat → DWord

/-! ### The ROM of the block at reset -/

/-- The one entry the spec states (30_encoding.md R98, 44_magic_resolver.md R201). -/
def Config.requiredOverride : OvrEntry :=
  ⟨0x01346231#32, 0x01346231#32, 0x01346232#32, .lc⟩

/-- Adds an override to a table, keeping keys unique and each key equal to its entry's stated magic,
the conditions R12 puts on the parameter. -/
def Config.addOverride (t : List OvrEntry) (x : Word × Word × Family) : List OvrEntry :=
  if t.any (fun e => e.key == x.1) then t else t ++ [⟨x.1, x.1, x.2.1, x.2.2⟩]

/-- The configuration of the block: the values the spec fixes, and the OPEN ones inside the constraints
of R12 (assumption log 2 to 7). -/
def Config.chip : Config where
  afWarmup        := 309
  containerOffset := if Config.openContainerOffset < 10#64 then 10#64 else Config.openContainerOffset
  ovrTable        := Config.openOverrides.foldl Config.addOverride [Config.requiredOverride]
  trialFirst      := .af
  bufMax          := Config.openBufMax

end Sys2Proof
end

