-- ==== Sys2Proof/Syntax.lean ====
section
/-! DEFINITION. The seventeen commands of the block, one constructor per row of
spec/opcode_table.json (spec/30_encoding.md R91). No command has an operand field (R90, R92). -/
namespace Sys2Proof

/-- The command set of R9 and R91; each docstring gives the mnemonic and its rule. -/
inductive Instr where
  /-- `AF.SEED`, 40_prng.md R123 -/
  | afSeed
  /-- `AF.NEXT`, 40_prng.md R125 -/
  | afNext
  /-- `LC.SEED`, 40_prng.md R129 -/
  | lcSeed
  /-- `LC.NEXT`, 40_prng.md R130 -/
  | lcNext
  /-- `KS.APPLY`, 41_keystream_cipher.md R153 -/
  | ksApply
  /-- `HDR.PARSE`, 42_header_codec.md R167 -/
  | hdrParse
  /-- `HDR.SER`, 42_header_codec.md R169 -/
  | hdrSer
  /-- `CK.VERIFY`, 43_checksum.md R182 -/
  | ckVerify
  /-- `CK.CALC`, 43_checksum.md R184 -/
  | ckCalc
  /-- `MR.LOOKUP`, 44_magic_resolver.md R197 -/
  | mrLookup
  /-- `OFS.DETECT`, 45_offset_detector.md R211 -/
  | ofsDetect
  /-- `OFS.PREFIX`, 45_offset_detector.md R213 -/
  | ofsPrefix
  /-- `PT.DECODE`, 46_plaintext_codec.md R227 -/
  | ptDecode
  /-- `PT.ENCODE`, 46_plaintext_codec.md R229 -/
  | ptEncode
  /-- `DECRYPT`, 47_pipeline.md R247 -/
  | decrypt
  /-- `ENCRYPT`, 47_pipeline.md R255 -/
  | encrypt
  /-- `SYS.RESET`, 47_pipeline.md R260 -/
  | sysReset
  deriving DecidableEq, Repr

end Sys2Proof
end

