-- ==== Sys2Proof/WellFormed.lean ====
section
/-! DEFINITION. What a well-formed command and a well-formed configuration are. A command has no
operand field, so there is nothing in it to check (spec/30_encoding.md R90, R92); the checks are the
constraints spec/00_scope.md R12 and the parameter summary of spec/92_eei_decisions.md put on a
configuration. -/
namespace Sys2Proof

/-- Every command is well-formed: "No command carries an immediate" (R92). -/
def Instr.wf (_ : Instr) : Bool := true

/-- `CONTAINER_OFFSET >= 10`, so that the 10-byte marker fits before the header (R12, R214). -/
def Config.offsetWf (c : Config) : Bool := decide (10#64 ≤ c.containerOffset)

/-- The table contains the entry the spec states (R12, R201). -/
def Config.requiredWf (c : Config) : Bool := c.ovrTable.contains Config.requiredOverride

/-- The keys of the table are unique (10_state.md R36). -/
def Config.keysWf (c : Config) : Bool := decide ((c.ovrTable.map OvrEntry.key).Nodup)

/-- Each key equals its entry's stated-magic field (R36, R201). -/
def Config.statedWf (c : Config) : Bool := c.ovrTable.all (fun e => e.key == e.stated)

/-- The constraints of R12 together. -/
def Config.wf (c : Config) : Bool := c.offsetWf && c.requiredWf && c.keysWf && c.statedWf

end Sys2Proof
end

