-- ==== Sys2Proof/Decode.lean ====
section
/-! DEFINITION. The command encoding, format CMD8: one byte, bits 7:0 the opcode, no other field
(spec/30_encoding.md R90, R91, R93, R101). The decoder is total on any byte string and names what it
rejects; the encoder is written from the same table. -/
namespace Sys2Proof

/-- Why a byte string is no command. -/
inductive DecodeReject where
  /-- There is no byte: no code has been written. -/
  | noByte
  /-- The code is not in the opcode map (R93). -/
  | illegalCode (code : Byte)
  deriving DecidableEq, Repr

/-- The opcode map of R91, in its order. -/
def opcodeMap : List (Byte × Instr) :=
  [ (0x01#8, .afSeed),
    (0x02#8, .afNext),
    (0x03#8, .lcSeed),
    (0x04#8, .lcNext),
    (0x10#8, .ksApply),
    (0x20#8, .hdrParse),
    (0x21#8, .hdrSer),
    (0x30#8, .ckVerify),
    (0x31#8, .ckCalc),
    (0x40#8, .mrLookup),
    (0x50#8, .ofsDetect),
    (0x51#8, .ofsPrefix),
    (0x60#8, .ptDecode),
    (0x61#8, .ptEncode),
    (0x70#8, .decrypt),
    (0x71#8, .encrypt),
    (0x7F#8, .sysReset) ]

/-- The command of a code: its row of the map, or the code is illegal (R93). -/
def decodeCode (code : Byte) : Except DecodeReject Instr :=
  match opcodeMap.lookup code with
  | some i => .ok i
  | none   => .error (.illegalCode code)

/-- Decodes the first command of a byte string and gives what follows it: "Every command has a fixed
length of one byte" (R90). -/
def decode : List Byte → Except DecodeReject (Instr × List Byte)
  | []          => .error .noByte
  | code :: rest =>
    match decodeCode code with
    | .ok i    => .ok (i, rest)
    | .error r => .error r

/-- The code of a command (R91). -/
def Instr.code : Instr → Byte
  | .afSeed    => 0x01#8
  | .afNext    => 0x02#8
  | .lcSeed    => 0x03#8
  | .lcNext    => 0x04#8
  | .ksApply   => 0x10#8
  | .hdrParse  => 0x20#8
  | .hdrSer    => 0x21#8
  | .ckVerify  => 0x30#8
  | .ckCalc    => 0x31#8
  | .mrLookup  => 0x40#8
  | .ofsDetect => 0x50#8
  | .ofsPrefix => 0x51#8
  | .ptDecode  => 0x60#8
  | .ptEncode  => 0x61#8
  | .decrypt   => 0x70#8
  | .encrypt   => 0x71#8
  | .sysReset  => 0x7F#8

/-- The bytes of a command: its code alone (R90). -/
def encode (i : Instr) : List Byte := [i.code]

/-- The first `nbits` bits of `w`, as the byte the host writes to `CMD`. -/
def tableCode (nbits w : Nat) : Byte := BitVec.ofNat 8 (w % 2 ^ nbits)

/-- What the decoder reads from a row of spec/opcode_table.json whose bits are `w`; the table numbers
the bits of the one byte 7 to 0, as R90 does. -/
def decodeTableWord (nbits w : Nat) : Option Instr :=
  match decode [tableCode nbits w] with
  | .ok (i, _) => some i
  | .error _   => none

end Sys2Proof
end

