-- ==== Sys2Proof/Machine/Rom.lean ====
section
/-! DEFINITION. The constants every block has (spec/00_scope.md R11) and the table self-check of
spec/70_reset_and_hazards.md R312. -/
namespace Sys2Proof.Machine

/-- `AF_MUL` (R11). -/
def afMul : Int := 16807
/-- `AF_Q` (R11). -/
def afQ : Int := 127773
/-- `AF_R` (R11): the second multiplier of the seeding recurrence. -/
def afR : Int := 2836
/-- `AF_M` (R11): added when the recurrence result is negative. -/
def afM : Int := 2147483647
/-- `AF_MASK` (R11). -/
def afMask : Word := 0x7FFFFFFF#32
/-- `LC_MUL` (R11). -/
def lcMul : DWord := 6364136223846793005#64
/-- `LC_INC` (R11). -/
def lcInc : DWord := 1#64
/-- `LC_SHIFT` (R11). -/
def lcShift : Nat := 33
/-- `BLK` (R11): bytes of a cipher or checksum block. -/
def blkSize : Nat := 4
/-- `HDR_SIZE` (R11): bytes of the header record. -/
def hdrSize : Nat := 12
/-- `CK_SENTINEL` (R11): the settle value of a verification and the start value of a computation. -/
def ckSentinel : Word := 0xFFFFFFFF#32

/-- `MARKER` (R11, 30_encoding.md R96): the bytes of `photos.tar`, no terminator (assumption log 19). -/
def marker : List Byte :=
  [0x70#8, 0x68#8, 0x6f#8, 0x74#8, 0x6f#8, 0x73#8, 0x2e#8, 0x74#8, 0x61#8, 0x72#8]

/-- The byte `NUL` of the plaintext grammar (30_encoding.md R97). -/
def nul : Byte := 0x00#8
/-- The byte `EQ`, the character `=`, of the plaintext grammar (R97). -/
def eqSign : Byte := 0x3D#8

/-- The table self-check (R312): the index of the first entry whose key is not its stated magic, or
none when all pass. An empty table passes. -/
def selfCheck (table : List OvrEntry) : Option Nat :=
  table.findIdx? (fun e => decide (e.key ≠ e.stated))

end Sys2Proof.Machine
end

