-- ==== Sys2Proof/Machine/Errors.lean ====
section
/-! DEFINITION. The error kinds, causes, codes and information words of spec/60_exceptions.md R270 and
R272, and the layout of the status register (spec/10_state.md R32). -/
namespace Sys2Proof.Machine

/-- The three error kinds (R270). -/
inductive ErrKind where
  | formatError
  | checksumError
  | preconditionError
  deriving DecidableEq, Repr

/-- The causes of R272, in its order. `malformedEnvelope` is reserved for the wrapper outside the block
and never raised (93_implementation_defined.md U12). -/
inductive Cause where
  | containerTooShort
  | headerTruncated
  | lengthMismatch
  | lengthNotMultipleOf4
  | cipherInputShort
  | malformedEntry
  | duplicateKey
  | malformedEnvelope
  | checksumMismatch
  | emptyInput
  | notBlockAligned
  | generatorNotSeeded
  | badHeaderOffset
  | lengthTooLarge
  | illegalCommand
  | initFailed
  deriving DecidableEq, Repr

/-- The kind of a cause (R272, first column). -/
def Cause.kind : Cause → ErrKind
  | .containerTooShort    => .formatError
  | .headerTruncated      => .formatError
  | .lengthMismatch       => .formatError
  | .lengthNotMultipleOf4 => .formatError
  | .cipherInputShort     => .formatError
  | .malformedEntry       => .formatError
  | .duplicateKey         => .formatError
  | .malformedEnvelope    => .formatError
  | .checksumMismatch     => .checksumError
  | .emptyInput           => .preconditionError
  | .notBlockAligned      => .preconditionError
  | .generatorNotSeeded   => .preconditionError
  | .badHeaderOffset      => .preconditionError
  | .lengthTooLarge       => .preconditionError
  | .illegalCommand       => .preconditionError
  | .initFailed           => .preconditionError

/-- `ST_KIND` of a kind (R32); 0 is `OK`. -/
def ErrKind.code : ErrKind → BitVec 2
  | .formatError       => 1#2
  | .checksumError     => 2#2
  | .preconditionError => 3#2

/-- `ST_CAUSE` of a cause (R272). -/
def Cause.code : Cause → Byte
  | .containerTooShort    => 0x01#8
  | .headerTruncated      => 0x02#8
  | .lengthMismatch       => 0x03#8
  | .lengthNotMultipleOf4 => 0x04#8
  | .cipherInputShort     => 0x05#8
  | .malformedEntry       => 0x06#8
  | .duplicateKey         => 0x07#8
  | .malformedEnvelope    => 0x08#8
  | .checksumMismatch     => 0x20#8
  | .emptyInput           => 0x40#8
  | .notBlockAligned      => 0x41#8
  | .generatorNotSeeded   => 0x42#8
  | .badHeaderOffset      => 0x43#8
  | .lengthTooLarge       => 0x44#8
  | .illegalCommand       => 0x45#8
  | .initFailed           => 0x46#8

/-- The status word of a kind and a cause (R32): kind in bits 1:0, cause in bits 15:8, the rest 0. -/
def statusWord (kind : BitVec 2) (cause : Byte) : Word :=
  BitVec.ofNat 32 (kind.toNat + 2 ^ 8 * cause.toNat)

/-- The status word of a command that ends well: kind `OK`, cause 0 (R286). -/
def statusOk : Word := 0#32

/-- The status word an error of this cause reports. -/
def Cause.status (c : Cause) : Word := statusWord c.kind.code c.code

/-- `ST_KIND` of a status word (R32). -/
def stKind (status : Word) : BitVec 2 := status.extractLsb' 0 2

/-- `ST_CAUSE` of a status word (R32). -/
def stCause (status : Word) : Byte := status.extractLsb' 8 8

/-- An error `Err(Kind, cause, info0, info1)` (00_scope.md R16); its kind is its cause's. -/
structure Err where
  cause : Cause
  info0 : DWord
  info1 : DWord
  deriving DecidableEq, Repr

/-- A length or offset as a 64-bit information word. A number that does not fit has no stated value
there: a free value (assumption log 12). -/
def infoWord (n : Nat) : DWord :=
  if n < 2 ^ 64 then BitVec.ofNat 64 n else Config.wideInfo n

/-! ### The errors of R272, with their information words -/

/-- Input begins with the marker and is shorter than `CONTAINER_OFFSET`. -/
def Err.containerTooShort (len : Nat) (off : DWord) : Err := ⟨.containerTooShort, infoWord len, off⟩
/-- Fewer than 12 bytes at the header offset. -/
def Err.headerTruncated (avail : Nat) : Err := ⟨.headerTruncated, infoWord avail, infoWord hdrSize⟩
/-- Declared length differs from the bytes after the header. -/
def Err.lengthMismatch (declared : Word) (rem : Nat) : Err :=
  ⟨.lengthMismatch, infoWord declared.toNat, infoWord rem⟩
/-- Declared length not a multiple of 4. -/
def Err.lengthNotMultipleOf4 (declared : Word) : Err :=
  ⟨.lengthNotMultipleOf4, infoWord declared.toNat, 0⟩
/-- Cipher input shorter than `L`. -/
def Err.cipherInputShort (L len : Nat) : Err := ⟨.cipherInputShort, infoWord L, infoWord len⟩
/-- A non-empty segment has no `=`. -/
def Err.malformedEntry (pos len : Nat) : Err := ⟨.malformedEntry, infoWord pos, infoWord len⟩
/-- A key occurs a second time. -/
def Err.duplicateKey (pos first : Nat) : Err := ⟨.duplicateKey, infoWord pos, infoWord first⟩
/-- Final accumulator is not `0xFFFFFFFF`. -/
def Err.checksumMismatch (acc : Word) : Err :=
  ⟨.checksumMismatch, acc.setWidth 64, ckSentinel.setWidth 64⟩
/-- `ENCRYPT` with `IN_LEN = 0`. -/
def Err.emptyInput : Err := ⟨.emptyInput, 0, 0⟩
/-- A length that must be a multiple of 4 is not. -/
def Err.notBlockAligned (len : Nat) : Err := ⟨.notBlockAligned, infoWord len, 0⟩
/-- `AF.NEXT` or `LC.NEXT` with the valid flag clear: 0 for AF, 1 for LC. -/
def Err.generatorNotSeeded (g : Family) : Err := ⟨.generatorNotSeeded, g.bit.setWidth 64, 0⟩
/-- Header offset from 1 to 9 on the encrypt side. -/
def Err.badHeaderOffset (off : DWord) : Err := ⟨.badHeaderOffset, off, 10⟩
/-- A length exceeds its limit. -/
def Err.lengthTooLarge (n : Nat) (limit : DWord) : Err := ⟨.lengthTooLarge, infoWord n, limit⟩
/-- Command code not in the opcode map. -/
def Err.illegalCommand (code : Byte) : Err := ⟨.illegalCommand, code.setWidth 64, 0⟩
/-- The self-check failed at entry `k`; 0 when another command is refused for it (90_conflicts.md C8). -/
def Err.initFailed (k : Nat) : Err := ⟨.initFailed, infoWord k, 0⟩

end Sys2Proof.Machine
end

