-- ==== Sys2Proof/Machine/State.lean ====
section
/-! DEFINITION. The state of the block as plain data (spec/10_state.md), why a step can stop, and the
state after reset (spec/10_state.md R41, spec/70_reset_and_hazards.md R310). -/
namespace Sys2Proof.Machine

/-- An AF state, the triple (r, f, b) of 40_prng.md R121: `AF_R[0..30]`, `AF_FRONT`, `AF_REAR`. The words
are bit patterns of `i32`s; the cursors hold an index 0 to 30 (R22, R23; assumption log 14). -/
structure AfState where
  r : Vector Word 31
  f : Fin 31
  b : Fin 31
  deriving DecidableEq, Repr

/-- The Header registers `HDR_MAGIC`, `HDR_LENGTH`, `HDR_CHECKSUM` (R28). -/
structure Header where
  magic    : Word
  length   : Word
  checksum : Word
  deriving DecidableEq, Repr

/-- The Metadata registers `MD_HEADER_OFFSET`, `MD_STATED_MAGIC`, `MD_REAL_MAGIC`, `MD_FAMILY` (R27). -/
structure Metadata where
  headerOffset : DWord
  stated       : Word
  real         : Word
  family       : Family
  deriving DecidableEq, Repr

/-- One entry of the entry store: a pair of byte strings (R35). -/
structure Entry where
  key   : List Byte
  value : List Byte
  deriving DecidableEq, Repr

/-- A byte buffer, `IN` or `OUT`: one cell for every byte that exists, at offsets 0, 1, 2, … in rising
order. An offset with no cell has no byte: "Bytes at offsets >= IN_LEN do not exist" (R33, R34;
assumption log 10). -/
abbrev Memory := List Host.Cell

/-- A port write the host can make between commands (60_exceptions.md R296; assumption log 15). -/
inductive HostWrite where
  /-- `IN[0..n) <- bytes; IN_LEN <- n` (R33). -/
  | loadIn (bytes : List Byte)
  /-- `ENT <- entries; ENT_N <- n` (R35). -/
  | loadEnt (entries : List Entry)
  /-- `MD_HEADER_OFFSET <- v` (R27). -/
  | mdHeaderOffset (v : DWord)
  /-- `MD_STATED_MAGIC <- v` (R27). -/
  | mdStated (v : Word)
  /-- `MD_REAL_MAGIC <- v` (R27). -/
  | mdReal (v : Word)
  /-- `MD_FAMILY <- v` (R27). -/
  | mdFamily (v : Family)
  /-- `HDR_MAGIC <- v` (R28). -/
  | hdrMagic (v : Word)
  /-- `HDR_LENGTH <- v` (R28). -/
  | hdrLength (v : Word)
  /-- `HDR_CHECKSUM <- v` (R28). -/
  | hdrChecksum (v : Word)
  deriving DecidableEq, Repr

/-- One move of the host (60_exceptions.md R296). Reading results changes nothing and is no move. -/
inductive HostMove where
  /-- The host writes a port. -/
  | write (w : HostWrite)
  /-- The host writes a code to `CMD` and so issues a command (30_encoding.md R90). -/
  | command (code : Byte)
  /-- The reset signal (70_reset_and_hazards.md R310). -/
  | reset
  deriving DecidableEq, Repr

/-- Why a step stops. No command stops: an error of the spec is a next state (60_exceptions.md R285).
Both constructors are raised by a host move the spec gives no meaning to, and are SAFE: the model stops
where it knows nothing (assumption log 11). -/
inductive Fault where
  /-- Raised by the host's load of `IN` with more than `BUF_MAX` bytes: bytes at those offsets do not
  exist (R33). Safe. -/
  | inputBeyondCapacity
  /-- Raised by the host's load of `ENT` with more entries than the 64-bit `ENT_N` can count (R35). Safe. -/
  | entriesBeyondCount
  deriving DecidableEq, Repr

/-- Why a command is refused. -/
inductive Refusal where
  /-- Raised by an arm of `exec` whose command has no meaning yet; no arm does. Safe. -/
  | notModelled (mnemonic : String)
  deriving DecidableEq, Repr

/-- The state of the block (R20), its `ROM`, and the host's pending moves. -/
structure State where
  /-- `AF_R`, `AF_FRONT`, `AF_REAR` (R22, R23). -/
  af         : AfState
  /-- `AF_VALID` (R24). -/
  afValid    : Bool
  /-- `LC_S` (R25). -/
  lcS        : DWord
  /-- `LC_VALID` (R24). -/
  lcValid    : Bool
  /-- `RNG_OUT` (R26). -/
  rngOut     : Word
  /-- `MD_HEADER_OFFSET`, `MD_STATED_MAGIC`, `MD_REAL_MAGIC`, `MD_FAMILY` (R27). -/
  md         : Metadata
  /-- `HDR_MAGIC`, `HDR_LENGTH`, `HDR_CHECKSUM` (R28). -/
  hdr        : Header
  /-- `CK_ACC` (R29). -/
  ckAcc      : Word
  /-- `BLK_I` (R30), not observable by the host (assumption log 9). -/
  blkI       : DWord
  /-- `MR_HIT` (R31). -/
  mrHit      : Bool
  /-- `MD_VERIFIED` (R31). -/
  mdVerified : Bool
  /-- `INIT_OK` (R31). -/
  initOk     : Bool
  /-- `CMD` (R32). -/
  cmd        : Byte
  /-- `STATUS` (R32). -/
  status     : Word
  /-- `ST_INFO0` (R32). -/
  info0      : DWord
  /-- `ST_INFO1` (R32). -/
  info1      : DWord
  /-- `IN`; `IN_LEN` is the number of its cells (R33). -/
  inMem      : Memory
  /-- `OUT`; `OUT_LEN` is the number of its cells (R34). -/
  outMem     : Memory
  /-- `ENT`; `ENT_N` is its length (R35). -/
  ent        : List Entry
  /-- `ROM` and the parameters (R36, R37, 00_scope.md R12): read-only (assumption log 2). -/
  rom        : Config
  /-- The host's pending moves, oldest first: the model's own field (assumption log 1). -/
  host       : List HostMove
  deriving DecidableEq, Repr

/-- `IN_LEN` (R33). -/
def State.inLen (s : State) : DWord := BitVec.ofNat 64 s.inMem.length

/-- `OUT_LEN` (R34). -/
def State.outLen (s : State) : DWord := BitVec.ofNat 64 s.outMem.length

/-- `ENT_N` (R35). -/
def State.entN (s : State) : DWord := BitVec.ofNat 64 s.ent.length

/-- The state after reset of a block with this `ROM` (R41, R310): every register and flag 0, the buffers
and the entry store empty, `INIT_OK` the result of the self-check; no move pending. -/
def State.resetOf (rom : Config) : State where
  af         := ⟨Vector.replicate 31 0#32, 0, 0⟩
  afValid    := false
  lcS        := 0
  lcValid    := false
  rngOut     := 0
  md         := ⟨0, 0, 0, .af⟩
  hdr        := ⟨0, 0, 0⟩
  ckAcc      := 0
  blkI       := 0
  mrHit      := false
  mdVerified := false
  initOk     := (selfCheck rom.ovrTable).isNone
  cmd        := 0
  status     := 0
  info0      := 0
  info1      := 0
  inMem      := []
  outMem     := []
  ent        := []
  rom        := rom
  host       := []

/-- The machine right after reset (R41). -/
def State.reset : State := State.resetOf Config.chip

end Sys2Proof.Machine
end

