-- ==== Sys2Proof/Machine/Ops.lean ====
section
/-! DEFINITION. The named operations over the buffers and registers: reading and replacing a buffer,
writing a register, ending a command well or with an error (spec/60_exceptions.md R276, R285, R286),
reset (spec/70_reset_and_hazards.md R310) and the host's writes (spec/60_exceptions.md R296). -/
namespace Sys2Proof.Machine

/-! ### Buffers -/

/-- The cells of a byte string laid out from offset `a` on. -/
def Memory.ofBytesFrom (a : Nat) : List Byte → Memory
  | []      => []
  | b :: bs => (a, b) :: Memory.ofBytesFrom (a + 1) bs

/-- The buffer that holds exactly a byte string, from offset 0. -/
def Memory.ofBytes (bs : List Byte) : Memory := Memory.ofBytesFrom 0 bs

/-- The bytes of a buffer in offset order: `IN[0..IN_LEN)`. -/
def Memory.bytes (m : Memory) : List Byte := m.map Prod.snd

/-- `MemRead(a, 1)` (00_scope.md R15): the byte at offset `a`, or none where no byte exists. -/
def Memory.read (m : Memory) (a : Nat) : Option Byte := m.lookup a

/-- The canonical form: the cells are those of the offsets 0, 1, 2, … up to the length, in that order. -/
def Memory.wf (m : Memory) : Bool := decide (m = Memory.ofBytes m.bytes)

/-! ### Registers and buffers of the state -/

/-- Writes `AF_R`, `AF_FRONT`, `AF_REAR`. -/
def State.setAf (s : State) (x : AfState) : State := { s with af := x }
/-- Writes `LC_S`. -/
def State.setLc (s : State) (x : DWord) : State := { s with lcS := x }
/-- Writes `RNG_OUT`. -/
def State.setRngOut (s : State) (x : Word) : State := { s with rngOut := x }
/-- Writes the four Metadata registers. -/
def State.setMd (s : State) (x : Metadata) : State := { s with md := x }
/-- Writes the three Header registers. -/
def State.setHdr (s : State) (x : Header) : State := { s with hdr := x }
/-- Writes `CK_ACC`. -/
def State.setCkAcc (s : State) (x : Word) : State := { s with ckAcc := x }
/-- Leaves `BLK_I` where a pass over `n` bytes ends: the first multiple of 4 that is not below `n`
(10_state.md R30; assumption log 9). -/
def State.endPass (s : State) (n : Nat) : State := { s with blkI := BitVec.ofNat 64 n }
/-- Latches a command code in `CMD` (R32). -/
def State.latch (s : State) (code : Byte) : State := { s with cmd := code }
/-- Replaces the contents of `IN` and with them `IN_LEN` (R33). -/
def State.setIn (s : State) (bs : List Byte) : State := { s with inMem := Memory.ofBytes bs }
/-- Replaces the contents of `OUT` and with them `OUT_LEN` (R34; assumption log 13). -/
def State.setOut (s : State) (bs : List Byte) : State := { s with outMem := Memory.ofBytes bs }
/-- Replaces the entry store and with it `ENT_N` (R35). -/
def State.setEnt (s : State) (es : List Entry) : State := { s with ent := es }
/-- Replaces the host's pending moves. -/
def State.setHost (s : State) (ms : List HostMove) : State := { s with host := ms }

/-! ### The end of a command -/

/-- Taking an error (60_exceptions.md R285): the status and the two information words are written and
nothing else; control goes nowhere. The one operation through which every error is raised. -/
def State.raise (s : State) (e : Err) : State :=
  { s with status := e.cause.status, info0 := e.info0, info1 := e.info1 }

/-- The end of a command that meets no error (R286): kind `OK`, cause 0, information 0. -/
def State.succeed (s : State) : State := { s with status := statusOk, info0 := 0, info1 := 0 }

/-- Ends a command: on success with the result ports written, on an error with the ports of the state the
command began in (R285 (3)). -/
def State.finish (s : State) (r : Except Err State) : State :=
  match r with
  | .ok t    => t.succeed
  | .error e => s.raise e

/-- The common check of every command but `SYS.RESET`: while `INIT_OK = 0` it ends with
`InitFailed(0, 0)` and changes nothing else (R276; 70_reset_and_hazards.md R313). -/
def guarded (s : State) (t : State) : Host.Outcome State Fault Refusal :=
  .next (if s.initOk then t else s.raise (Err.initFailed 0))

/-- A whole command from the result its pseudocode computes. -/
def command (s : State) (r : Except Err State) : Host.Outcome State Fault Refusal :=
  guarded s (s.finish r)

/-- The end of a code that is no command (30_encoding.md R93, R276): `InitFailed` comes first. -/
def illegalCommand (code : Byte) (s : State) : Host.Outcome State Fault Refusal :=
  guarded s (s.raise (Err.illegalCommand code))

/-- Writes a result of `n` bytes to `OUT`, or refuses it before writing any of it when it exceeds
`BUF_MAX` (20_memory.md R66, R276). -/
def State.storeOut (s : State) (n : Nat) (bs : List Byte) : Except Err State :=
  if s.rom.bufMax.toNat < n then .error (Err.lengthTooLarge n s.rom.bufMax) else .ok (s.setOut bs)

/-! ### Reset -/

/-- What a reset writes (70_reset_and_hazards.md R310): every register and flag, the buffers and the entry
store; `ROM` is untouched, and the host's moves are not the block's. -/
def State.resetAll (s : State) : State := (State.resetOf s.rom).setHost s.host

/-- `SYS.RESET`: the reset, and the report of the self-check (R260, R312). -/
def State.resetReport (s : State) : State :=
  match selfCheck s.rom.ovrTable with
  | none   => s.resetAll.succeed
  | some k => s.resetAll.raise (Err.initFailed k)

/-! ### The host's writes -/

/-- One port write of the host; none is checked on write (R296), but bytes beyond the capacity of `IN` and
entries beyond the count `ENT_N` can hold do not exist (assumption log 11). -/
def hostWrite (w : HostWrite) (s : State) : Host.Outcome State Fault Refusal :=
  match w with
  | .loadIn bs        =>
    if s.rom.bufMax.toNat < bs.length then .fault .inputBeyondCapacity else .next (s.setIn bs)
  | .loadEnt es       =>
    if 2 ^ 64 ≤ es.length then .fault .entriesBeyondCount else .next (s.setEnt es)
  | .mdHeaderOffset v => .next (s.setMd { s.md with headerOffset := v })
  | .mdStated v       => .next (s.setMd { s.md with stated := v })
  | .mdReal v         => .next (s.setMd { s.md with real := v })
  | .mdFamily v       => .next (s.setMd { s.md with family := v })
  | .hdrMagic v       => .next (s.setHdr { s.hdr with magic := v })
  | .hdrLength v      => .next (s.setHdr { s.hdr with length := v })
  | .hdrChecksum v    => .next (s.setHdr { s.hdr with checksum := v })

/-- The reset signal (R310). -/
def hostReset (s : State) : Host.Outcome State Fault Refusal := .next s.resetAll

end Sys2Proof.Machine
end

