-- ==== Sys2Proof/Machine/Flags.lean ====
section
/-! DEFINITION. The flags of spec/10_state.md R24 and R31: who writes each of them. `INIT_OK` is written by
reset alone (`State.resetOf`). There are no arithmetic condition codes (R31). -/
namespace Sys2Proof.Machine

/-- Writes `AF_VALID` (R24). -/
def State.setAfValid (s : State) (b : Bool) : State := { s with afValid := b }
/-- Writes `LC_VALID` (R24). -/
def State.setLcValid (s : State) (b : Bool) : State := { s with lcValid := b }
/-- Writes `MR_HIT` (R31): `MR.LOOKUP` and `DECRYPT`. -/
def State.setMrHit (s : State) (b : Bool) : State := { s with mrHit := b }
/-- Writes `MD_VERIFIED` (R31): `CK.VERIFY` and `DECRYPT`. -/
def State.setVerified (s : State) (b : Bool) : State := { s with mdVerified := b }

/-- `MD_VERIFIED` after a verification that ends in `acc` (R31, 43_checksum.md R181): 1 exactly when the
accumulator settled to `CK_SENTINEL`. -/
def settled (acc : Word) : Bool := decide (acc = ckSentinel)

end Sys2Proof.Machine
end

