-- ==== Sys2Proof/Machine/Operands.lean ====
section
/-! DEFINITION. Where a command's operands come from (spec/30_encoding.md R92, spec/10_state.md R40), and
how bytes and 32-bit words turn into each other (spec/20_memory.md R60, R61). -/
namespace Sys2Proof.Machine

/-! ### Bytes and words -/

/-- `LE32` of four bytes, the lowest offset first (00_scope.md R15, 30_encoding.md R95). -/
def le32 (b0 b1 b2 b3 : Byte) : Word :=
  BitVec.ofNat 32 (b0.toNat + 2 ^ 8 * b1.toNat + 2 ^ 16 * b2.toNat + 2 ^ 24 * b3.toNat)

/-- `PutLE32(v)`: `v[7:0]`, `v[15:8]`, `v[23:16]`, `v[31:24]` in that order (R15, R95). -/
def putLE32 (v : Word) : List Byte :=
  [v.extractLsb' 0 8, v.extractLsb' 8 8, v.extractLsb' 16 8, v.extractLsb' 24 8]

/-- The blocks of a byte string: block `k` is `LE32` of the bytes at offsets `4k` to `4k + 3` (R62). Fewer
than four bytes left are no block; every caller checks the length first (R63). -/
def blocks : List Byte → List Word
  | b0 :: b1 :: b2 :: b3 :: rest => le32 b0 b1 b2 b3 :: blocks rest
  | _ => []

/-- The bytes of a list of blocks. -/
def unblocks (ws : List Word) : List Byte := ws.flatMap putLE32

/-- "must be a multiple of 4" (R63). -/
def blockAligned (n : Nat) : Bool := decide (n % blkSize = 0)

/-! ### Operand ports (R92) -/

/-- The seed of `AF.SEED`, `LC.SEED`, `KS.APPLY`: `MD_REAL_MAGIC`. -/
def State.opSeed (s : State) : Word := s.md.real
/-- The family of `KS.APPLY`: `MD_FAMILY`. -/
def State.opFamily (s : State) : Family := s.md.family
/-- The length of `KS.APPLY`: `HDR_LENGTH`. -/
def State.opLength (s : State) : Nat := s.hdr.length.toNat
/-- The byte input of a unit command: `IN[0..IN_LEN)` (47_pipeline.md R258). -/
def State.opIn (s : State) : List Byte := s.inMem.bytes
/-- The byte input of `HDR.PARSE`: `IN[MD_HEADER_OFFSET .. IN_LEN)`; an offset beyond the end counts as zero
bytes available (42_header_codec.md R167). -/
def State.opInFromHeader (s : State) : List Byte := s.opIn.drop s.md.headerOffset.toNat

end Sys2Proof.Machine
end

