-- ==== Sys2Proof/Machine/Checksum.lean ====
section
/-! DEFINITION. The checksum accumulator (spec/43_checksum.md) and its commands CK.VERIFY and CK.CALC. -/
namespace Sys2Proof.Machine

/-- The accumulator of a verification (R181): from the header's checksum, add every block, wrapping. -/
def ckAccumulate (c : Word) (p : List Byte) : Word := (blocks p).foldl (fun acc w => acc + w) c

/-- fn `ck_verify` (R181): the accumulator must settle to `CK_SENTINEL`; the error carries it. -/
def ckVerify (c : Word) (p : List Byte) : Except Err Word :=
  if blockAligned p.length then
    if settled (ckAccumulate c p) then .ok (ckAccumulate c p)
    else .error (Err.checksumMismatch (ckAccumulate c p))
  else .error (Err.notBlockAligned p.length)

/-- fn `ck_calc` (R183): from `CK_SENTINEL`, subtract every block, wrapping. -/
def ckCalc (p : List Byte) : Except Err Word :=
  if blockAligned p.length then .ok ((blocks p).foldl (fun acc w => acc - w) ckSentinel)
  else .error (Err.notBlockAligned p.length)

/-- The end of a verification pass over `n` bytes: `CK_ACC` and `MD_VERIFIED`, on success and on
`ChecksumError` alike (R182). -/
def State.endVerify (s : State) (n : Nat) (acc : Word) : State :=
  ((s.setCkAcc acc).setVerified (settled acc)).endPass n

/-- `CK.VERIFY` (R182). One of the three commands that write a result port on an error (R285 (3)). -/
def execCkVerify (s : State) : Host.Outcome State Fault Refusal :=
  guarded s <|
    match ckVerify s.hdr.checksum s.opIn with
    | .ok acc  => (s.endVerify s.opIn.length acc).succeed
    | .error e =>
      if e.cause = .checksumMismatch then
        (s.endVerify s.opIn.length (ckAccumulate s.hdr.checksum s.opIn)).raise e
      else s.raise e

/-- `CK.CALC` (R184). -/
def execCkCalc (s : State) : Host.Outcome State Fault Refusal :=
  command s <|
    match ckCalc s.opIn with
    | .error e => .error e
    | .ok c    => .ok (((s.setCkAcc c).setHdr { s.hdr with checksum := c }).endPass s.opIn.length)

end Sys2Proof.Machine
end

