-- ==== Sys2Proof/Machine/Prng.lean ====
section
/-! DEFINITION. The PRNG engines (spec/40_prng.md): the additive-feedback generator, the linear-congruential
generator, their dispatch, and the commands AF.SEED, AF.NEXT, LC.SEED, LC.NEXT. -/
namespace Sys2Proof.Machine

/-! ### The additive-feedback generator -/

/-- One step of the seeding recurrence on a signed word (R122): `16807 * lo - 2836 * hi` with the truncating
quotient and remainder by 127773, and 2147483647 added when that is negative. -/
def afWord (w : Word) : Word :=
  let hi := Int.tdiv w.toInt afQ
  let lo := Int.tmod w.toInt afQ
  let raw := afMul * lo - afR * hi
  BitVec.ofInt 32 (if raw < 0 then raw + afM else raw)

/-- `n` words of the table from `w` on, each the recurrence of the one before. -/
def afWords : Nat → Word → List Word
  | 0,     _ => []
  | n + 1, w => w :: afWords n (afWord w)

/-- The list has the length asked for. -/
theorem afWords_length (n : Nat) (w : Word) : (afWords n w).length = n := by
  induction n generalizing w with
  | zero => rfl
  | succ n ih => exact congrArg (· + 1) (ih _)

/-- The table fill (R122): word 0 is the seed, or 1 if the seed is 0. -/
def afFill (seed : Word) : Vector Word 31 :=
  ⟨(afWords 31 (if seed = 0#32 then 1#32 else seed)).toArray, afWords_length 31 _⟩

/-- fn `af_next` (R124): `r[f] += r[b]` in 32 bits, the output is the new word shifted right
arithmetically by one and masked, and both cursors advance modulo 31. -/
def afNext (st : AfState) : Word × AfState :=
  let v := st.r[st.f] + st.r[st.b]
  (v.sshiftRight 1 &&& afMask, ⟨st.r.set st.f v, st.f + 1, st.b + 1⟩)

/-- `n` steps, their outputs discarded. -/
def afSteps : Nat → AfState → AfState
  | 0,     st => st
  | n + 1, st => afSteps n (afNext st).2

/-- fn `af_seed` (R122): the fill, cursors 3 and 0, and the warm-up. -/
def afSeed (warmup : Nat) (seed : Word) : AfState := afSteps warmup ⟨afFill seed, 3, 0⟩

/-! ### The linear-congruential generator -/

/-- fn `lc_seed` (R127): `seed - 1` in 64 bits, wrapping. -/
def lcSeed (seed : Word) : DWord := seed.setWidth 64 - 1#64

/-- fn `lc_next` (R128): the new state is `6364136223846793005 * s + 1`, the output its bits 63:33. -/
def lcNext (x : DWord) : Word × DWord :=
  let x' := lcMul * x + lcInc
  ((x' >>> lcShift).setWidth 32, x')

/-! ### Either generator (R131) -/

/-- The state of a running generator: a tagged variant by family (R131). -/
inductive Gen where
  | af (st : AfState)
  | lc (x : DWord)
  deriving DecidableEq, Repr

/-- fn `rng_seed` (R131). -/
def Gen.seed (rom : Config) : Family → Word → Gen
  | .af, seed => .af (afSeed rom.afWarmup seed)
  | .lc, seed => .lc (lcSeed seed)

/-- fn `rng_next` (R131). -/
def Gen.next : Gen → Word × Gen
  | .af st => ((afNext st).1, .af (afNext st).2)
  | .lc x  => ((lcNext x).1, .lc (lcNext x).2)

/-- Where a generator lives between commands: the registers of its family, with the valid flag given. -/
def State.putGen (s : State) (valid : Bool) : Gen → State
  | .af st => (s.setAf st).setAfValid valid
  | .lc x  => (s.setLc x).setLcValid valid

/-! ### The commands -/

/-- `AF.SEED` (R123). -/
def execAfSeed (s : State) : Host.Outcome State Fault Refusal :=
  command s (.ok (s.putGen true (Gen.seed s.rom .af s.opSeed)))

/-- `AF.NEXT` (R125). -/
def execAfNext (s : State) : Host.Outcome State Fault Refusal :=
  command s <|
    if s.afValid then .ok ((s.setAf (afNext s.af).2).setRngOut (afNext s.af).1)
    else .error (Err.generatorNotSeeded .af)

/-- `LC.SEED` (R129). -/
def execLcSeed (s : State) : Host.Outcome State Fault Refusal :=
  command s (.ok (s.putGen true (Gen.seed s.rom .lc s.opSeed)))

/-- `LC.NEXT` (R130). -/
def execLcNext (s : State) : Host.Outcome State Fault Refusal :=
  command s <|
    if s.lcValid then .ok ((s.setLc (lcNext s.lcS).2).setRngOut (lcNext s.lcS).1)
    else .error (Err.generatorNotSeeded .lc)

end Sys2Proof.Machine
end

