-- ==== Sys2Proof/Machine/Cipher.lean ====
section
/-! DEFINITION. The keystream cipher (spec/41_keystream_cipher.md) and its command KS.APPLY. -/
namespace Sys2Proof.Machine

/-- One cipher pass over a list of blocks (R151): each block XORed with the next output of the generator, in
order; and the generator as the pass leaves it. -/
def ksBlocks : Gen → List Word → List Word × Gen
  | g, []      => ([], g)
  | g, w :: ws => ((w ^^^ g.next.1) :: (ksBlocks g.next.2 ws).1, (ksBlocks g.next.2 ws).2)

/-- fn `ks_apply` (R151): both checks come before the generator is seeded; bytes at offsets `>= L` are not
read. The final generator is returned too (R154). -/
def ksApply (rom : Config) (g : Family) (seed : Word) (L : Nat) (data : List Byte) :
    Except Err (List Byte × Gen) :=
  if blockAligned L then
    if data.length < L then .error (Err.cipherInputShort L data.length)
    else
      let r := ksBlocks (Gen.seed rom g seed) (blocks (data.take L))
      .ok (unblocks r.1, r.2)
  else .error (Err.notBlockAligned L)

/-- The end of a cipher pass over `n` bytes (R154): the registers of the family used hold the generator as the
pass left it, and its valid flag is clear. -/
def State.endCipher (s : State) (n : Nat) (g : Gen) : State := (s.putGen false g).endPass n

/-- `KS.APPLY` (R153). -/
def execKsApply (s : State) : Host.Outcome State Fault Refusal :=
  command s <|
    match ksApply s.rom s.opFamily s.opSeed s.opLength s.opIn with
    | .error e    => .error e
    | .ok (bs, g) => (s.endCipher s.opLength g).storeOut s.opLength bs

end Sys2Proof.Machine
end

