-- ==== Sys2Proof/Machine/HeaderCodec.lean ====
section
/-! DEFINITION. The header codec (spec/42_header_codec.md) and its commands HDR.PARSE and HDR.SER. -/
namespace Sys2Proof.Machine

/-- fn `hdr_parse` (R166): twelve bytes are there, the declared length is the number of bytes after them, and
it is a multiple of 4, checked in that order. -/
def hdrParse : List Byte → Except Err Header
  | m0 :: m1 :: m2 :: m3 :: l0 :: l1 :: l2 :: l3 :: c0 :: c1 :: c2 :: c3 :: rest =>
    let length := le32 l0 l1 l2 l3
    if length.toNat ≠ rest.length then .error (Err.lengthMismatch length rest.length)
    else if blockAligned length.toNat then .ok ⟨le32 m0 m1 m2 m3, length, le32 c0 c1 c2 c3⟩
    else .error (Err.lengthNotMultipleOf4 length)
  | t => .error (Err.headerTruncated t.length)

/-- fn `hdr_ser` (R168): always 12 bytes, no check. -/
def hdrSer (h : Header) : List Byte := putLE32 h.magic ++ putLE32 h.length ++ putLE32 h.checksum

/-- `HDR.PARSE` (R167). -/
def execHdrParse (s : State) : Host.Outcome State Fault Refusal :=
  command s <|
    match hdrParse s.opInFromHeader with
    | .error e => .error e
    | .ok h    => .ok (s.setHdr h)

/-- `HDR.SER` (R169). -/
def execHdrSer (s : State) : Host.Outcome State Fault Refusal :=
  command s (s.storeOut hdrSize (hdrSer s.hdr))

end Sys2Proof.Machine
end

