-- ==== Sys2Proof/Machine/Offset.lean ====
section
/-! DEFINITION. The container offset detector (spec/45_offset_detector.md) and its commands OFS.DETECT and
OFS.PREFIX. -/
namespace Sys2Proof.Machine

/-- fn `ofs_detect` (R210): only the first 10 bytes are compared. -/
def ofsDetect (rom : Config) (file : List Byte) : Except Err DWord :=
  if file.take marker.length = marker then
    if file.length < rom.containerOffset.toNat then
      .error (Err.containerTooShort file.length rom.containerOffset)
    else .ok rom.containerOffset
  else .ok 0

/-- An offset that leaves no room for the marker (R212): 1 to 9. -/
def badOffset (off : DWord) : Bool := decide (0#64 < off ∧ off < 10#64)

/-- The bytes of fn `ofs_prefix` for an offset it accepts (R212): none, or the marker and zeros up to `off`. -/
def ofsFiller (off : DWord) : List Byte :=
  if off = 0#64 then [] else marker ++ List.replicate (off.toNat - marker.length) 0#8

/-- fn `ofs_prefix` (R212). -/
def ofsPrefix (off : DWord) : Except Err (List Byte) :=
  if badOffset off then .error (Err.badHeaderOffset off) else .ok (ofsFiller off)

/-- `OFS.DETECT` (R211). -/
def execOfsDetect (s : State) : Host.Outcome State Fault Refusal :=
  command s <|
    match ofsDetect s.rom s.opIn with
    | .error e => .error e
    | .ok off  => .ok (s.setMd { s.md with headerOffset := off })

/-- `OFS.PREFIX` (R213). -/
def execOfsPrefix (s : State) : Host.Outcome State Fault Refusal :=
  command s <|
    match ofsPrefix s.md.headerOffset with
    | .error e => .error e
    | .ok bs   => s.storeOut s.md.headerOffset.toNat bs

end Sys2Proof.Machine
end

