-- ==== Sys2Proof/Machine/Resolver.lean ====
section
/-! DEFINITION. The magic resolver (spec/44_magic_resolver.md): the override table lookup, the trial plan, and
the command MR.LOOKUP. -/
namespace Sys2Proof.Machine

/-- One attempt of the resolver: the seed and the family to try (R198). -/
structure Trial where
  real   : Word
  family : Family
  deriving DecidableEq, Repr

/-- The table entry whose key is the stated magic; only keys are searched (R196, R197). -/
def ovrFind (rom : Config) (stated : Word) : Option OvrEntry :=
  rom.ovrTable.find? (fun e => e.key == stated)

/-- fn `mr_lookup` (R196): on a hit the entry's values, on a miss the stated magic and the first family of
`TRIAL_ORDER`. The trial is the plan's first. -/
def mrLookup (rom : Config) (stated : Word) : Bool × Trial :=
  match ovrFind rom stated with
  | some e => (true, ⟨e.real, e.family⟩)
  | none   => (false, ⟨stated, rom.trialFirst⟩)

/-- The trials of fn `mr_plan` after its first (R198): none on a hit, the rest of `TRIAL_ORDER` on a miss. -/
def mrRetries (rom : Config) (stated : Word) : List Trial :=
  match ovrFind rom stated with
  | some _ => []
  | none   => rom.trialOrder.tail.map (fun g => ⟨stated, g⟩)

/-- fn `mr_plan` (R198): the trials the decrypt direction makes, in order; never empty. -/
def mrPlan (rom : Config) (stated : Word) : List Trial :=
  (mrLookup rom stated).2 :: mrRetries rom stated

/-- `MR.LOOKUP` (R197). -/
def execMrLookup (s : State) : Host.Outcome State Fault Refusal :=
  let r := mrLookup s.rom s.hdr.magic
  command s <| .ok <|
    (s.setMd { s.md with stated := s.hdr.magic, real := r.2.real, family := r.2.family }).setMrHit r.1

end Sys2Proof.Machine
end

