-- ==== Sys2Proof/Machine/Pipeline.lean ====
section
/-! DEFINITION. The pipeline commands DECRYPT and ENCRYPT (spec/47_pipeline.md), built from the unit functions
(R246, R254). -/
namespace Sys2Proof.Machine

/-! ### Decrypt -/

/-- What one trial makes of a payload (R246): the deciphered bytes, the generator it leaves, and the accumulator
of the verification. -/
structure Attempt where
  trial : Trial
  plain : List Byte
  gen   : Gen
  acc   : Word
  deriving DecidableEq, Repr

/-- One trial: the payload deciphered from a freshly seeded generator, and verified against the header's
checksum. `ks_apply` cannot fail here (R246), so its pass is taken without its checks. -/
def attempt (rom : Config) (checksum : Word) (payload : List Byte) (t : Trial) : Attempt :=
  let r := ksBlocks (Gen.seed rom t.family t.real) (blocks payload)
  ⟨t, unblocks r.1, r.2, ckAccumulate checksum (unblocks r.1)⟩

/-- The trial loop of R246 and R199: the trials in order, stopping at the first that verifies, or at the last.
Each trial runs in the registers of its family (R154). -/
def runTrials (checksum : Word) (payload : List Byte) : Trial → List Trial → State → Attempt × State
  | t, [],       s =>
    let a := attempt s.rom checksum payload t
    (a, s.endCipher payload.length a.gen)
  | t, t' :: ts, s =>
    let a := attempt s.rom checksum payload t
    if settled a.acc then (a, s.endCipher payload.length a.gen)
    else runTrials checksum payload t' ts (s.endCipher payload.length a.gen)

/-- The checks of `decrypt` before its first trial (R246, R247, R275 (f)): the detector, the parser, the length
limit. Gives the header offset, the header and the payload. -/
def decryptParse (rom : Config) (file : List Byte) : Except Err (DWord × Header × List Byte) :=
  match ofsDetect rom file with
  | .error e => .error e
  | .ok off  =>
    match hdrParse (file.drop off.toNat) with
    | .error e => .error e
    | .ok h    =>
      if rom.bufMax.toNat < h.length.toNat then
        .error (Err.lengthTooLarge h.length.toNat rom.bufMax)
      else .ok (off, h, file.drop (off.toNat + hdrSize))

/-- The result ports of `DECRYPT` after its last trial, on success (R247) and on `ChecksumError` (R248). -/
def State.endDecrypt (s : State) (off : DWord) (h : Header) (a : Attempt) : State :=
  (((((s.setHdr h).setMd ⟨off, h.magic, a.trial.real, a.trial.family⟩).setMrHit
    (mrLookup s.rom h.magic).1).setOut a.plain).setCkAcc a.acc).setVerified (settled a.acc)

/-- `DECRYPT` (R247, R248). One of the three commands that write a result port on an error (R285 (3)). -/
def execDecrypt (s : State) : Host.Outcome State Fault Refusal :=
  guarded s <|
    match decryptParse s.rom s.opIn with
    | .error e              => s.raise e
    | .ok (off, h, payload) =>
      let r := runTrials h.checksum payload (mrLookup s.rom h.magic).2 (mrRetries s.rom h.magic) s
      let t := r.2.endDecrypt off h r.1
      if settled r.1.acc then t.succeed else t.raise (Err.checksumMismatch r.1.acc)

/-! ### Encrypt -/

/-- The longest plaintext a header can declare, `2^32 - 4` (R253). -/
def maxPlain : DWord := 4294967292#64

/-- The length of the file `encrypt` makes: prefix, header, payload (R254). -/
def fileLength (off : DWord) (n : Nat) : Nat := off.toNat + hdrSize + n

/-- The preconditions of `encrypt` on a plaintext of `n` bytes, in the order of R253; none when all hold. -/
def encryptError (rom : Config) (off : DWord) (n : Nat) : Option Err :=
  if n = 0 then some Err.emptyInput
  else if !blockAligned n then some (Err.notBlockAligned n)
  else if maxPlain.toNat < n then some (Err.lengthTooLarge n maxPlain)
  else if badOffset off then some (Err.badHeaderOffset off)
  else if rom.bufMax.toNat < fileLength off n then
    some (Err.lengthTooLarge (fileLength off n) rom.bufMax)
  else none

/-- fn `encrypt` (R254) on a plaintext that meets the preconditions: the header it writes, with the STATED magic
and the checksum `c` of the plaintext; the whole file, enciphered from the REAL magic; and the generator left. -/
def encrypt (rom : Config) (md : Metadata) (c : Word) (pt : List Byte) : Header × List Byte × Gen :=
  let h : Header := ⟨md.stated, BitVec.ofNat 32 pt.length, c⟩
  let r := ksBlocks (Gen.seed rom md.family md.real) (blocks pt)
  (h, ofsFiller md.headerOffset ++ hdrSer h ++ unblocks r.1, r.2)

/-- `ENCRYPT` (R255). -/
def execEncrypt (s : State) : Host.Outcome State Fault Refusal :=
  command s <|
    match encryptError s.rom s.md.headerOffset s.opIn.length with
    | some e => .error e
    | none   =>
      match ckCalc s.opIn with
      | .error e => .error e
      | .ok c    =>
        let r := encrypt s.rom s.md c s.opIn
        .ok ((((s.endCipher s.opIn.length r.2.2).setHdr r.1).setCkAcc c).setOut r.2.1)

end Sys2Proof.Machine
end

