-- ==== Sys2Proof/Machine/Plaintext.lean ====
section
/-! DEFINITION. The plaintext codec (spec/46_plaintext_codec.md, grammar spec/30_encoding.md R97) and its
commands PT.DECODE and PT.ENCODE. -/
namespace Sys2Proof.Machine

/-! ### Decoding -/

/-- Splits bytes on zero bytes, giving each segment with its offset; `pos` is the offset of the segment being
read and `seg` its bytes so far. Empty segments are listed too. -/
def splitNul (pos : Nat) (seg : List Byte) : List Byte → List (Nat × List Byte)
  | []      => [(pos, seg)]
  | b :: bs =>
    if b = nul then (pos, seg) :: splitNul (pos + seg.length + 1) [] bs
    else splitNul pos (seg ++ [b]) bs

/-- Cuts a segment at its first `=` (R226): the key before it, the value after it; none where there is none. -/
def cutEq : List Byte → Option Entry
  | []      => none
  | b :: bs =>
    if b = eqSign then some ⟨[], bs⟩
    else (cutEq bs).map (fun e => ⟨b :: e.key, e.value⟩)

/-- The index of the first entry with a key. -/
def keyIndex (es : List Entry) (key : List Byte) : Option Nat := es.findIdx? (fun e => e.key == key)

/-- Collects segments in order onto the entries so far (R226): empty ones give nothing, one without `=` is
malformed, a key seen before is a duplicate. -/
def collect (es : List Entry) : List (Nat × List Byte) → Except Err (List Entry)
  | []                 => .ok es
  | (pos, seg) :: rest =>
    if seg = [] then collect es rest
    else
      match cutEq seg with
      | none   => .error (Err.malformedEntry pos seg.length)
      | some e =>
        match keyIndex es e.key with
        | some j => .error (Err.duplicateKey pos j)
        | none   => collect (es ++ [e]) rest

/-- fn `pt_decode` (R226). -/
def ptDecode (p : List Byte) : Except Err (List Entry) := collect [] (splitNul 0 [] p)

/-! ### Encoding -/

/-- `key=value` and a single zero byte (R228). -/
def entryBytes (e : Entry) : List Byte := e.key ++ [eqSign] ++ e.value ++ [nul]

/-- The padding length after `n` bytes of entries (R228, R230): 1 to 4, never 0. -/
def padLength (n : Nat) : Nat := 4 - n % 4

/-- fn `pt_encode` (R228): the entries in index order, then the padding; nothing is validated. -/
def ptEncode (es : List Entry) : List Byte :=
  let b := es.flatMap entryBytes
  b ++ List.replicate (padLength b.length) nul

/-! ### The commands -/

/-- `PT.DECODE` (R227). -/
def execPtDecode (s : State) : Host.Outcome State Fault Refusal :=
  command s <|
    match ptDecode s.opIn with
    | .error e => .error e
    | .ok es   => .ok (s.setEnt es)

/-- `PT.ENCODE` (R229). -/
def execPtEncode (s : State) : Host.Outcome State Fault Refusal :=
  command s (s.storeOut (ptEncode s.ent).length (ptEncode s.ent))

end Sys2Proof.Machine
end

