-- ==== Sys2Proof/Machine/System.lean ====
section
/-! DEFINITION. The one system command, SYS.RESET (spec/47_pipeline.md R259, R260). -/
namespace Sys2Proof.Machine

/-- `SYS.RESET` (R260): accepted whatever `INIT_OK` is. -/
def execSysReset (s : State) : Host.Outcome State Fault Refusal := .next s.resetReport

end Sys2Proof.Machine
end

