-- ==== Sys2Proof/Machine/Dispatch.lean ====
section
/-! DEFINITION. One arm per command: its meaning. -/
namespace Sys2Proof.Machine

def exec (i : Instr) (s : State) : Host.Outcome State Fault Refusal :=
  match i with
  | .afSeed => Sys2Proof.Machine.execAfSeed s
  | .afNext => Sys2Proof.Machine.execAfNext s
  | .lcSeed => Sys2Proof.Machine.execLcSeed s
  | .lcNext => Sys2Proof.Machine.execLcNext s
  | .ksApply => Sys2Proof.Machine.execKsApply s
  | .hdrParse => Sys2Proof.Machine.execHdrParse s
  | .hdrSer => Sys2Proof.Machine.execHdrSer s
  | .ckVerify => Sys2Proof.Machine.execCkVerify s
  | .ckCalc => Sys2Proof.Machine.execCkCalc s
  | .mrLookup => Sys2Proof.Machine.execMrLookup s
  | .ofsDetect => Sys2Proof.Machine.execOfsDetect s
  | .ofsPrefix => Sys2Proof.Machine.execOfsPrefix s
  | .ptDecode => Sys2Proof.Machine.execPtDecode s
  | .ptEncode => Sys2Proof.Machine.execPtEncode s
  | .decrypt => Sys2Proof.Machine.execDecrypt s
  | .encrypt => Sys2Proof.Machine.execEncrypt s
  | .sysReset => Sys2Proof.Machine.execSysReset s

end Sys2Proof.Machine
end

