-- ==== Sys2Proof/Machine/Issue.lean ====
section
/-! DEFINITION. Issuing a command (spec/30_encoding.md R90, R93): the code is latched in `CMD`, read once, and
the command it stands for is executed whole. -/
namespace Sys2Proof.Machine

/-- The command whose code stands in `CMD` (R90): executed, or ended as illegal (R93). -/
def runCmd (s : State) : Host.Outcome State Fault Refusal :=
  match decode [s.cmd] with
  | .ok (i, _) => exec i s
  | .error _   => illegalCommand s.cmd s

/-- The host writes a code to `CMD`: the code is latched and the command runs to its end (00_scope.md R9). -/
def issue (code : Byte) (s : State) : Host.Outcome State Fault Refusal := runCmd (s.latch code)

/-- One move of the host. -/
def hostMove (m : HostMove) (s : State) : Host.Outcome State Fault Refusal :=
  match m with
  | .write w      => hostWrite w s
  | .command code => issue code s
  | .reset        => hostReset s

end Sys2Proof.Machine
end

