-- ==== Sys2Proof/Machine/Step.lean ====
section
/-! DEFINITION. One step of the machine: the host's next move, whole (spec/00_scope.md R9; assumption log 1). -/
namespace Sys2Proof.Machine

/-- The oldest pending move is taken; with none pending the block stays idle and keeps its state
(spec/60_exceptions.md R295, spec/70_reset_and_hazards.md R311). -/
def step (s : State) : Host.Outcome State Fault Refusal :=
  match s.host with
  | []        => .next s
  | m :: rest => hostMove m (s.setHost rest)

/-- The state whose next step issues the command the table's bits `w` spell: the host writes that code to `CMD`
before its other pending moves (assumption log 1). -/
def State.withFetchWord (s : State) (nbits w : Nat) : State :=
  s.setHost (.command (tableCode nbits w) :: s.host)

end Sys2Proof.Machine
end

