-- ==== Sys2Proof/Safety.lean ====
section
/-! DEFINITION. The terms claims about the block are made in: its ports and what "unchanged" means for each,
what a command reports, the invariant of the machine, and independent readings of the keystream and of the
checksum. -/
namespace Sys2Proof.Machine

/-! ### Ports (spec/10_state.md R40) -/

/-- The ports of the block, and the other pieces of its state. -/
inductive Port where
  | inBuf | outBuf | ent
  | hdrMagic | hdrLength | hdrChecksum
  | mdHeaderOffset | mdStated | mdReal | mdFamily
  | ckAcc | blkI
  | afRegs | afValid | lcReg | lcValid | rngOut
  | mrHit | mdVerified | initOk
  | cmd | status | rom | host
  deriving DecidableEq, Repr

/-- A port reads the same in two states; a buffer does when every offset reads the same byte and the length
register the same length. `status` stands for `STATUS` and both information words. -/
def Port.same (p : Port) (s t : State) : Prop :=
  match p with
  | .inBuf          => (∀ a, t.inMem.read a = s.inMem.read a) ∧ t.inLen = s.inLen
  | .outBuf         => (∀ a, t.outMem.read a = s.outMem.read a) ∧ t.outLen = s.outLen
  | .ent            => t.ent = s.ent
  | .hdrMagic       => t.hdr.magic = s.hdr.magic
  | .hdrLength      => t.hdr.length = s.hdr.length
  | .hdrChecksum    => t.hdr.checksum = s.hdr.checksum
  | .mdHeaderOffset => t.md.headerOffset = s.md.headerOffset
  | .mdStated       => t.md.stated = s.md.stated
  | .mdReal         => t.md.real = s.md.real
  | .mdFamily       => t.md.family = s.md.family
  | .ckAcc          => t.ckAcc = s.ckAcc
  | .blkI           => t.blkI = s.blkI
  | .afRegs         => t.af = s.af
  | .afValid        => t.afValid = s.afValid
  | .lcReg          => t.lcS = s.lcS
  | .lcValid        => t.lcValid = s.lcValid
  | .rngOut         => t.rngOut = s.rngOut
  | .mrHit          => t.mrHit = s.mrHit
  | .mdVerified     => t.mdVerified = s.mdVerified
  | .initOk         => t.initOk = s.initOk
  | .cmd            => t.cmd = s.cmd
  | .status         => t.status = s.status ∧ t.info0 = s.info0 ∧ t.info1 = s.info1
  | .rom            => t.rom = s.rom
  | .host           => t.host = s.host

/-- Every port outside the list reads the same in `t` as in `s`. -/
def UnchangedBut (ps : List Port) (s t : State) : Prop := ∀ p, p ∉ ps → p.same s t

/-! ### What a command reports (R32, 60_exceptions.md R272) -/

/-- `STATUS` holds this kind and cause and nothing in its reserved bits, and the information words these
numbers. The codes are numbers, as R272 gives them. -/
def Reports (t : State) (kind cause info0 info1 : Nat) : Prop :=
  t.status = BitVec.ofNat 32 (kind + 256 * cause) ∧
  t.info0 = BitVec.ofNat 64 info0 ∧ t.info1 = BitVec.ofNat 64 info1

/-- The command met no error (R286). -/
def EndsOk (t : State) : Prop := Reports t 0 0 0 0

/-- Kind and cause codes of R272 that the block can raise; `0x08` is not one of them (R272). -/
def raisable : List (Nat × Nat) :=
  [(1, 0x01), (1, 0x02), (1, 0x03), (1, 0x04), (1, 0x05), (1, 0x06), (1, 0x07), (2, 0x20),
   (3, 0x40), (3, 0x41), (3, 0x42), (3, 0x43), (3, 0x44), (3, 0x45), (3, 0x46)]

/-- The causes of R273, by command, as kind and cause codes of R272. -/
def causesOf : Instr → List (Nat × Nat)
  | .afSeed | .lcSeed | .mrLookup => []
  | .afNext | .lcNext => [(3, 0x42)]
  | .ksApply => [(3, 0x41), (1, 0x05), (3, 0x44)]
  | .hdrParse => [(1, 0x02), (1, 0x03), (1, 0x04)]
  | .hdrSer => [(3, 0x44)]
  | .ckVerify => [(3, 0x41), (2, 0x20)]
  | .ckCalc => [(3, 0x41)]
  | .ofsDetect => [(1, 0x01)]
  | .ofsPrefix => [(3, 0x43), (3, 0x44)]
  | .ptDecode => [(1, 0x06), (1, 0x07)]
  | .ptEncode => [(3, 0x44)]
  | .decrypt => [(1, 0x01), (1, 0x02), (1, 0x03), (1, 0x04), (3, 0x44), (2, 0x20)]
  | .encrypt => [(3, 0x40), (3, 0x41), (3, 0x44), (3, 0x43)]
  | .sysReset => [(3, 0x46)]

/-- A legal `STATUS`: `OK`, or one of those errors; so bits 7:2 and 31:16 read 0 (R32). -/
def StatusLegal (w : Word) : Prop :=
  w = 0#32 ∨ ∃ x ∈ raisable, w = BitVec.ofNat 32 (x.1 + 256 * x.2)

/-! ### The invariant of the machine -/

/-- What every step keeps: the buffers are in canonical form and within `BUF_MAX` (R33, R34), the entries can be
counted (R35), `STATUS` is legal (R32), a seeded AF generator has its front cursor three ahead of its rear cursor
(R23), bit 31 of `RNG_OUT` is 0 (R26), and `INIT_OK` is the result of the self-check of `ROM` (R31, R312). -/
structure Inv (s : State) : Prop where
  inWf     : s.inMem.wf = true
  outWf    : s.outMem.wf = true
  inFits   : s.inMem.length ≤ s.rom.bufMax.toNat
  outFits  : s.outMem.length ≤ s.rom.bufMax.toNat
  entFits  : s.ent.length < 2 ^ 64
  status   : StatusLegal s.status
  cursors  : s.afValid = true → s.af.b.val = (s.af.f.val + 28) % 31
  rngTop   : s.rngOut.toNat < 2 ^ 31
  initOk   : s.initOk = (selfCheck s.rom.ovrTable).isNone

/-- Every register, flag and length at its reset value (R41, R310), but for `INIT_OK`. -/
structure AllZero (t : State) : Prop where
  afWords    : ∀ i : Fin 31, t.af.r[i] = 0#32
  afFront    : t.af.f.val = 0
  afRear     : t.af.b.val = 0
  afValid    : t.afValid = false
  lcS        : t.lcS = 0#64
  lcValid    : t.lcValid = false
  rngOut     : t.rngOut = 0#32
  mdOffset   : t.md.headerOffset = 0#64
  mdStated   : t.md.stated = 0#32
  mdReal     : t.md.real = 0#32
  mdFamily   : t.md.family = .af
  hdrMagic   : t.hdr.magic = 0#32
  hdrLength  : t.hdr.length = 0#32
  hdrCheck   : t.hdr.checksum = 0#32
  ckAcc      : t.ckAcc = 0#32
  blkI       : t.blkI = 0#64
  mrHit      : t.mrHit = false
  mdVerified : t.mdVerified = false
  cmd        : t.cmd = 0#8
  inLen      : t.inLen = 0#64
  outLen     : t.outLen = 0#64
  entN       : t.entN = 0#64
  inNone     : ∀ a, t.inMem.read a = none
  outNone    : ∀ a, t.outMem.read a = none

/-! ### Independent readings -/

/-- The generator after `k` calls of `rng_next`. -/
def genAfter : Nat → Gen → Gen
  | 0,     g => g
  | k + 1, g => genAfter k g.next.2

/-- Output number `k`, counted from 0, of the generator of a family freshly seeded (41_keystream_cipher.md R152). -/
def keyWord (rom : Config) (g : Family) (seed : Word) (k : Nat) : Word :=
  (genAfter k (Gen.seed rom g seed)).next.1

/-- Byte `j` of the keystream, laid out little-endian (R151, 20_memory.md R61). -/
def keyByte (rom : Config) (g : Family) (seed : Word) (j : Nat) : Byte :=
  (keyWord rom g seed (j / 4)).extractLsb' (8 * (j % 4)) 8

/-- The sum of the little-endian 32-bit blocks of a byte string, taken byte by byte: the byte at offset `j`
weighs `256 ^ (j mod 4)` (20_memory.md R61). -/
def byteSum (p : List Byte) : Nat := (p.zipIdx.map (fun x => x.1.toNat * 256 ^ (x.2 % 4))).sum

/-- The number a little-endian byte string stands for (30_encoding.md R95). -/
def leNumber : List Byte → Nat
  | []      => 0
  | b :: bs => b.toNat + 256 * leNumber bs

/-- A plaintext as its segments joined by single zero bytes (R97). -/
def joinNul (segs : List (List Byte)) : List Byte := List.intercalate [0x00#8] segs

/-- The key and value of a segment cut at its first `=` (46_plaintext_codec.md R226). -/
def cutFirst (seg : List Byte) : Entry :=
  ⟨seg.takeWhile (· ≠ 0x3D#8), (seg.dropWhile (· ≠ 0x3D#8)).tail⟩

/-- The offset of the segment that follows these segments (R226). -/
def segOffset (before : List (List Byte)) : Nat := (before.map (fun seg => seg.length + 1)).sum

/-- Segments the decoder accepts one after another: each non-empty one holds an `=`, and no two of those have
the same key (R226). -/
def SegmentsOk (segs : List (List Byte)) : Prop :=
  (∀ seg ∈ segs, seg ≠ [] → 0x3D#8 ∈ seg) ∧
  ((segs.filter (fun seg => seg ≠ [])).map (fun seg => (cutFirst seg).key)).Nodup

/-- Entries the encoder and decoder round-trip (R231). -/
def EntriesClean (es : List Entry) : Prop :=
  (es.map Entry.key).Nodup ∧
  ∀ e ∈ es, 0x3D#8 ∉ e.key ∧ 0x00#8 ∉ e.key ∧ 0x00#8 ∉ e.value

end Sys2Proof.Machine
end

