-- ==== Sys2Proof/Certificates/Slice0/Obligations.lean ====
section
/-! DEFINITION. The statements for the provers. Each docstring names the rules of spec/ it formalises. Status codes,
cause codes and command codes are numbers, as the spec gives them. -/

open Sys2Proof Sys2Proof.Machine

/-! ### Encoding and issue -/

/-- R91: the seventeen codes of the opcode map stand for the seventeen commands; R93: every other code is illegal.
Sanity statement on the words of spec/30_encoding.md. -/
def Obligations.OpcodeMapDecodes : Prop :=
  decodeCode 0x01#8 = .ok .afSeed ∧ decodeCode 0x02#8 = .ok .afNext ∧
  decodeCode 0x03#8 = .ok .lcSeed ∧ decodeCode 0x04#8 = .ok .lcNext ∧
  decodeCode 0x10#8 = .ok .ksApply ∧ decodeCode 0x20#8 = .ok .hdrParse ∧
  decodeCode 0x21#8 = .ok .hdrSer ∧ decodeCode 0x30#8 = .ok .ckVerify ∧
  decodeCode 0x31#8 = .ok .ckCalc ∧ decodeCode 0x40#8 = .ok .mrLookup ∧
  decodeCode 0x50#8 = .ok .ofsDetect ∧ decodeCode 0x51#8 = .ok .ofsPrefix ∧
  decodeCode 0x60#8 = .ok .ptDecode ∧ decodeCode 0x61#8 = .ok .ptEncode ∧
  decodeCode 0x70#8 = .ok .decrypt ∧ decodeCode 0x71#8 = .ok .encrypt ∧
  decodeCode 0x7F#8 = .ok .sysReset ∧
  ∀ c : Byte,
    c ∉ [0x01#8, 0x02#8, 0x03#8, 0x04#8, 0x10#8, 0x20#8, 0x21#8, 0x30#8, 0x31#8, 0x40#8, 0x50#8, 0x51#8,
         0x60#8, 0x61#8, 0x70#8, 0x71#8, 0x7F#8] →
    decodeCode c = .error (.illegalCode c)

/-- R90: a command is one byte, its code, and what follows it is left alone; and where a code decodes, it is the
encoding of what it decodes to. -/
def Obligations.DecodeInvertsEncode : Prop :=
  (∀ (i : Instr) (rest : List Byte), i.wf = true →
    decode (encode i ++ rest) = .ok (i, rest) ∧ (encode i).length = 1) ∧
  ∀ (c : Byte) (i : Instr), decodeCode c = .ok i → encode i = [c]

/-- A step whose oldest pending move is a command that decodes runs exactly that command, on the state with the
code latched in `CMD` and the move taken. The queue of host moves is the model's own (assumption log 1). -/
def Obligations.StepRunsDecodedCommand : Prop :=
  ∀ (s : State) (c : Byte) (rest : List HostMove) (i : Instr),
    s.host = .command c :: rest → decode [c] = .ok (i, []) → i.wf = true →
    step s = exec i { s with host := rest, cmd := c }

/-- R93, R276: while `INIT_OK = 1` a code outside the map ends with IllegalCommand, its code in the first information
word and 0 in the second; R93, R276, R313: while `INIT_OK = 0` every code but `0x7F`, legal or not, ends with
InitFailed and both information words 0; and nothing else changes, but for the code latched in `CMD` (R32). That the
code is issued through the queue of host moves and taken from it is the model's own (assumption log 1). -/
def Obligations.IllegalAndUninitialisedCodesRefused : Prop :=
  ∀ (s : State) (c : Byte) (rest : List HostMove), s.host = .command c :: rest →
    (s.initOk = true →
      c ∉ [0x01#8, 0x02#8, 0x03#8, 0x04#8, 0x10#8, 0x20#8, 0x21#8, 0x30#8, 0x31#8, 0x40#8, 0x50#8, 0x51#8,
           0x60#8, 0x61#8, 0x70#8, 0x71#8, 0x7F#8] →
      ∃ t, step s = .next t ∧ Reports t 3 0x45 c.toNat 0 ∧ t.cmd = c ∧ t.host = rest ∧
        UnchangedBut [.cmd, .status, .host] s t) ∧
    (s.initOk = false → c ≠ 0x7F#8 →
      ∃ t, step s = .next t ∧ Reports t 3 0x46 0 0 ∧ t.cmd = c ∧ t.host = rest ∧
        UnchangedBut [.cmd, .status, .host] s t)

/-- R311, R295: with no move pending the block keeps its state; R27, R28, R33, R35, R296: a host write changes the
port it names and nothing else. The queue the write is taken from is the model's own (assumption log 1), and so are
the two stops (assumption log 11). -/
def Obligations.HostWritesOnePort : Prop :=
  ∀ (s : State) (rest : List HostMove),
    (s.host = [] → step s = .next s) ∧
    (∀ bs, s.host = .write (.loadIn bs) :: rest → bs.length ≤ s.rom.bufMax.toNat →
      ∃ t, step s = .next t ∧ (∀ a, t.inMem.read a = bs[a]?) ∧ t.inLen.toNat = bs.length ∧ t.host = rest ∧
        UnchangedBut [.inBuf, .host] s t) ∧
    (∀ bs, s.host = .write (.loadIn bs) :: rest → s.rom.bufMax.toNat < bs.length →
      step s = .fault .inputBeyondCapacity) ∧
    (∀ es, s.host = .write (.loadEnt es) :: rest → es.length < 2 ^ 64 →
      ∃ t, step s = .next t ∧ t.ent = es ∧ t.entN.toNat = es.length ∧ t.host = rest ∧
        UnchangedBut [.ent, .host] s t) ∧
    (∀ es, s.host = .write (.loadEnt es) :: rest → 2 ^ 64 ≤ es.length →
      step s = .fault .entriesBeyondCount) ∧
    (∀ v, s.host = .write (.mdHeaderOffset v) :: rest →
      ∃ t, step s = .next t ∧ t.md.headerOffset = v ∧ t.host = rest ∧ UnchangedBut [.mdHeaderOffset, .host] s t) ∧
    (∀ v, s.host = .write (.mdStated v) :: rest →
      ∃ t, step s = .next t ∧ t.md.stated = v ∧ t.host = rest ∧ UnchangedBut [.mdStated, .host] s t) ∧
    (∀ v, s.host = .write (.mdReal v) :: rest →
      ∃ t, step s = .next t ∧ t.md.real = v ∧ t.host = rest ∧ UnchangedBut [.mdReal, .host] s t) ∧
    (∀ v, s.host = .write (.mdFamily v) :: rest →
      ∃ t, step s = .next t ∧ t.md.family = v ∧ t.host = rest ∧ UnchangedBut [.mdFamily, .host] s t) ∧
    (∀ v, s.host = .write (.hdrMagic v) :: rest →
      ∃ t, step s = .next t ∧ t.hdr.magic = v ∧ t.host = rest ∧ UnchangedBut [.hdrMagic, .host] s t) ∧
    (∀ v, s.host = .write (.hdrLength v) :: rest →
      ∃ t, step s = .next t ∧ t.hdr.length = v ∧ t.host = rest ∧ UnchangedBut [.hdrLength, .host] s t) ∧
    (∀ v, s.host = .write (.hdrChecksum v) :: rest →
      ∃ t, step s = .next t ∧ t.hdr.checksum = v ∧ t.host = rest ∧ UnchangedBut [.hdrChecksum, .host] s t)

/-! ### Reset and the whole machine -/

/-- R41, R12: after reset every register, flag and length is 0, `STATUS` is OK, and the ROM of the block meets the
constraints of R12: warm-up 309, trial order AF then LC, offset at least 10, the stated override present, keys unique
and equal to their stated magics. Hence the self-check passes and `INIT_OK = 1`. That nothing is pending is the model's
choice (assumption log 1). -/
def Obligations.ResetLeavesEverythingZero : Prop :=
  AllZero State.reset ∧ Reports State.reset 0 0 0 0 ∧ State.reset.initOk = true ∧ State.reset.host = [] ∧
  State.reset.rom.afWarmup = 309 ∧ State.reset.rom.trialOrder = [.af, .lc] ∧
  10 ≤ State.reset.rom.containerOffset.toNat ∧
  ⟨0x01346231#32, 0x01346231#32, 0x01346232#32, .lc⟩ ∈ State.reset.rom.ovrTable ∧
  (State.reset.rom.ovrTable.map OvrEntry.key).Nodup ∧
  ∀ e ∈ State.reset.rom.ovrTable, e.key = e.stated

/-- The invariant of the machine holds after reset (R41, R312): canonical buffers within `BUF_MAX` (R33, R34), countable
entries (R35), a legal `STATUS` (R32), cursors three apart (R23), bit 31 of `RNG_OUT` clear (R26), `INIT_OK` the result of the
self-check (R31). -/
def Obligations.InvariantHoldsAtReset : Prop := Inv State.reset

/-- The invariant is kept by every step from every state that has it, reachable or not. -/
def Obligations.InvariantKeptByEveryStep : Prop :=
  ∀ s t : State, Inv s → step s = .next t → Inv t

/-- R36, R75: no step writes `ROM`; and a step takes at most the oldest of the host's moves (the queue is the model's own,
assumption log 1). -/
def Obligations.RomNeverWritten : Prop :=
  ∀ s t : State, step s = .next t → t.rom = s.rom ∧ t.host = s.host.tail

/-- R313: a block whose table fails the self-check never leaves `INIT_OK = 0`. -/
def Obligations.FailedSelfCheckIsForever : Prop :=
  ∀ (s t : State) (e : OvrEntry), e ∈ s.rom.ovrTable → e.key ≠ e.stated → s.initOk = false →
    step s = .next t → t.initOk = false ∧ e ∈ t.rom.ovrTable

/-- R310: the reset signal writes the reset values, runs the self-check and leaves `ROM` alone. Three clauses are the
model's: that `STATUS` reads OK even where the self-check fails is deduced (assumption log 17), that `CMD` reads 0 is
deduced from R41 (assumption log 8), and the queue the reset is taken from is the model's own (assumption log 1). -/
def Obligations.ResetSignalResets : Prop :=
  ∀ (s : State) (rest : List HostMove), s.host = .reset :: rest →
    ∃ t, step s = .next t ∧ AllZero t ∧ EndsOk t ∧ t.rom = s.rom ∧ t.host = rest ∧
      (t.initOk = true ↔ ∀ e ∈ s.rom.ovrTable, e.key = e.stated)

/-- R260, R312: `SYS.RESET` does the same and reports the self-check: OK, or InitFailed with the index of the first
entry that fails. It is accepted whatever `INIT_OK` is. That `CMD` reads 0 afterwards and not `0x7F` is the model's:
R32 and R41 pull apart there, and it is deduced from R41 (assumption log 8). -/
def Obligations.SysResetResult : Prop :=
  ∀ s : State,
    ((∀ e ∈ s.rom.ovrTable, e.key = e.stated) →
      ∃ t, exec .sysReset s = .next t ∧ AllZero t ∧ EndsOk t ∧ t.initOk = true ∧
        UnchangedBut
          [.inBuf, .outBuf, .ent, .hdrMagic, .hdrLength, .hdrChecksum, .mdHeaderOffset, .mdStated, .mdReal,
           .mdFamily, .ckAcc, .blkI, .afRegs, .afValid, .lcReg, .lcValid, .rngOut, .mrHit, .mdVerified, .initOk,
           .cmd, .status] s t) ∧
    (∀ (good : List OvrEntry) (bad : OvrEntry) (more : List OvrEntry),
      s.rom.ovrTable = good ++ bad :: more → (∀ e ∈ good, e.key = e.stated) → bad.key ≠ bad.stated →
      good.length < 2 ^ 64 →
      ∃ t, exec .sysReset s = .next t ∧ AllZero t ∧ Reports t 3 0x46 good.length 0 ∧ t.initOk = false ∧
        t.rom = s.rom ∧ t.host = s.host)

/-- R336, R288: every command ends, with a next state. -/
def Obligations.EveryCommandEnds : Prop := ∀ (i : Instr) (s : State), ∃ t, exec i s = .next t

/-- R273: a command of a ready block ends OK or with one of the causes of its row, and `HDR.SER` with LengthTooLarge
only where `BUF_MAX < 12`. -/
def Obligations.CommandRaisesOnlyItsCauses : Prop :=
  ∀ (i : Instr) (s t : State), s.initOk = true → exec i s = .next t →
    (t.status = 0#32 ∨ ∃ x ∈ causesOf i, t.status = BitVec.ofNat 32 (x.1 + 256 * x.2)) ∧
    (i = .hdrSer → t.status ≠ 0#32 → s.rom.bufMax.toNat < 12)

/-- R285 (3): on an error every result port is as before the command, but for the ports CK.VERIFY and DECRYPT write
with ChecksumError; SYS.RESET has its own statement. `BLK_I` is no port (assumption log 9). -/
def Obligations.ErrorLeavesPortsUnchanged : Prop :=
  ∀ (i : Instr) (s t : State), i ≠ .sysReset → exec i s = .next t → t.status ≠ 0#32 →
    UnchangedBut [.status] s t ∨
    (i = .ckVerify ∧ t.status = 0x00002002#32 ∧ t.mdVerified = false ∧
      UnchangedBut [.status, .ckAcc, .mdVerified, .blkI] s t) ∨
    (i = .decrypt ∧ t.status = 0x00002002#32 ∧ t.mdVerified = false)

/-! ### PRNG engines -/

/-- R122: the table fill, word by word as signed integers, then cursors 3 and 0 and `AF_WARMUP` discarded steps of
`af_next`. -/
def Obligations.AfSeedResult : Prop :=
  ∀ s : State, s.initOk = true →
    ∃ (t : State) (r : Vector Word 31), exec .afSeed s = .next t ∧
      r[0] = (if s.md.real = 0#32 then 1#32 else s.md.real) ∧
      (∀ i : Fin 30,
        let x := (r[i.castSucc]).toInt
        let y := 16807 * Int.tmod x 127773 - 2836 * Int.tdiv x 127773
        (r[i.succ]).toInt = if y < 0 then y + 2147483647 else y) ∧
      t.af = afSteps s.rom.afWarmup ⟨r, 3, 0⟩ ∧ t.afValid = true ∧ EndsOk t

/-- R123: where the cursors stand after seeding, for every warm-up count; with 309 they are 2 and 30. Seed 0 gives the
state of seed 1. -/
def Obligations.AfSeedCursors : Prop :=
  ∀ (warmup : Nat) (seed : Word),
    (afSeed warmup seed).f.val = (3 + warmup) % 31 ∧ (afSeed warmup seed).b.val = warmup % 31 ∧
    (afSeed 309 seed).f.val = 2 ∧ (afSeed 309 seed).b.val = 30 ∧
    afSeed warmup 0#32 = afSeed warmup 1#32

/-- R124: the word under the front cursor becomes the 32-bit sum of the two, the output is that new word shifted right
arithmetically by one and masked, both cursors advance modulo 31, and no other word changes. -/
def Obligations.AfNextResult : Prop :=
  ∀ s : State, s.initOk = true → s.afValid = true →
    ∃ t, exec .afNext s = .next t ∧
      (t.af.r[s.af.f]).toNat = ((s.af.r[s.af.f]).toNat + (s.af.r[s.af.b]).toNat) % 2 ^ 32 ∧
      (∀ j : Fin 31, j ≠ s.af.f → t.af.r[j] = s.af.r[j]) ∧
      t.rngOut = BitVec.ofInt 32 ((t.af.r[s.af.f]).toInt / 2) &&& 0x7FFFFFFF#32 ∧
      t.rngOut.toNat = (t.af.r[s.af.f]).toNat / 2 ∧
      t.af.f.val = (s.af.f.val + 1) % 31 ∧ t.af.b.val = (s.af.b.val + 1) % 31 ∧ EndsOk t

/-- R24: `AF.NEXT` and `LC.NEXT` with their valid flag clear raise GeneratorNotSeeded and change nothing. -/
def Obligations.UnseededNextRefused : Prop :=
  ∀ s : State, s.initOk = true →
    (s.afValid = false → ∃ t, exec .afNext s = .next t ∧ Reports t 3 0x42 0 0 ∧ UnchangedBut [.status] s t) ∧
    (s.lcValid = false → ∃ t, exec .lcNext s = .next t ∧ Reports t 3 0x42 1 0 ∧ UnchangedBut [.status] s t)

/-- R127, R129: `LC_S` is the seed minus one in 64 bits, wrapping. -/
def Obligations.LcSeedResult : Prop :=
  ∀ s : State, s.initOk = true →
    ∃ t, exec .lcSeed s = .next t ∧ t.lcS.toNat = (s.md.real.toNat + (2 ^ 64 - 1)) % 2 ^ 64 ∧
      t.lcValid = true ∧ EndsOk t

/-- R128, R130: the new state is `6364136223846793005 * LC_S + 1` modulo 2^64 and the output its bits 63:33. -/
def Obligations.LcNextResult : Prop :=
  ∀ s : State, s.initOk = true → s.lcValid = true →
    ∃ t, exec .lcNext s = .next t ∧
      t.lcS.toNat = (6364136223846793005 * s.lcS.toNat + 1) % 2 ^ 64 ∧
      t.rngOut.toNat = t.lcS.toNat / 2 ^ 33 ∧ EndsOk t

/-- R124, R126 (c): from the table fill on, the generator is the single recurrence `x[n] = x[n-31] + x[n-3]` modulo 2^32,
and call `k` (counting from 1) of `af_next` outputs `x[30 + k]` shifted right by one. The sequence is unrolled from the front
cursor on, `x[i] = r[(i + 3) mod 31]`: R126 (c) says `x[i] = r[i]`, which R124 contradicts (assumption log 20). -/
def Obligations.AfStepsUnrollToRecurrence : Prop :=
  ∀ (r : Vector Word 31) (x : Nat → Word),
    (∀ i : Fin 31, x i.val = r[i + 3]) → (∀ n, x (n + 31) = x n + x (n + 28)) →
    ∀ k, (afNext (afSteps k ⟨r, 3, 0⟩)).1 = x (31 + k) >>> 1

/-- R126 (a), (b): the recurrence value lies in the ranges given, so it never overflows; the words after the first are
never negative; and for a positive word it is `16807 * word mod 2147483647`. -/
def Obligations.AfRecurrenceNeverOverflows : Prop :=
  ∀ w : Word,
    let x := w.toInt
    let y := 16807 * Int.tmod x 127773 - 2836 * Int.tdiv x 127773
    (0 ≤ x → -47664652 ≤ y ∧ y ≤ 2147464004) ∧ (x < 0 → -2147464004 ≤ y ∧ y ≤ 47664652) ∧
    0 ≤ (afWord w).toInt ∧ (afWord w).toInt ≤ 2147483646 ∧
    (0 < x → (afWord w).toInt = 16807 * x % 2147483647)

/-! ### Keystream cipher -/

/-- R131, R152: the keystream is the outputs of the engines: seeding and stepping a generator of either family is
`af_seed` and `af_next`, or `lc_seed` and `lc_next`. R151, R153, R154: with an aligned length that `IN` and `OUT` can
hold, every byte of `OUT` below `L` is the byte of `IN` there XORed with the keystream byte, nothing stands at or
beyond `L`, and the registers of the family used hold the generator after `L / 4` outputs with its valid flag clear.
-/
def Obligations.KsApplyResult : Prop :=
  (∀ st : AfState, Gen.next (.af st) = ((afNext st).1, .af (afNext st).2)) ∧
  (∀ x : DWord, Gen.next (.lc x) = ((lcNext x).1, .lc (lcNext x).2)) ∧
  (∀ (rom : Config) (seed : Word),
    Gen.seed rom .af seed = .af (afSeed rom.afWarmup seed) ∧ Gen.seed rom .lc seed = .lc (lcSeed seed)) ∧
  ∀ s : State, s.initOk = true → s.inMem.wf = true →
    s.hdr.length.toNat % 4 = 0 → s.hdr.length.toNat ≤ s.inMem.length →
    s.hdr.length.toNat ≤ s.rom.bufMax.toNat →
    ∃ t, exec .ksApply s = .next t ∧
      (∀ j, t.outMem.read j =
        if j < s.hdr.length.toNat then
          (s.inMem.read j).map (fun b => b ^^^ keyByte s.rom s.md.family s.md.real j)
        else none) ∧
      t.outLen.toNat = s.hdr.length.toNat ∧
      (match genAfter (s.hdr.length.toNat / 4) (Gen.seed s.rom s.md.family s.md.real) with
       | .af x => s.md.family = .af ∧ t.af = x ∧ t.afValid = false ∧ UnchangedBut [.outBuf, .blkI, .afRegs, .afValid, .status] s t
       | .lc x => s.md.family = .lc ∧ t.lcS = x ∧ t.lcValid = false ∧ UnchangedBut [.outBuf, .blkI, .lcReg, .lcValid, .status] s t) ∧
      EndsOk t

/-- R153: the three errors of `KS.APPLY` in their order, each leaving everything else unchanged. -/
def Obligations.KsApplyErrors : Prop :=
  ∀ s : State, s.inMem.length < 2 ^ 64 → s.initOk = true →
    (s.hdr.length.toNat % 4 ≠ 0 →
      ∃ t, exec .ksApply s = .next t ∧ Reports t 3 0x41 s.hdr.length.toNat 0 ∧ UnchangedBut [.status] s t) ∧
    (s.hdr.length.toNat % 4 = 0 → s.inMem.length < s.hdr.length.toNat →
      ∃ t, exec .ksApply s = .next t ∧ Reports t 1 0x05 s.hdr.length.toNat s.inMem.length ∧
        UnchangedBut [.status] s t) ∧
    (s.hdr.length.toNat % 4 = 0 → s.hdr.length.toNat ≤ s.inMem.length → s.rom.bufMax.toNat < s.hdr.length.toNat →
      ∃ t, exec .ksApply s = .next t ∧ Reports t 3 0x44 s.hdr.length.toNat s.rom.bufMax.toNat ∧
        UnchangedBut [.status] s t)

/-- R155: ciphering `OUT` again with the same settings gives back the first `HDR_LENGTH` bytes of `IN`. -/
def Obligations.KsApplyTwiceRestores : Prop :=
  ∀ s t : State, s.initOk = true → exec .ksApply s = .next t → t.status = 0#32 →
    ∃ u, exec .ksApply (t.setIn t.outMem.bytes) = .next u ∧ EndsOk u ∧
      u.outMem.bytes = s.inMem.bytes.take s.hdr.length.toNat

/-- R21: no generator register left by an earlier command is an input of a cipher command: from states that differ in those
registers alone, each of the three ends with the same status, `OUT`, Header, Metadata, accumulator and flags. -/
def Obligations.CipherIgnoresOldGenerators : Prop :=
  ∀ (s t u : State) (x : AfState) (y : DWord) (z : Word) (p q : Bool), ∀ i ∈ [Instr.ksApply, .encrypt, .decrypt],
    exec i s = .next t →
    exec i { s with af := x, afValid := p, lcS := y, lcValid := q, rngOut := z } = .next u →
    UnchangedBut [.afRegs, .afValid, .lcReg, .lcValid, .rngOut] t u

/-- R152: bit 7 of the fourth byte of every block passes through the cipher unchanged, since every generator output has
bit 31 clear. -/
def Obligations.CipherKeepsTopBits : Prop :=
  (∀ g : Gen, g.next.1.toNat < 2 ^ 31) ∧
  ∀ s t : State, s.initOk = true → s.inMem.wf = true → exec .ksApply s = .next t → t.status = 0#32 →
    ∀ k, 4 * k + 3 < s.hdr.length.toNat →
      (t.outMem.read (4 * k + 3)).map (fun b => b.getLsbD 7) =
      (s.inMem.read (4 * k + 3)).map (fun b => b.getLsbD 7)

/-! ### Header codec -/

/-- R94, R95, R167: twelve bytes at the header offset whose length field is the number of bytes after them, a multiple of
4, parse to the three little-endian fields. -/
def Obligations.HdrParseResult : Prop :=
  ∀ (s : State) (pre m l c payload : List Byte), s.initOk = true →
    s.inMem.bytes = pre ++ (m ++ l ++ c) ++ payload → pre.length = s.md.headerOffset.toNat →
    m.length = 4 → l.length = 4 → c.length = 4 →
    leNumber l = payload.length → payload.length % 4 = 0 →
    ∃ t, exec .hdrParse s = .next t ∧
      t.hdr.magic.toNat = leNumber m ∧ t.hdr.length.toNat = leNumber l ∧ t.hdr.checksum.toNat = leNumber c ∧
      EndsOk t

/-- R166, R167: the three errors of the parser in their order, an offset beyond the end counting as no bytes available;
the Header registers keep their values. -/
def Obligations.HdrParseErrors : Prop :=
  ∀ s : State, Inv s → s.initOk = true →
    (s.inMem.length < s.md.headerOffset.toNat + 12 →
      ∃ t, exec .hdrParse s = .next t ∧ Reports t 1 0x02 (s.inMem.length - s.md.headerOffset.toNat) 12 ∧
        UnchangedBut [.status] s t) ∧
    (∀ pre m l c payload : List Byte,
      s.inMem.bytes = pre ++ (m ++ l ++ c) ++ payload → pre.length = s.md.headerOffset.toNat →
      m.length = 4 → l.length = 4 → c.length = 4 →
      (leNumber l ≠ payload.length →
        ∃ t, exec .hdrParse s = .next t ∧ Reports t 1 0x03 (leNumber l) payload.length ∧
          UnchangedBut [.status] s t) ∧
      (leNumber l = payload.length → payload.length % 4 ≠ 0 →
        ∃ t, exec .hdrParse s = .next t ∧ Reports t 1 0x04 (leNumber l) 0 ∧ UnchangedBut [.status] s t))

/-- R168, R169: `OUT` holds exactly the twelve bytes of the three Header registers, low byte first, whatever their
values; and where `BUF_MAX < 12` the command is refused. -/
def Obligations.HdrSerResult : Prop :=
  ∀ s : State, s.initOk = true →
    (12 ≤ s.rom.bufMax.toNat →
      ∃ t, exec .hdrSer s = .next t ∧
        (∀ a, t.outMem.read a =
          if a < 4 then some (BitVec.ofNat 8 (s.hdr.magic.toNat / 256 ^ a))
          else if a < 8 then some (BitVec.ofNat 8 (s.hdr.length.toNat / 256 ^ (a - 4)))
          else if a < 12 then some (BitVec.ofNat 8 (s.hdr.checksum.toNat / 256 ^ (a - 8)))
          else none) ∧
        t.outLen = 12#64 ∧ EndsOk t) ∧
    (s.rom.bufMax.toNat < 12 →
      ∃ t, exec .hdrSer s = .next t ∧ Reports t 3 0x44 12 s.rom.bufMax.toNat ∧ UnchangedBut [.status] s t)

/-- R170: parsing a serialised header before a payload of the declared length gives the header back, and serialising a
parsed header gives its twelve bytes back. -/
def Obligations.HeaderRoundTrip : Prop :=
  (∀ (h : Header) (payload : List Byte), h.length.toNat = payload.length → payload.length % 4 = 0 →
    hdrParse (hdrSer h ++ payload) = .ok h) ∧
  ∀ (t : List Byte) (h : Header), hdrParse t = .ok h →
    t.take 12 = hdrSer h ∧ h.length.toNat + 12 = t.length ∧ h.length.toNat % 4 = 0

/-! ### Checksum -/

/-- R181, R182: over an `IN` whose length is a multiple of 4, the accumulator is the header's checksum plus the
little-endian blocks of `IN`, modulo 2^32; it verifies exactly when that is `0xFFFFFFFF`, and both ends write `CK_ACC`
and `MD_VERIFIED`. -/
def Obligations.CkVerifyResult : Prop :=
  ∀ s : State, s.initOk = true → s.inMem.length % 4 = 0 →
    ∃ t, exec .ckVerify s = .next t ∧
      t.ckAcc.toNat = (s.hdr.checksum.toNat + byteSum s.inMem.bytes) % 2 ^ 32 ∧
      (t.ckAcc = 0xFFFFFFFF#32 → t.mdVerified = true ∧ EndsOk t) ∧
      (t.ckAcc ≠ 0xFFFFFFFF#32 → t.mdVerified = false ∧ Reports t 2 0x20 t.ckAcc.toNat 0xFFFFFFFF)

/-- R183, R184: over an `IN` whose length is a multiple of 4, the checksum is `0xFFFFFFFF` minus the little-endian
blocks of `IN`, modulo 2^32, in `CK_ACC` and in `HDR_CHECKSUM`. -/
def Obligations.CkCalcResult : Prop :=
  ∀ s : State, s.initOk = true → s.inMem.length % 4 = 0 →
    ∃ t, exec .ckCalc s = .next t ∧
      (t.ckAcc.toNat + byteSum s.inMem.bytes) % 2 ^ 32 = 0xFFFFFFFF ∧
      t.hdr.checksum = t.ckAcc ∧ EndsOk t

/-- R63, R182, R184: an input whose length is not a multiple of 4 is refused before any block is read, by either
checksum command. -/
def Obligations.UnalignedChecksumRefused : Prop :=
  ∀ s : State, Inv s → s.initOk = true → s.inMem.length % 4 ≠ 0 → ∀ i ∈ [Instr.ckVerify, Instr.ckCalc],
    ∃ t, exec i s = .next t ∧ Reports t 3 0x41 s.inMem.length 0 ∧ UnchangedBut [.status] s t

/-- R185: a checksum just computed over `IN` verifies over the same `IN`. -/
def Obligations.ComputedChecksumVerifies : Prop :=
  ∀ s t : State, s.initOk = true → exec .ckCalc s = .next t → t.status = 0#32 →
    ∃ u, exec .ckVerify t = .next u ∧ EndsOk u ∧ u.mdVerified = true ∧ u.ckAcc = 0xFFFFFFFF#32

/-- R186: flipping any single bit of a plaintext that verifies makes verification fail. -/
def Obligations.SingleBitFlipDetected : Prop :=
  ∀ (s t : State) (k : Nat) (b : Byte) (j : Fin 8), s.initOk = true →
    exec .ckVerify s = .next t → t.status = 0#32 → s.inMem.bytes[k]? = some b →
    ∃ u, exec .ckVerify (s.setIn (s.inMem.bytes.set k (b ^^^ BitVec.twoPow 8 j.val))) = .next u ∧
      u.status = 0x00002002#32 ∧ u.mdVerified = false

/-- R186, 90_conflicts.md C2: the checksum is not order-sensitive, so any reordering of whole blocks leaves the outcome
of a verification the same. -/
def Obligations.ChecksumIgnoresBlockOrder : Prop :=
  ∀ (c : Word) (p q : List Byte), p.length % 4 = 0 → q.length % 4 = 0 → (blocks p).Perm (blocks q) →
    ckVerify c p = ckVerify c q ∧ ckCalc p = ckCalc q

/-! ### Magic resolver -/

/-- R196, R197: an entry whose key is the header's magic gives its real magic and family; a magic that is no key gives
itself and the first family of the trial order, so only keys are searched. The keys are taken as unique (R36). -/
def Obligations.MrLookupResult : Prop :=
  ∀ s : State, s.initOk = true → (s.rom.ovrTable.map OvrEntry.key).Nodup →
    (∀ e ∈ s.rom.ovrTable, e.key = s.hdr.magic →
      ∃ t, exec .mrLookup s = .next t ∧ t.md.stated = s.hdr.magic ∧ t.md.real = e.real ∧
        t.md.family = e.family ∧ t.mrHit = true ∧ EndsOk t) ∧
    ((∀ e ∈ s.rom.ovrTable, e.key ≠ s.hdr.magic) →
      ∃ t, exec .mrLookup s = .next t ∧ t.md.stated = s.hdr.magic ∧ t.md.real = s.hdr.magic ∧
        s.rom.trialOrder.head? = some t.md.family ∧ t.mrHit = false ∧ EndsOk t)

/-- R201: in the ROM of the block, whatever its OPEN parameters, the stated magic `0x01346231` resolves to the real
magic `0x01346232` and the linear-congruential family, and the trial plan is that one trial. R198, for every ROM:
where the keys are unique, a magic that is a key has the one trial of its entry as its plan; a magic that is no key
has itself with each of the two families of `TRIAL_ORDER`, in that order and each once, and nothing else. -/
def Obligations.StatedOverrideResolves : Prop :=
  (∀ s : State, s.initOk = true → s.rom = State.reset.rom → s.hdr.magic = 0x01346231#32 →
    (∃ t, exec .mrLookup s = .next t ∧ t.md.real = 0x01346232#32 ∧ t.md.family = .lc ∧ t.mrHit = true ∧ EndsOk t) ∧
    mrPlan s.rom 0x01346231#32 = [⟨0x01346232#32, .lc⟩]) ∧
  (∀ (rom : Config) (e : OvrEntry), (rom.ovrTable.map OvrEntry.key).Nodup → e ∈ rom.ovrTable →
    mrPlan rom e.key = [⟨e.real, e.family⟩]) ∧
  ∀ (rom : Config) (m : Word), (∀ e ∈ rom.ovrTable, e.key ≠ m) →
    ∃ g h : Family, g ≠ h ∧ rom.trialOrder = [g, h] ∧ mrPlan rom m = [⟨m, g⟩, ⟨m, h⟩]

/-! ### Container offset -/

/-- R210, R211: a file that begins with the marker has its header at `CONTAINER_OFFSET`, or is rejected when it is shorter
than that; any other has it at 0. -/
def Obligations.OfsDetectResult : Prop :=
  ∀ s : State, Inv s → s.initOk = true →
    (∀ rest,
      s.inMem.bytes = [0x70#8, 0x68#8, 0x6f#8, 0x74#8, 0x6f#8, 0x73#8, 0x2e#8, 0x74#8, 0x61#8, 0x72#8] ++ rest →
      (s.rom.containerOffset.toNat ≤ s.inMem.length →
        ∃ t, exec .ofsDetect s = .next t ∧ t.md.headerOffset = s.rom.containerOffset ∧ EndsOk t) ∧
      (s.inMem.length < s.rom.containerOffset.toNat →
        ∃ t, exec .ofsDetect s = .next t ∧
          Reports t 1 0x01 s.inMem.length s.rom.containerOffset.toNat ∧ UnchangedBut [.status] s t)) ∧
    (s.inMem.bytes.take 10 ≠ [0x70#8, 0x68#8, 0x6f#8, 0x74#8, 0x6f#8, 0x73#8, 0x2e#8, 0x74#8, 0x61#8, 0x72#8] →
      ∃ t, exec .ofsDetect s = .next t ∧ t.md.headerOffset = 0#64 ∧ EndsOk t)

/-- R212, R213: offset 0 gives no prefix, an offset of at least 10 gives the marker and zeros up to it, 1 to 9 is refused,
and so is an offset beyond `BUF_MAX`. -/
def Obligations.OfsPrefixResult : Prop :=
  ∀ s : State, s.initOk = true →
    let off := s.md.headerOffset.toNat
    (off = 0 ∨ 10 ≤ off → off ≤ s.rom.bufMax.toNat →
      ∃ t, exec .ofsPrefix s = .next t ∧
        (∀ a, t.outMem.read a =
          if a < off then
            some ([0x70#8, 0x68#8, 0x6f#8, 0x74#8, 0x6f#8, 0x73#8, 0x2e#8, 0x74#8, 0x61#8, 0x72#8].getD a 0#8)
          else none) ∧
        t.outLen = s.md.headerOffset ∧ EndsOk t) ∧
    (0 < off → off < 10 →
      ∃ t, exec .ofsPrefix s = .next t ∧ Reports t 3 0x43 off 10 ∧ UnchangedBut [.status] s t) ∧
    (10 ≤ off → s.rom.bufMax.toNat < off →
      ∃ t, exec .ofsPrefix s = .next t ∧ Reports t 3 0x44 off s.rom.bufMax.toNat ∧ UnchangedBut [.status] s t)

/-! ### Plaintext codec -/

/-- R226, R227: `IN`, taken as its segments between zero bytes, decodes to the non-empty ones in order, each cut at its
first `=`, when each of those holds an `=` and no key occurs twice. -/
def Obligations.PtDecodeResult : Prop :=
  ∀ (s : State) (segs : List (List Byte)), s.initOk = true → segs ≠ [] →
    (∀ seg ∈ segs, 0x00#8 ∉ seg) → s.inMem.bytes = joinNul segs → SegmentsOk segs →
    ∃ t, exec .ptDecode s = .next t ∧ t.ent = (segs.filter (fun seg => seg ≠ [])).map cutFirst ∧ EndsOk t

/-- R226, R227: the first offending segment is reported: without `=` as MalformedEntry with its offset and length, with a
key seen before as DuplicateKey with its offset and the index of the first entry with that key; the entry store stays. -/
def Obligations.PtDecodeErrors : Prop :=
  ∀ (s : State) (good : List (List Byte)) (bad : List Byte) (more : List (List Byte)), Inv s → s.initOk = true →
    (∀ seg ∈ good ++ bad :: more, 0x00#8 ∉ seg) → s.inMem.bytes = joinNul (good ++ bad :: more) →
    SegmentsOk good → bad ≠ [] →
    (0x3D#8 ∉ bad →
      ∃ t, exec .ptDecode s = .next t ∧ Reports t 1 0x06 (segOffset good) bad.length ∧ UnchangedBut [.status] s t) ∧
    (∀ (before : List (List Byte)) (first : List Byte) (after : List (List Byte)),
      0x3D#8 ∈ bad → good.filter (fun seg => seg ≠ []) = before ++ first :: after →
      (cutFirst first).key = (cutFirst bad).key →
      ∃ t, exec .ptDecode s = .next t ∧ Reports t 1 0x07 (segOffset good) before.length ∧
        UnchangedBut [.status] s t)

/-- R228, R229: `OUT` is each entry's `key=value` and a zero byte, in order, then `4 - (len mod 4)` zero bytes;
refused with LengthTooLarge and the limit when that exceeds `BUF_MAX`, and then nothing but the status is written. The
length is reported where it fits in an information word; what a longer one shows is a free value (assumption log 12).
Nothing about the entries is checked. -/
def Obligations.PtEncodeResult : Prop :=
  ∀ s : State, s.initOk = true →
    let body := s.ent.flatMap (fun e => e.key ++ [0x3D#8] ++ e.value ++ [0x00#8])
    let all := body ++ List.replicate (4 - body.length % 4) 0x00#8
    (all.length ≤ s.rom.bufMax.toNat →
      ∃ t, exec .ptEncode s = .next t ∧ (∀ a, t.outMem.read a = all[a]?) ∧ t.outLen.toNat = all.length ∧
        EndsOk t) ∧
    (s.rom.bufMax.toNat < all.length →
      ∃ t, exec .ptEncode s = .next t ∧ t.status = 0x00004403#32 ∧ t.info1 = s.rom.bufMax ∧
        (all.length < 2 ^ 64 → t.info0.toNat = all.length) ∧ UnchangedBut [.status] s t)

/-- R230, R232: an encoded plaintext has a length that is a positive multiple of 4 and ends in two zero bytes, and its
padding is 1 to 4 bytes. -/
def Obligations.EncodedPlaintextShape : Prop :=
  ∀ es : List Entry, ∃ body pad : List Byte,
    ptEncode es = body ++ pad ∧ body = es.flatMap entryBytes ∧ (∀ b ∈ pad, b = 0x00#8) ∧
    1 ≤ pad.length ∧ pad.length ≤ 4 ∧ (ptEncode es).length % 4 = 0 ∧ 4 ≤ (ptEncode es).length ∧
    (ptEncode es)[(ptEncode es).length - 1]? = some 0x00#8 ∧ (ptEncode es)[(ptEncode es).length - 2]? = some 0x00#8

/-- R231: entries with different keys, no `=` or zero byte in a key and no zero byte in a value decode back from their
encoding, in order, where it fits in `OUT`. A value may hold `=`. -/
def Obligations.PlaintextRoundTrip : Prop :=
  ∀ s t : State, s.initOk = true → EntriesClean s.ent → exec .ptEncode s = .next t → t.status = 0#32 →
    ∃ u, exec .ptDecode (t.setIn t.outMem.bytes) = .next u ∧ EndsOk u ∧ u.ent = s.ent

/-! ### Pipeline -/

/-- R254, R255: with the preconditions of R253 met, `OUT` is prefix, header and ciphertext: the marker and zeros up to the
header offset; the STATED magic, the length and the checksum of the plaintext; and the plaintext XORed with the keystream of
the REAL magic. The Header registers, `CK_ACC` and the family's registers are written. -/
def Obligations.EncryptResult : Prop :=
  ∀ s : State, s.initOk = true → s.inMem.wf = true →
    let off := s.md.headerOffset.toNat
    let n := s.inMem.length
    0 < n → n % 4 = 0 → n ≤ 2 ^ 32 - 4 → (off = 0 ∨ 10 ≤ off) → off + 12 + n ≤ s.rom.bufMax.toNat →
    ∃ t, exec .encrypt s = .next t ∧
      t.hdr.magic = s.md.stated ∧ t.hdr.length.toNat = n ∧
      (t.hdr.checksum.toNat + byteSum s.inMem.bytes) % 2 ^ 32 = 0xFFFFFFFF ∧ t.ckAcc = t.hdr.checksum ∧
      (∀ a, t.outMem.read a =
        if a < off then
          some ([0x70#8, 0x68#8, 0x6f#8, 0x74#8, 0x6f#8, 0x73#8, 0x2e#8, 0x74#8, 0x61#8, 0x72#8].getD a 0#8)
        else if a < off + 4 then some (BitVec.ofNat 8 (t.hdr.magic.toNat / 256 ^ (a - off)))
        else if a < off + 8 then some (BitVec.ofNat 8 (t.hdr.length.toNat / 256 ^ (a - off - 4)))
        else if a < off + 12 then some (BitVec.ofNat 8 (t.hdr.checksum.toNat / 256 ^ (a - off - 8)))
        else (s.inMem.read (a - off - 12)).map
          (fun b => b ^^^ keyByte s.rom s.md.family s.md.real (a - off - 12))) ∧
      t.outLen.toNat = off + 12 + n ∧
      (match genAfter (n / 4) (Gen.seed s.rom s.md.family s.md.real) with
       | .af x => s.md.family = .af ∧ t.af = x ∧ t.afValid = false ∧ t.lcS = s.lcS ∧ t.lcValid = s.lcValid
       | .lc x => s.md.family = .lc ∧ t.lcS = x ∧ t.lcValid = false ∧ t.af = s.af ∧ t.afValid = s.afValid) ∧
      EndsOk t

/-- R253: the five preconditions of `ENCRYPT` in their order; on any of them nothing but the status is written. The
information word of the fifth is stated where the file's length fits in 64 bits (assumption log 12). -/
def Obligations.EncryptErrors : Prop :=
  ∀ s : State, Inv s → s.initOk = true →
    let off := s.md.headerOffset.toNat
    let n := s.inMem.length
    (n = 0 → ∃ t, exec .encrypt s = .next t ∧ Reports t 3 0x40 0 0 ∧ UnchangedBut [.status] s t) ∧
    (n % 4 ≠ 0 → ∃ t, exec .encrypt s = .next t ∧ Reports t 3 0x41 n 0 ∧ UnchangedBut [.status] s t) ∧
    (n % 4 = 0 → 2 ^ 32 - 4 < n →
      ∃ t, exec .encrypt s = .next t ∧ Reports t 3 0x44 n (2 ^ 32 - 4) ∧ UnchangedBut [.status] s t) ∧
    (0 < n → n % 4 = 0 → n ≤ 2 ^ 32 - 4 → 0 < off → off < 10 →
      ∃ t, exec .encrypt s = .next t ∧ Reports t 3 0x43 off 10 ∧ UnchangedBut [.status] s t) ∧
    (0 < n → n % 4 = 0 → n ≤ 2 ^ 32 - 4 → (off = 0 ∨ 10 ≤ off) → s.rom.bufMax.toNat < off + 12 + n →
      ∃ t, exec .encrypt s = .next t ∧ t.status = 0x00004403#32 ∧ t.info1 = s.rom.bufMax ∧
        (off + 12 + n < 2 ^ 64 → t.info0.toNat = off + 12 + n) ∧ UnchangedBut [.status] s t)

/-- R275 (f), R247: the errors of `DECRYPT` before its first trial, in their order: the detector's, the parser's three, the
length limit. On any of them nothing but the status is written: no generator is seeded. -/
def Obligations.DecryptRejectsMalformed : Prop :=
  ∀ s : State, s.inMem.length < 2 ^ 64 → s.initOk = true →
    (∀ rest,
      s.inMem.bytes = [0x70#8, 0x68#8, 0x6f#8, 0x74#8, 0x6f#8, 0x73#8, 0x2e#8, 0x74#8, 0x61#8, 0x72#8] ++ rest →
      s.inMem.length < s.rom.containerOffset.toNat →
      ∃ t, exec .decrypt s = .next t ∧ Reports t 1 0x01 s.inMem.length s.rom.containerOffset.toNat ∧
        UnchangedBut [.status] s t) ∧
    (∀ off, ofsDetect s.rom s.inMem.bytes = .ok off →
      (s.inMem.length < off.toNat + 12 →
        ∃ t, exec .decrypt s = .next t ∧ Reports t 1 0x02 (s.inMem.length - off.toNat) 12 ∧
          UnchangedBut [.status] s t) ∧
      (∀ pre m l c payload : List Byte,
        s.inMem.bytes = pre ++ (m ++ l ++ c) ++ payload → pre.length = off.toNat →
        m.length = 4 → l.length = 4 → c.length = 4 →
        (leNumber l ≠ payload.length →
          ∃ t, exec .decrypt s = .next t ∧ Reports t 1 0x03 (leNumber l) payload.length ∧
            UnchangedBut [.status] s t) ∧
        (leNumber l = payload.length → payload.length % 4 ≠ 0 →
          ∃ t, exec .decrypt s = .next t ∧ Reports t 1 0x04 (leNumber l) 0 ∧ UnchangedBut [.status] s t) ∧
        (leNumber l = payload.length → payload.length % 4 = 0 → s.rom.bufMax.toNat < payload.length →
          ∃ t, exec .decrypt s = .next t ∧ Reports t 3 0x44 payload.length s.rom.bufMax.toNat ∧
            UnchangedBut [.status] s t)))

/-- R246, R247, R248: on a file that the detector and the parser accept and whose payload fits in `OUT`, `DECRYPT`
makes the trials of the plan in order and stops at the first whose plaintext sums with the header's checksum to
`0xFFFFFFFF`, or at the last. The Header and Metadata registers, `MR_HIT`, `OUT` and `CK_ACC` are that trial's; it
ends OK with `MD_VERIFIED = 1` when that trial settles, else with ChecksumError and `MD_VERIFIED = 0`. Every family
tried holds its generator after `L / 4` outputs with its valid flag clear; a family not tried is untouched. -/
def Obligations.DecryptResult : Prop :=
  ∀ (s : State) (off : DWord) (h : Header), s.initOk = true →
    ofsDetect s.rom s.inMem.bytes = .ok off → hdrParse (s.inMem.bytes.drop off.toNat) = .ok h →
    h.length.toNat ≤ s.rom.bufMax.toNat →
    let payload := s.inMem.bytes.drop (off.toNat + 12)
    let plain := fun x : Trial =>
      payload.zipIdx.map (fun y => y.1 ^^^ keyByte s.rom x.family x.real y.2)
    let acc := fun x : Trial => (h.checksum.toNat + byteSum (plain x)) % 2 ^ 32
    ∃ (t : State) (before : List Trial) (x : Trial) (after : List Trial),
      exec .decrypt s = .next t ∧ mrPlan s.rom h.magic = before ++ x :: after ∧
      (∀ y ∈ before, acc y ≠ 0xFFFFFFFF) ∧ (acc x = 0xFFFFFFFF ∨ after = []) ∧
      t.hdr = h ∧ t.md = ⟨off, h.magic, x.real, x.family⟩ ∧ t.mrHit = (mrLookup s.rom h.magic).1 ∧
      t.outMem = Memory.ofBytes (plain x) ∧ t.outLen = h.length.setWidth 64 ∧ t.ckAcc.toNat = acc x ∧
      (acc x = 0xFFFFFFFF → t.mdVerified = true ∧ EndsOk t) ∧
      (acc x ≠ 0xFFFFFFFF → t.mdVerified = false ∧ Reports t 2 0x20 (acc x) 0xFFFFFFFF) ∧
      (∀ g, (∃ y ∈ before ++ [x], y.family = g) →
        match g with
        | .af => t.afValid = false
        | .lc => t.lcValid = false) ∧
      (∀ y ∈ before ++ [x],
        match genAfter (h.length.toNat / 4) (Gen.seed s.rom y.family y.real) with
        | .af z => t.af = z
        | .lc z => t.lcS = z) ∧
      (∀ g, (∀ y ∈ before ++ [x], y.family ≠ g) →
        match g with
        | .af => t.af = s.af ∧ t.afValid = s.afValid
        | .lc => t.lcS = s.lcS ∧ t.lcValid = s.lcValid)

/-- R249: after a `DECRYPT` that ends OK the Metadata meet the source's invariant: the recorded family, seeded with
the recorded real magic, deciphers the payload to a plaintext whose sum with the header's checksum is `0xFFFFFFFF`; on
a hit they are the entry's values, on a miss the stated magic and the first family of the trial order whose checksum
verified, so where it is not the first of the order the first does not verify; and the header offset is 0 or
`CONTAINER_OFFSET`. -/
def Obligations.DecryptMetadataInvariant : Prop :=
  ∀ s t : State, s.initOk = true → exec .decrypt s = .next t → t.status = 0#32 →
    t.mdVerified = true ∧ t.md.stated = t.hdr.magic ∧
    (t.md.headerOffset = 0#64 ∨ t.md.headerOffset = s.rom.containerOffset) ∧
    (t.hdr.checksum.toNat +
      byteSum ((s.inMem.bytes.drop (t.md.headerOffset.toNat + 12)).zipIdx.map (fun y =>
        y.1 ^^^ keyByte s.rom t.md.family t.md.real y.2))) % 2 ^ 32 = 0xFFFFFFFF ∧
    (t.mrHit = true → ∃ e ∈ s.rom.ovrTable, e.key = t.md.stated ∧ t.md.real = e.real ∧ t.md.family = e.family) ∧
    (t.mrHit = false → (∀ e ∈ s.rom.ovrTable, e.key ≠ t.md.stated) ∧ t.md.real = t.md.stated ∧
      (t.md.family ≠ s.rom.trialFirst →
        (t.hdr.checksum.toNat +
          byteSum ((s.inMem.bytes.drop (t.md.headerOffset.toNat + 12)).zipIdx.map (fun y =>
            y.1 ^^^ keyByte s.rom s.rom.trialFirst t.md.stated y.2))) % 2 ^ 32 ≠ 0xFFFFFFFF))

/-- R257: a file that `ENCRYPT` made decrypts back to its plaintext and Metadata, when the offset is 0 or
`CONTAINER_OFFSET`, the keys of the table are unique, and either the stated magic is a key and the Metadata are that
entry's, or it is no key, the real magic is the stated one, and no family before the Metadata's in the trial order verifies by
coincidence. The Header registers then hold the stated magic, the length and the checksum. -/
def Obligations.DecryptUndoesEncrypt : Prop :=
  ∀ s t : State, Inv s → s.initOk = true → exec .encrypt s = .next t → t.status = 0#32 →
    (s.md.headerOffset = 0#64 ∨ s.md.headerOffset = s.rom.containerOffset) →
    (s.rom.ovrTable.map OvrEntry.key).Nodup →
    ((∃ e ∈ s.rom.ovrTable, e.key = s.md.stated ∧ s.md.real = e.real ∧ s.md.family = e.family) ∨
     ((∀ e ∈ s.rom.ovrTable, e.key ≠ s.md.stated) ∧ s.md.real = s.md.stated ∧
      (s.md.family ≠ s.rom.trialFirst →
        (t.hdr.checksum.toNat +
          byteSum (s.inMem.bytes.zipIdx.map (fun y =>
            (y.1 ^^^ keyByte s.rom s.md.family s.md.real y.2) ^^^
              keyByte s.rom s.rom.trialFirst s.md.stated y.2))) % 2 ^ 32 ≠ 0xFFFFFFFF))) →
    ∃ u, exec .decrypt (t.setIn t.outMem.bytes) = .next u ∧ EndsOk u ∧ u.mdVerified = true ∧
      u.outMem = s.inMem ∧ u.md = s.md ∧
      u.hdr.magic = s.md.stated ∧ u.hdr.length.toNat = s.inMem.length ∧ u.hdr.checksum = t.ckAcc

/-! ### Frames (R40) -/

/-- R40, the PRNG rows: what the four generator commands leave unchanged, however they end. All of memory is among it. -/
def Obligations.PrngFrame : Prop :=
  ∀ s t : State,
    (exec .afSeed s = .next t → UnchangedBut [.afRegs, .afValid, .status] s t) ∧
    (exec .afNext s = .next t → UnchangedBut [.afRegs, .rngOut, .status] s t) ∧
    (exec .lcSeed s = .next t → UnchangedBut [.lcReg, .lcValid, .status] s t) ∧
    (exec .lcNext s = .next t → UnchangedBut [.lcReg, .rngOut, .status] s t)

/-- R40: what the commands that store no byte leave unchanged, however they end: all of `IN` and `OUT`, and every register
but the ones named. `BLK_I` is the checksum pass's cursor (R30). -/
def Obligations.NonStoringFrame : Prop :=
  ∀ s t : State,
    (exec .hdrParse s = .next t → UnchangedBut [.hdrMagic, .hdrLength, .hdrChecksum, .status] s t) ∧
    (exec .ckVerify s = .next t → UnchangedBut [.ckAcc, .mdVerified, .blkI, .status] s t) ∧
    (exec .ckCalc s = .next t → UnchangedBut [.ckAcc, .hdrChecksum, .blkI, .status] s t) ∧
    (exec .mrLookup s = .next t → UnchangedBut [.mdStated, .mdReal, .mdFamily, .mrHit, .status] s t) ∧
    (exec .ofsDetect s = .next t → UnchangedBut [.mdHeaderOffset, .status] s t) ∧
    (exec .ptDecode s = .next t → UnchangedBut [.ent, .status] s t)

/-- R40: what the commands that write `OUT` leave unchanged, however they end. `OUT` is replaced whole (assumption log 13);
`IN` is never written. -/
def Obligations.StoringFrame : Prop :=
  ∀ s t : State,
    (exec .ksApply s = .next t →
      UnchangedBut [.outBuf, .blkI, .afRegs, .afValid, .lcReg, .lcValid, .status] s t ∧
      (s.md.family = .af → t.lcS = s.lcS ∧ t.lcValid = s.lcValid) ∧
      (s.md.family = .lc → t.af = s.af ∧ t.afValid = s.afValid)) ∧
    (exec .hdrSer s = .next t → UnchangedBut [.outBuf, .status] s t) ∧
    (exec .ofsPrefix s = .next t → UnchangedBut [.outBuf, .status] s t) ∧
    (exec .ptEncode s = .next t → UnchangedBut [.outBuf, .status] s t) ∧
    (exec .encrypt s = .next t →
      UnchangedBut [.outBuf, .blkI, .afRegs, .afValid, .lcReg, .lcValid, .hdrMagic, .hdrLength, .hdrChecksum, .ckAcc,
        .status] s t ∧
      (s.md.family = .af → t.lcS = s.lcS ∧ t.lcValid = s.lcValid) ∧
      (s.md.family = .lc → t.af = s.af ∧ t.afValid = s.afValid)) ∧
    (exec .decrypt s = .next t →
      UnchangedBut [.outBuf, .blkI, .afRegs, .afValid, .lcReg, .lcValid, .hdrMagic, .hdrLength, .hdrChecksum,
        .mdHeaderOffset, .mdStated, .mdReal, .mdFamily, .mrHit, .mdVerified, .ckAcc, .status] s t)

/-! ### The engines and their commands -/

/-- R123, R125, R129, R130, R131: the generator commands and the cipher run the same engines. What `AF.SEED` and
`LC.SEED` leave in the registers is the generator the cipher starts from with that family and seed; what `AF.NEXT` and
`LC.NEXT` put in `RNG_OUT` and leave in the registers is what the cipher takes as its next output and goes on with. -/
def Obligations.CipherRunsCommandEngines : Prop :=
  ∀ s : State, s.initOk = true →
    (∃ t, exec .afSeed s = .next t ∧ Gen.seed s.rom .af s.md.real = .af t.af) ∧
    (∃ t, exec .lcSeed s = .next t ∧ Gen.seed s.rom .lc s.md.real = .lc t.lcS) ∧
    (s.afValid = true → ∃ t, exec .afNext s = .next t ∧ Gen.next (.af s.af) = (t.rngOut, .af t.af)) ∧
    (s.lcValid = true → ∃ t, exec .lcNext s = .next t ∧ Gen.next (.lc s.lcS) = (t.rngOut, .lc t.lcS))
end

