-- ==== Sys2Proof/Laws/Memory.lean ====
section
/-! SUPPORT. What the buffer operations do: a buffer made from bytes holds exactly those bytes, is in canonical
form, and reads each of them at its offset. -/
namespace Sys2Proof.Machine

@[simp] theorem Memory.bytes_ofBytesFrom (a : Nat) (bs : List Byte) :
    (Memory.ofBytesFrom a bs).bytes = bs := by
  induction bs generalizing a with
  | nil => rfl
  | cons b bs ih => exact congrArg (b :: ·) (ih (a + 1))

@[simp] theorem Memory.bytes_ofBytes (bs : List Byte) : (Memory.ofBytes bs).bytes = bs :=
  Memory.bytes_ofBytesFrom 0 bs

@[simp] theorem Memory.length_bytes (m : Memory) : m.bytes.length = m.length := by
  simp [Memory.bytes]

@[simp] theorem Memory.length_ofBytes (bs : List Byte) : (Memory.ofBytes bs).length = bs.length := by
  rw [← Memory.length_bytes, Memory.bytes_ofBytes]

theorem Memory.read_ofBytesFrom (a : Nat) (bs : List Byte) (k : Nat) :
    (Memory.ofBytesFrom a bs).read k = if k < a then none else bs[k - a]? := by
  induction bs generalizing a with
  | nil => simp [Memory.ofBytesFrom, Memory.read]
  | cons b bs ih =>
    have ih := ih (a + 1)
    simp only [Memory.read] at ih
    by_cases h : k = a
    · subst h; simp [Memory.ofBytesFrom, Memory.read]
    · have hne : (k == a) = false := by simpa using h
      simp only [Memory.ofBytesFrom, Memory.read, List.lookup, hne, ih]
      by_cases hk : k < a
      · simp [hk, Nat.lt_succ_of_lt hk]
      · have : k - a = k - (a + 1) + 1 := by omega
        simp [hk, this, show ¬ k < a + 1 by omega]

/-- The byte read at an offset is the byte string's there; beyond its end there is none. -/
@[simp] theorem Memory.read_ofBytes (bs : List Byte) (a : Nat) :
    (Memory.ofBytes bs).read a = bs[a]? := by
  simp [Memory.ofBytes, Memory.read_ofBytesFrom]

@[simp] theorem Memory.read_nil (a : Nat) : Memory.read [] a = none := rfl

/-- Every buffer the machine makes is in canonical form. -/
@[simp] theorem Memory.ofBytes_wf (bs : List Byte) : (Memory.ofBytes bs).wf = true := by
  simp [Memory.wf]

@[simp] theorem Memory.nil_wf : Memory.wf [] = true := rfl

/-- A buffer in canonical form is the one made from its bytes. -/
theorem Memory.eq_ofBytes {m : Memory} (h : m.wf = true) : m = Memory.ofBytes m.bytes := by
  simpa [Memory.wf] using h

/-- In canonical form the byte read at an offset is that of the buffer's bytes. -/
theorem Memory.read_eq {m : Memory} (h : m.wf = true) (a : Nat) : m.read a = m.bytes[a]? := by
  rw [Memory.eq_ofBytes h]; simp

/-- Equal reads of two buffers in canonical form make them equal. -/
theorem Memory.ext_read {m n : Memory} (hm : m.wf = true) (hn : n.wf = true)
    (h : ∀ a, m.read a = n.read a) : m = n := by
  rw [Memory.eq_ofBytes hm, Memory.eq_ofBytes hn]
  congr 1
  apply List.ext_getElem?
  intro a
  rw [← Memory.read_eq hm, ← Memory.read_eq hn, h a]

theorem Memory.ofBytesFrom_above (a : Nat) (bs : List Byte) :
    ∀ c ∈ Memory.ofBytesFrom a bs, a ≤ c.1 := by
  induction bs generalizing a with
  | nil => simp [Memory.ofBytesFrom]
  | cons b bs ih =>
    intro c hc
    simp only [Memory.ofBytesFrom, List.mem_cons] at hc
    rcases hc with rfl | hc
    · exact Nat.le_refl _
    · exact Nat.le_of_succ_le (ih (a + 1) c hc)

/-- Canonical form means the addresses strictly rise. -/
theorem Memory.wf_rising {m : Memory} (h : m.wf = true) : m.Pairwise (fun c d => c.1 < d.1) := by
  rw [Memory.eq_ofBytes h]
  suffices ∀ a bs, (Memory.ofBytesFrom a bs).Pairwise (fun c d => c.1 < d.1) from this 0 _
  intro a bs
  induction bs generalizing a with
  | nil => exact List.Pairwise.nil
  | cons b bs ih =>
    exact List.Pairwise.cons (fun d hd => Memory.ofBytesFrom_above (a + 1) bs d hd) (ih (a + 1))

end Sys2Proof.Machine
end

