-- ==== Sys2Proof/Laws/State.lean ====
section
/-! SUPPORT. One lemma per field of State for every named update, all by unfolding, so that no later proof unfolds
a record update; and the fields of a reset. The parentheses of `(rfl)` make simp rewrite with each lemma and not by
definitional unfolding, so that the kernel never compares two whole states. -/
namespace Sys2Proof.Machine

section setAf
variable (s : State) (x : AfState)
@[simp] theorem State.setAf_af : (s.setAf x).af = x := (rfl)
@[simp] theorem State.setAf_afValid : (s.setAf x).afValid = s.afValid := (rfl)
@[simp] theorem State.setAf_lcS : (s.setAf x).lcS = s.lcS := (rfl)
@[simp] theorem State.setAf_lcValid : (s.setAf x).lcValid = s.lcValid := (rfl)
@[simp] theorem State.setAf_rngOut : (s.setAf x).rngOut = s.rngOut := (rfl)
@[simp] theorem State.setAf_md : (s.setAf x).md = s.md := (rfl)
@[simp] theorem State.setAf_hdr : (s.setAf x).hdr = s.hdr := (rfl)
@[simp] theorem State.setAf_ckAcc : (s.setAf x).ckAcc = s.ckAcc := (rfl)
@[simp] theorem State.setAf_blkI : (s.setAf x).blkI = s.blkI := (rfl)
@[simp] theorem State.setAf_mrHit : (s.setAf x).mrHit = s.mrHit := (rfl)
@[simp] theorem State.setAf_mdVerified : (s.setAf x).mdVerified = s.mdVerified := (rfl)
@[simp] theorem State.setAf_initOk : (s.setAf x).initOk = s.initOk := (rfl)
@[simp] theorem State.setAf_cmd : (s.setAf x).cmd = s.cmd := (rfl)
@[simp] theorem State.setAf_status : (s.setAf x).status = s.status := (rfl)
@[simp] theorem State.setAf_info0 : (s.setAf x).info0 = s.info0 := (rfl)
@[simp] theorem State.setAf_info1 : (s.setAf x).info1 = s.info1 := (rfl)
@[simp] theorem State.setAf_inMem : (s.setAf x).inMem = s.inMem := (rfl)
@[simp] theorem State.setAf_outMem : (s.setAf x).outMem = s.outMem := (rfl)
@[simp] theorem State.setAf_ent : (s.setAf x).ent = s.ent := (rfl)
@[simp] theorem State.setAf_rom : (s.setAf x).rom = s.rom := (rfl)
@[simp] theorem State.setAf_host : (s.setAf x).host = s.host := (rfl)
end setAf

section setAfValid
variable (s : State) (b : Bool)
@[simp] theorem State.setAfValid_af : (s.setAfValid b).af = s.af := (rfl)
@[simp] theorem State.setAfValid_afValid : (s.setAfValid b).afValid = b := (rfl)
@[simp] theorem State.setAfValid_lcS : (s.setAfValid b).lcS = s.lcS := (rfl)
@[simp] theorem State.setAfValid_lcValid : (s.setAfValid b).lcValid = s.lcValid := (rfl)
@[simp] theorem State.setAfValid_rngOut : (s.setAfValid b).rngOut = s.rngOut := (rfl)
@[simp] theorem State.setAfValid_md : (s.setAfValid b).md = s.md := (rfl)
@[simp] theorem State.setAfValid_hdr : (s.setAfValid b).hdr = s.hdr := (rfl)
@[simp] theorem State.setAfValid_ckAcc : (s.setAfValid b).ckAcc = s.ckAcc := (rfl)
@[simp] theorem State.setAfValid_blkI : (s.setAfValid b).blkI = s.blkI := (rfl)
@[simp] theorem State.setAfValid_mrHit : (s.setAfValid b).mrHit = s.mrHit := (rfl)
@[simp] theorem State.setAfValid_mdVerified : (s.setAfValid b).mdVerified = s.mdVerified := (rfl)
@[simp] theorem State.setAfValid_initOk : (s.setAfValid b).initOk = s.initOk := (rfl)
@[simp] theorem State.setAfValid_cmd : (s.setAfValid b).cmd = s.cmd := (rfl)
@[simp] theorem State.setAfValid_status : (s.setAfValid b).status = s.status := (rfl)
@[simp] theorem State.setAfValid_info0 : (s.setAfValid b).info0 = s.info0 := (rfl)
@[simp] theorem State.setAfValid_info1 : (s.setAfValid b).info1 = s.info1 := (rfl)
@[simp] theorem State.setAfValid_inMem : (s.setAfValid b).inMem = s.inMem := (rfl)
@[simp] theorem State.setAfValid_outMem : (s.setAfValid b).outMem = s.outMem := (rfl)
@[simp] theorem State.setAfValid_ent : (s.setAfValid b).ent = s.ent := (rfl)
@[simp] theorem State.setAfValid_rom : (s.setAfValid b).rom = s.rom := (rfl)
@[simp] theorem State.setAfValid_host : (s.setAfValid b).host = s.host := (rfl)
end setAfValid

section setLc
variable (s : State) (x : DWord)
@[simp] theorem State.setLc_af : (s.setLc x).af = s.af := (rfl)
@[simp] theorem State.setLc_afValid : (s.setLc x).afValid = s.afValid := (rfl)
@[simp] theorem State.setLc_lcS : (s.setLc x).lcS = x := (rfl)
@[simp] theorem State.setLc_lcValid : (s.setLc x).lcValid = s.lcValid := (rfl)
@[simp] theorem State.setLc_rngOut : (s.setLc x).rngOut = s.rngOut := (rfl)
@[simp] theorem State.setLc_md : (s.setLc x).md = s.md := (rfl)
@[simp] theorem State.setLc_hdr : (s.setLc x).hdr = s.hdr := (rfl)
@[simp] theorem State.setLc_ckAcc : (s.setLc x).ckAcc = s.ckAcc := (rfl)
@[simp] theorem State.setLc_blkI : (s.setLc x).blkI = s.blkI := (rfl)
@[simp] theorem State.setLc_mrHit : (s.setLc x).mrHit = s.mrHit := (rfl)
@[simp] theorem State.setLc_mdVerified : (s.setLc x).mdVerified = s.mdVerified := (rfl)
@[simp] theorem State.setLc_initOk : (s.setLc x).initOk = s.initOk := (rfl)
@[simp] theorem State.setLc_cmd : (s.setLc x).cmd = s.cmd := (rfl)
@[simp] theorem State.setLc_status : (s.setLc x).status = s.status := (rfl)
@[simp] theorem State.setLc_info0 : (s.setLc x).info0 = s.info0 := (rfl)
@[simp] theorem State.setLc_info1 : (s.setLc x).info1 = s.info1 := (rfl)
@[simp] theorem State.setLc_inMem : (s.setLc x).inMem = s.inMem := (rfl)
@[simp] theorem State.setLc_outMem : (s.setLc x).outMem = s.outMem := (rfl)
@[simp] theorem State.setLc_ent : (s.setLc x).ent = s.ent := (rfl)
@[simp] theorem State.setLc_rom : (s.setLc x).rom = s.rom := (rfl)
@[simp] theorem State.setLc_host : (s.setLc x).host = s.host := (rfl)
end setLc

section setLcValid
variable (s : State) (b : Bool)
@[simp] theorem State.setLcValid_af : (s.setLcValid b).af = s.af := (rfl)
@[simp] theorem State.setLcValid_afValid : (s.setLcValid b).afValid = s.afValid := (rfl)
@[simp] theorem State.setLcValid_lcS : (s.setLcValid b).lcS = s.lcS := (rfl)
@[simp] theorem State.setLcValid_lcValid : (s.setLcValid b).lcValid = b := (rfl)
@[simp] theorem State.setLcValid_rngOut : (s.setLcValid b).rngOut = s.rngOut := (rfl)
@[simp] theorem State.setLcValid_md : (s.setLcValid b).md = s.md := (rfl)
@[simp] theorem State.setLcValid_hdr : (s.setLcValid b).hdr = s.hdr := (rfl)
@[simp] theorem State.setLcValid_ckAcc : (s.setLcValid b).ckAcc = s.ckAcc := (rfl)
@[simp] theorem State.setLcValid_blkI : (s.setLcValid b).blkI = s.blkI := (rfl)
@[simp] theorem State.setLcValid_mrHit : (s.setLcValid b).mrHit = s.mrHit := (rfl)
@[simp] theorem State.setLcValid_mdVerified : (s.setLcValid b).mdVerified = s.mdVerified := (rfl)
@[simp] theorem State.setLcValid_initOk : (s.setLcValid b).initOk = s.initOk := (rfl)
@[simp] theorem State.setLcValid_cmd : (s.setLcValid b).cmd = s.cmd := (rfl)
@[simp] theorem State.setLcValid_status : (s.setLcValid b).status = s.status := (rfl)
@[simp] theorem State.setLcValid_info0 : (s.setLcValid b).info0 = s.info0 := (rfl)
@[simp] theorem State.setLcValid_info1 : (s.setLcValid b).info1 = s.info1 := (rfl)
@[simp] theorem State.setLcValid_inMem : (s.setLcValid b).inMem = s.inMem := (rfl)
@[simp] theorem State.setLcValid_outMem : (s.setLcValid b).outMem = s.outMem := (rfl)
@[simp] theorem State.setLcValid_ent : (s.setLcValid b).ent = s.ent := (rfl)
@[simp] theorem State.setLcValid_rom : (s.setLcValid b).rom = s.rom := (rfl)
@[simp] theorem State.setLcValid_host : (s.setLcValid b).host = s.host := (rfl)
end setLcValid

section setRngOut
variable (s : State) (x : Word)
@[simp] theorem State.setRngOut_af : (s.setRngOut x).af = s.af := (rfl)
@[simp] theorem State.setRngOut_afValid : (s.setRngOut x).afValid = s.afValid := (rfl)
@[simp] theorem State.setRngOut_lcS : (s.setRngOut x).lcS = s.lcS := (rfl)
@[simp] theorem State.setRngOut_lcValid : (s.setRngOut x).lcValid = s.lcValid := (rfl)
@[simp] theorem State.setRngOut_rngOut : (s.setRngOut x).rngOut = x := (rfl)
@[simp] theorem State.setRngOut_md : (s.setRngOut x).md = s.md := (rfl)
@[simp] theorem State.setRngOut_hdr : (s.setRngOut x).hdr = s.hdr := (rfl)
@[simp] theorem State.setRngOut_ckAcc : (s.setRngOut x).ckAcc = s.ckAcc := (rfl)
@[simp] theorem State.setRngOut_blkI : (s.setRngOut x).blkI = s.blkI := (rfl)
@[simp] theorem State.setRngOut_mrHit : (s.setRngOut x).mrHit = s.mrHit := (rfl)
@[simp] theorem State.setRngOut_mdVerified : (s.setRngOut x).mdVerified = s.mdVerified := (rfl)
@[simp] theorem State.setRngOut_initOk : (s.setRngOut x).initOk = s.initOk := (rfl)
@[simp] theorem State.setRngOut_cmd : (s.setRngOut x).cmd = s.cmd := (rfl)
@[simp] theorem State.setRngOut_status : (s.setRngOut x).status = s.status := (rfl)
@[simp] theorem State.setRngOut_info0 : (s.setRngOut x).info0 = s.info0 := (rfl)
@[simp] theorem State.setRngOut_info1 : (s.setRngOut x).info1 = s.info1 := (rfl)
@[simp] theorem State.setRngOut_inMem : (s.setRngOut x).inMem = s.inMem := (rfl)
@[simp] theorem State.setRngOut_outMem : (s.setRngOut x).outMem = s.outMem := (rfl)
@[simp] theorem State.setRngOut_ent : (s.setRngOut x).ent = s.ent := (rfl)
@[simp] theorem State.setRngOut_rom : (s.setRngOut x).rom = s.rom := (rfl)
@[simp] theorem State.setRngOut_host : (s.setRngOut x).host = s.host := (rfl)
end setRngOut

section setMd
variable (s : State) (x : Metadata)
@[simp] theorem State.setMd_af : (s.setMd x).af = s.af := (rfl)
@[simp] theorem State.setMd_afValid : (s.setMd x).afValid = s.afValid := (rfl)
@[simp] theorem State.setMd_lcS : (s.setMd x).lcS = s.lcS := (rfl)
@[simp] theorem State.setMd_lcValid : (s.setMd x).lcValid = s.lcValid := (rfl)
@[simp] theorem State.setMd_rngOut : (s.setMd x).rngOut = s.rngOut := (rfl)
@[simp] theorem State.setMd_md : (s.setMd x).md = x := (rfl)
@[simp] theorem State.setMd_hdr : (s.setMd x).hdr = s.hdr := (rfl)
@[simp] theorem State.setMd_ckAcc : (s.setMd x).ckAcc = s.ckAcc := (rfl)
@[simp] theorem State.setMd_blkI : (s.setMd x).blkI = s.blkI := (rfl)
@[simp] theorem State.setMd_mrHit : (s.setMd x).mrHit = s.mrHit := (rfl)
@[simp] theorem State.setMd_mdVerified : (s.setMd x).mdVerified = s.mdVerified := (rfl)
@[simp] theorem State.setMd_initOk : (s.setMd x).initOk = s.initOk := (rfl)
@[simp] theorem State.setMd_cmd : (s.setMd x).cmd = s.cmd := (rfl)
@[simp] theorem State.setMd_status : (s.setMd x).status = s.status := (rfl)
@[simp] theorem State.setMd_info0 : (s.setMd x).info0 = s.info0 := (rfl)
@[simp] theorem State.setMd_info1 : (s.setMd x).info1 = s.info1 := (rfl)
@[simp] theorem State.setMd_inMem : (s.setMd x).inMem = s.inMem := (rfl)
@[simp] theorem State.setMd_outMem : (s.setMd x).outMem = s.outMem := (rfl)
@[simp] theorem State.setMd_ent : (s.setMd x).ent = s.ent := (rfl)
@[simp] theorem State.setMd_rom : (s.setMd x).rom = s.rom := (rfl)
@[simp] theorem State.setMd_host : (s.setMd x).host = s.host := (rfl)
end setMd

section setHdr
variable (s : State) (x : Header)
@[simp] theorem State.setHdr_af : (s.setHdr x).af = s.af := (rfl)
@[simp] theorem State.setHdr_afValid : (s.setHdr x).afValid = s.afValid := (rfl)
@[simp] theorem State.setHdr_lcS : (s.setHdr x).lcS = s.lcS := (rfl)
@[simp] theorem State.setHdr_lcValid : (s.setHdr x).lcValid = s.lcValid := (rfl)
@[simp] theorem State.setHdr_rngOut : (s.setHdr x).rngOut = s.rngOut := (rfl)
@[simp] theorem State.setHdr_md : (s.setHdr x).md = s.md := (rfl)
@[simp] theorem State.setHdr_hdr : (s.setHdr x).hdr = x := (rfl)
@[simp] theorem State.setHdr_ckAcc : (s.setHdr x).ckAcc = s.ckAcc := (rfl)
@[simp] theorem State.setHdr_blkI : (s.setHdr x).blkI = s.blkI := (rfl)
@[simp] theorem State.setHdr_mrHit : (s.setHdr x).mrHit = s.mrHit := (rfl)
@[simp] theorem State.setHdr_mdVerified : (s.setHdr x).mdVerified = s.mdVerified := (rfl)
@[simp] theorem State.setHdr_initOk : (s.setHdr x).initOk = s.initOk := (rfl)
@[simp] theorem State.setHdr_cmd : (s.setHdr x).cmd = s.cmd := (rfl)
@[simp] theorem State.setHdr_status : (s.setHdr x).status = s.status := (rfl)
@[simp] theorem State.setHdr_info0 : (s.setHdr x).info0 = s.info0 := (rfl)
@[simp] theorem State.setHdr_info1 : (s.setHdr x).info1 = s.info1 := (rfl)
@[simp] theorem State.setHdr_inMem : (s.setHdr x).inMem = s.inMem := (rfl)
@[simp] theorem State.setHdr_outMem : (s.setHdr x).outMem = s.outMem := (rfl)
@[simp] theorem State.setHdr_ent : (s.setHdr x).ent = s.ent := (rfl)
@[simp] theorem State.setHdr_rom : (s.setHdr x).rom = s.rom := (rfl)
@[simp] theorem State.setHdr_host : (s.setHdr x).host = s.host := (rfl)
end setHdr

section setCkAcc
variable (s : State) (x : Word)
@[simp] theorem State.setCkAcc_af : (s.setCkAcc x).af = s.af := (rfl)
@[simp] theorem State.setCkAcc_afValid : (s.setCkAcc x).afValid = s.afValid := (rfl)
@[simp] theorem State.setCkAcc_lcS : (s.setCkAcc x).lcS = s.lcS := (rfl)
@[simp] theorem State.setCkAcc_lcValid : (s.setCkAcc x).lcValid = s.lcValid := (rfl)
@[simp] theorem State.setCkAcc_rngOut : (s.setCkAcc x).rngOut = s.rngOut := (rfl)
@[simp] theorem State.setCkAcc_md : (s.setCkAcc x).md = s.md := (rfl)
@[simp] theorem State.setCkAcc_hdr : (s.setCkAcc x).hdr = s.hdr := (rfl)
@[simp] theorem State.setCkAcc_ckAcc : (s.setCkAcc x).ckAcc = x := (rfl)
@[simp] theorem State.setCkAcc_blkI : (s.setCkAcc x).blkI = s.blkI := (rfl)
@[simp] theorem State.setCkAcc_mrHit : (s.setCkAcc x).mrHit = s.mrHit := (rfl)
@[simp] theorem State.setCkAcc_mdVerified : (s.setCkAcc x).mdVerified = s.mdVerified := (rfl)
@[simp] theorem State.setCkAcc_initOk : (s.setCkAcc x).initOk = s.initOk := (rfl)
@[simp] theorem State.setCkAcc_cmd : (s.setCkAcc x).cmd = s.cmd := (rfl)
@[simp] theorem State.setCkAcc_status : (s.setCkAcc x).status = s.status := (rfl)
@[simp] theorem State.setCkAcc_info0 : (s.setCkAcc x).info0 = s.info0 := (rfl)
@[simp] theorem State.setCkAcc_info1 : (s.setCkAcc x).info1 = s.info1 := (rfl)
@[simp] theorem State.setCkAcc_inMem : (s.setCkAcc x).inMem = s.inMem := (rfl)
@[simp] theorem State.setCkAcc_outMem : (s.setCkAcc x).outMem = s.outMem := (rfl)
@[simp] theorem State.setCkAcc_ent : (s.setCkAcc x).ent = s.ent := (rfl)
@[simp] theorem State.setCkAcc_rom : (s.setCkAcc x).rom = s.rom := (rfl)
@[simp] theorem State.setCkAcc_host : (s.setCkAcc x).host = s.host := (rfl)
end setCkAcc

section endPass
variable (s : State) (n : Nat)
@[simp] theorem State.endPass_af : (s.endPass n).af = s.af := (rfl)
@[simp] theorem State.endPass_afValid : (s.endPass n).afValid = s.afValid := (rfl)
@[simp] theorem State.endPass_lcS : (s.endPass n).lcS = s.lcS := (rfl)
@[simp] theorem State.endPass_lcValid : (s.endPass n).lcValid = s.lcValid := (rfl)
@[simp] theorem State.endPass_rngOut : (s.endPass n).rngOut = s.rngOut := (rfl)
@[simp] theorem State.endPass_md : (s.endPass n).md = s.md := (rfl)
@[simp] theorem State.endPass_hdr : (s.endPass n).hdr = s.hdr := (rfl)
@[simp] theorem State.endPass_ckAcc : (s.endPass n).ckAcc = s.ckAcc := (rfl)
@[simp] theorem State.endPass_blkI : (s.endPass n).blkI = BitVec.ofNat 64 n := (rfl)
@[simp] theorem State.endPass_mrHit : (s.endPass n).mrHit = s.mrHit := (rfl)
@[simp] theorem State.endPass_mdVerified : (s.endPass n).mdVerified = s.mdVerified := (rfl)
@[simp] theorem State.endPass_initOk : (s.endPass n).initOk = s.initOk := (rfl)
@[simp] theorem State.endPass_cmd : (s.endPass n).cmd = s.cmd := (rfl)
@[simp] theorem State.endPass_status : (s.endPass n).status = s.status := (rfl)
@[simp] theorem State.endPass_info0 : (s.endPass n).info0 = s.info0 := (rfl)
@[simp] theorem State.endPass_info1 : (s.endPass n).info1 = s.info1 := (rfl)
@[simp] theorem State.endPass_inMem : (s.endPass n).inMem = s.inMem := (rfl)
@[simp] theorem State.endPass_outMem : (s.endPass n).outMem = s.outMem := (rfl)
@[simp] theorem State.endPass_ent : (s.endPass n).ent = s.ent := (rfl)
@[simp] theorem State.endPass_rom : (s.endPass n).rom = s.rom := (rfl)
@[simp] theorem State.endPass_host : (s.endPass n).host = s.host := (rfl)
end endPass

section latch
variable (s : State) (c : Byte)
@[simp] theorem State.latch_af : (s.latch c).af = s.af := (rfl)
@[simp] theorem State.latch_afValid : (s.latch c).afValid = s.afValid := (rfl)
@[simp] theorem State.latch_lcS : (s.latch c).lcS = s.lcS := (rfl)
@[simp] theorem State.latch_lcValid : (s.latch c).lcValid = s.lcValid := (rfl)
@[simp] theorem State.latch_rngOut : (s.latch c).rngOut = s.rngOut := (rfl)
@[simp] theorem State.latch_md : (s.latch c).md = s.md := (rfl)
@[simp] theorem State.latch_hdr : (s.latch c).hdr = s.hdr := (rfl)
@[simp] theorem State.latch_ckAcc : (s.latch c).ckAcc = s.ckAcc := (rfl)
@[simp] theorem State.latch_blkI : (s.latch c).blkI = s.blkI := (rfl)
@[simp] theorem State.latch_mrHit : (s.latch c).mrHit = s.mrHit := (rfl)
@[simp] theorem State.latch_mdVerified : (s.latch c).mdVerified = s.mdVerified := (rfl)
@[simp] theorem State.latch_initOk : (s.latch c).initOk = s.initOk := (rfl)
@[simp] theorem State.latch_cmd : (s.latch c).cmd = c := (rfl)
@[simp] theorem State.latch_status : (s.latch c).status = s.status := (rfl)
@[simp] theorem State.latch_info0 : (s.latch c).info0 = s.info0 := (rfl)
@[simp] theorem State.latch_info1 : (s.latch c).info1 = s.info1 := (rfl)
@[simp] theorem State.latch_inMem : (s.latch c).inMem = s.inMem := (rfl)
@[simp] theorem State.latch_outMem : (s.latch c).outMem = s.outMem := (rfl)
@[simp] theorem State.latch_ent : (s.latch c).ent = s.ent := (rfl)
@[simp] theorem State.latch_rom : (s.latch c).rom = s.rom := (rfl)
@[simp] theorem State.latch_host : (s.latch c).host = s.host := (rfl)
end latch

section setMrHit
variable (s : State) (b : Bool)
@[simp] theorem State.setMrHit_af : (s.setMrHit b).af = s.af := (rfl)
@[simp] theorem State.setMrHit_afValid : (s.setMrHit b).afValid = s.afValid := (rfl)
@[simp] theorem State.setMrHit_lcS : (s.setMrHit b).lcS = s.lcS := (rfl)
@[simp] theorem State.setMrHit_lcValid : (s.setMrHit b).lcValid = s.lcValid := (rfl)
@[simp] theorem State.setMrHit_rngOut : (s.setMrHit b).rngOut = s.rngOut := (rfl)
@[simp] theorem State.setMrHit_md : (s.setMrHit b).md = s.md := (rfl)
@[simp] theorem State.setMrHit_hdr : (s.setMrHit b).hdr = s.hdr := (rfl)
@[simp] theorem State.setMrHit_ckAcc : (s.setMrHit b).ckAcc = s.ckAcc := (rfl)
@[simp] theorem State.setMrHit_blkI : (s.setMrHit b).blkI = s.blkI := (rfl)
@[simp] theorem State.setMrHit_mrHit : (s.setMrHit b).mrHit = b := (rfl)
@[simp] theorem State.setMrHit_mdVerified : (s.setMrHit b).mdVerified = s.mdVerified := (rfl)
@[simp] theorem State.setMrHit_initOk : (s.setMrHit b).initOk = s.initOk := (rfl)
@[simp] theorem State.setMrHit_cmd : (s.setMrHit b).cmd = s.cmd := (rfl)
@[simp] theorem State.setMrHit_status : (s.setMrHit b).status = s.status := (rfl)
@[simp] theorem State.setMrHit_info0 : (s.setMrHit b).info0 = s.info0 := (rfl)
@[simp] theorem State.setMrHit_info1 : (s.setMrHit b).info1 = s.info1 := (rfl)
@[simp] theorem State.setMrHit_inMem : (s.setMrHit b).inMem = s.inMem := (rfl)
@[simp] theorem State.setMrHit_outMem : (s.setMrHit b).outMem = s.outMem := (rfl)
@[simp] theorem State.setMrHit_ent : (s.setMrHit b).ent = s.ent := (rfl)
@[simp] theorem State.setMrHit_rom : (s.setMrHit b).rom = s.rom := (rfl)
@[simp] theorem State.setMrHit_host : (s.setMrHit b).host = s.host := (rfl)
end setMrHit

section setVerified
variable (s : State) (b : Bool)
@[simp] theorem State.setVerified_af : (s.setVerified b).af = s.af := (rfl)
@[simp] theorem State.setVerified_afValid : (s.setVerified b).afValid = s.afValid := (rfl)
@[simp] theorem State.setVerified_lcS : (s.setVerified b).lcS = s.lcS := (rfl)
@[simp] theorem State.setVerified_lcValid : (s.setVerified b).lcValid = s.lcValid := (rfl)
@[simp] theorem State.setVerified_rngOut : (s.setVerified b).rngOut = s.rngOut := (rfl)
@[simp] theorem State.setVerified_md : (s.setVerified b).md = s.md := (rfl)
@[simp] theorem State.setVerified_hdr : (s.setVerified b).hdr = s.hdr := (rfl)
@[simp] theorem State.setVerified_ckAcc : (s.setVerified b).ckAcc = s.ckAcc := (rfl)
@[simp] theorem State.setVerified_blkI : (s.setVerified b).blkI = s.blkI := (rfl)
@[simp] theorem State.setVerified_mrHit : (s.setVerified b).mrHit = s.mrHit := (rfl)
@[simp] theorem State.setVerified_mdVerified : (s.setVerified b).mdVerified = b := (rfl)
@[simp] theorem State.setVerified_initOk : (s.setVerified b).initOk = s.initOk := (rfl)
@[simp] theorem State.setVerified_cmd : (s.setVerified b).cmd = s.cmd := (rfl)
@[simp] theorem State.setVerified_status : (s.setVerified b).status = s.status := (rfl)
@[simp] theorem State.setVerified_info0 : (s.setVerified b).info0 = s.info0 := (rfl)
@[simp] theorem State.setVerified_info1 : (s.setVerified b).info1 = s.info1 := (rfl)
@[simp] theorem State.setVerified_inMem : (s.setVerified b).inMem = s.inMem := (rfl)
@[simp] theorem State.setVerified_outMem : (s.setVerified b).outMem = s.outMem := (rfl)
@[simp] theorem State.setVerified_ent : (s.setVerified b).ent = s.ent := (rfl)
@[simp] theorem State.setVerified_rom : (s.setVerified b).rom = s.rom := (rfl)
@[simp] theorem State.setVerified_host : (s.setVerified b).host = s.host := (rfl)
end setVerified

section setIn
variable (s : State) (bs : List Byte)
@[simp] theorem State.setIn_af : (s.setIn bs).af = s.af := (rfl)
@[simp] theorem State.setIn_afValid : (s.setIn bs).afValid = s.afValid := (rfl)
@[simp] theorem State.setIn_lcS : (s.setIn bs).lcS = s.lcS := (rfl)
@[simp] theorem State.setIn_lcValid : (s.setIn bs).lcValid = s.lcValid := (rfl)
@[simp] theorem State.setIn_rngOut : (s.setIn bs).rngOut = s.rngOut := (rfl)
@[simp] theorem State.setIn_md : (s.setIn bs).md = s.md := (rfl)
@[simp] theorem State.setIn_hdr : (s.setIn bs).hdr = s.hdr := (rfl)
@[simp] theorem State.setIn_ckAcc : (s.setIn bs).ckAcc = s.ckAcc := (rfl)
@[simp] theorem State.setIn_blkI : (s.setIn bs).blkI = s.blkI := (rfl)
@[simp] theorem State.setIn_mrHit : (s.setIn bs).mrHit = s.mrHit := (rfl)
@[simp] theorem State.setIn_mdVerified : (s.setIn bs).mdVerified = s.mdVerified := (rfl)
@[simp] theorem State.setIn_initOk : (s.setIn bs).initOk = s.initOk := (rfl)
@[simp] theorem State.setIn_cmd : (s.setIn bs).cmd = s.cmd := (rfl)
@[simp] theorem State.setIn_status : (s.setIn bs).status = s.status := (rfl)
@[simp] theorem State.setIn_info0 : (s.setIn bs).info0 = s.info0 := (rfl)
@[simp] theorem State.setIn_info1 : (s.setIn bs).info1 = s.info1 := (rfl)
@[simp] theorem State.setIn_inMem : (s.setIn bs).inMem = Memory.ofBytes bs := (rfl)
@[simp] theorem State.setIn_outMem : (s.setIn bs).outMem = s.outMem := (rfl)
@[simp] theorem State.setIn_ent : (s.setIn bs).ent = s.ent := (rfl)
@[simp] theorem State.setIn_rom : (s.setIn bs).rom = s.rom := (rfl)
@[simp] theorem State.setIn_host : (s.setIn bs).host = s.host := (rfl)
end setIn

section setOut
variable (s : State) (bs : List Byte)
@[simp] theorem State.setOut_af : (s.setOut bs).af = s.af := (rfl)
@[simp] theorem State.setOut_afValid : (s.setOut bs).afValid = s.afValid := (rfl)
@[simp] theorem State.setOut_lcS : (s.setOut bs).lcS = s.lcS := (rfl)
@[simp] theorem State.setOut_lcValid : (s.setOut bs).lcValid = s.lcValid := (rfl)
@[simp] theorem State.setOut_rngOut : (s.setOut bs).rngOut = s.rngOut := (rfl)
@[simp] theorem State.setOut_md : (s.setOut bs).md = s.md := (rfl)
@[simp] theorem State.setOut_hdr : (s.setOut bs).hdr = s.hdr := (rfl)
@[simp] theorem State.setOut_ckAcc : (s.setOut bs).ckAcc = s.ckAcc := (rfl)
@[simp] theorem State.setOut_blkI : (s.setOut bs).blkI = s.blkI := (rfl)
@[simp] theorem State.setOut_mrHit : (s.setOut bs).mrHit = s.mrHit := (rfl)
@[simp] theorem State.setOut_mdVerified : (s.setOut bs).mdVerified = s.mdVerified := (rfl)
@[simp] theorem State.setOut_initOk : (s.setOut bs).initOk = s.initOk := (rfl)
@[simp] theorem State.setOut_cmd : (s.setOut bs).cmd = s.cmd := (rfl)
@[simp] theorem State.setOut_status : (s.setOut bs).status = s.status := (rfl)
@[simp] theorem State.setOut_info0 : (s.setOut bs).info0 = s.info0 := (rfl)
@[simp] theorem State.setOut_info1 : (s.setOut bs).info1 = s.info1 := (rfl)
@[simp] theorem State.setOut_inMem : (s.setOut bs).inMem = s.inMem := (rfl)
@[simp] theorem State.setOut_outMem : (s.setOut bs).outMem = Memory.ofBytes bs := (rfl)
@[simp] theorem State.setOut_ent : (s.setOut bs).ent = s.ent := (rfl)
@[simp] theorem State.setOut_rom : (s.setOut bs).rom = s.rom := (rfl)
@[simp] theorem State.setOut_host : (s.setOut bs).host = s.host := (rfl)
end setOut

section setEnt
variable (s : State) (es : List Entry)
@[simp] theorem State.setEnt_af : (s.setEnt es).af = s.af := (rfl)
@[simp] theorem State.setEnt_afValid : (s.setEnt es).afValid = s.afValid := (rfl)
@[simp] theorem State.setEnt_lcS : (s.setEnt es).lcS = s.lcS := (rfl)
@[simp] theorem State.setEnt_lcValid : (s.setEnt es).lcValid = s.lcValid := (rfl)
@[simp] theorem State.setEnt_rngOut : (s.setEnt es).rngOut = s.rngOut := (rfl)
@[simp] theorem State.setEnt_md : (s.setEnt es).md = s.md := (rfl)
@[simp] theorem State.setEnt_hdr : (s.setEnt es).hdr = s.hdr := (rfl)
@[simp] theorem State.setEnt_ckAcc : (s.setEnt es).ckAcc = s.ckAcc := (rfl)
@[simp] theorem State.setEnt_blkI : (s.setEnt es).blkI = s.blkI := (rfl)
@[simp] theorem State.setEnt_mrHit : (s.setEnt es).mrHit = s.mrHit := (rfl)
@[simp] theorem State.setEnt_mdVerified : (s.setEnt es).mdVerified = s.mdVerified := (rfl)
@[simp] theorem State.setEnt_initOk : (s.setEnt es).initOk = s.initOk := (rfl)
@[simp] theorem State.setEnt_cmd : (s.setEnt es).cmd = s.cmd := (rfl)
@[simp] theorem State.setEnt_status : (s.setEnt es).status = s.status := (rfl)
@[simp] theorem State.setEnt_info0 : (s.setEnt es).info0 = s.info0 := (rfl)
@[simp] theorem State.setEnt_info1 : (s.setEnt es).info1 = s.info1 := (rfl)
@[simp] theorem State.setEnt_inMem : (s.setEnt es).inMem = s.inMem := (rfl)
@[simp] theorem State.setEnt_outMem : (s.setEnt es).outMem = s.outMem := (rfl)
@[simp] theorem State.setEnt_ent : (s.setEnt es).ent = es := (rfl)
@[simp] theorem State.setEnt_rom : (s.setEnt es).rom = s.rom := (rfl)
@[simp] theorem State.setEnt_host : (s.setEnt es).host = s.host := (rfl)
end setEnt

section setHost
variable (s : State) (ms : List HostMove)
@[simp] theorem State.setHost_af : (s.setHost ms).af = s.af := (rfl)
@[simp] theorem State.setHost_afValid : (s.setHost ms).afValid = s.afValid := (rfl)
@[simp] theorem State.setHost_lcS : (s.setHost ms).lcS = s.lcS := (rfl)
@[simp] theorem State.setHost_lcValid : (s.setHost ms).lcValid = s.lcValid := (rfl)
@[simp] theorem State.setHost_rngOut : (s.setHost ms).rngOut = s.rngOut := (rfl)
@[simp] theorem State.setHost_md : (s.setHost ms).md = s.md := (rfl)
@[simp] theorem State.setHost_hdr : (s.setHost ms).hdr = s.hdr := (rfl)
@[simp] theorem State.setHost_ckAcc : (s.setHost ms).ckAcc = s.ckAcc := (rfl)
@[simp] theorem State.setHost_blkI : (s.setHost ms).blkI = s.blkI := (rfl)
@[simp] theorem State.setHost_mrHit : (s.setHost ms).mrHit = s.mrHit := (rfl)
@[simp] theorem State.setHost_mdVerified : (s.setHost ms).mdVerified = s.mdVerified := (rfl)
@[simp] theorem State.setHost_initOk : (s.setHost ms).initOk = s.initOk := (rfl)
@[simp] theorem State.setHost_cmd : (s.setHost ms).cmd = s.cmd := (rfl)
@[simp] theorem State.setHost_status : (s.setHost ms).status = s.status := (rfl)
@[simp] theorem State.setHost_info0 : (s.setHost ms).info0 = s.info0 := (rfl)
@[simp] theorem State.setHost_info1 : (s.setHost ms).info1 = s.info1 := (rfl)
@[simp] theorem State.setHost_inMem : (s.setHost ms).inMem = s.inMem := (rfl)
@[simp] theorem State.setHost_outMem : (s.setHost ms).outMem = s.outMem := (rfl)
@[simp] theorem State.setHost_ent : (s.setHost ms).ent = s.ent := (rfl)
@[simp] theorem State.setHost_rom : (s.setHost ms).rom = s.rom := (rfl)
@[simp] theorem State.setHost_host : (s.setHost ms).host = ms := (rfl)
end setHost

section raise
variable (s : State) (e : Err)
@[simp] theorem State.raise_af : (s.raise e).af = s.af := (rfl)
@[simp] theorem State.raise_afValid : (s.raise e).afValid = s.afValid := (rfl)
@[simp] theorem State.raise_lcS : (s.raise e).lcS = s.lcS := (rfl)
@[simp] theorem State.raise_lcValid : (s.raise e).lcValid = s.lcValid := (rfl)
@[simp] theorem State.raise_rngOut : (s.raise e).rngOut = s.rngOut := (rfl)
@[simp] theorem State.raise_md : (s.raise e).md = s.md := (rfl)
@[simp] theorem State.raise_hdr : (s.raise e).hdr = s.hdr := (rfl)
@[simp] theorem State.raise_ckAcc : (s.raise e).ckAcc = s.ckAcc := (rfl)
@[simp] theorem State.raise_blkI : (s.raise e).blkI = s.blkI := (rfl)
@[simp] theorem State.raise_mrHit : (s.raise e).mrHit = s.mrHit := (rfl)
@[simp] theorem State.raise_mdVerified : (s.raise e).mdVerified = s.mdVerified := (rfl)
@[simp] theorem State.raise_initOk : (s.raise e).initOk = s.initOk := (rfl)
@[simp] theorem State.raise_cmd : (s.raise e).cmd = s.cmd := (rfl)
@[simp] theorem State.raise_status : (s.raise e).status = e.cause.status := (rfl)
@[simp] theorem State.raise_info0 : (s.raise e).info0 = e.info0 := (rfl)
@[simp] theorem State.raise_info1 : (s.raise e).info1 = e.info1 := (rfl)
@[simp] theorem State.raise_inMem : (s.raise e).inMem = s.inMem := (rfl)
@[simp] theorem State.raise_outMem : (s.raise e).outMem = s.outMem := (rfl)
@[simp] theorem State.raise_ent : (s.raise e).ent = s.ent := (rfl)
@[simp] theorem State.raise_rom : (s.raise e).rom = s.rom := (rfl)
@[simp] theorem State.raise_host : (s.raise e).host = s.host := (rfl)
end raise

section succeed
variable (s : State)
@[simp] theorem State.succeed_af : (s.succeed).af = s.af := (rfl)
@[simp] theorem State.succeed_afValid : (s.succeed).afValid = s.afValid := (rfl)
@[simp] theorem State.succeed_lcS : (s.succeed).lcS = s.lcS := (rfl)
@[simp] theorem State.succeed_lcValid : (s.succeed).lcValid = s.lcValid := (rfl)
@[simp] theorem State.succeed_rngOut : (s.succeed).rngOut = s.rngOut := (rfl)
@[simp] theorem State.succeed_md : (s.succeed).md = s.md := (rfl)
@[simp] theorem State.succeed_hdr : (s.succeed).hdr = s.hdr := (rfl)
@[simp] theorem State.succeed_ckAcc : (s.succeed).ckAcc = s.ckAcc := (rfl)
@[simp] theorem State.succeed_blkI : (s.succeed).blkI = s.blkI := (rfl)
@[simp] theorem State.succeed_mrHit : (s.succeed).mrHit = s.mrHit := (rfl)
@[simp] theorem State.succeed_mdVerified : (s.succeed).mdVerified = s.mdVerified := (rfl)
@[simp] theorem State.succeed_initOk : (s.succeed).initOk = s.initOk := (rfl)
@[simp] theorem State.succeed_cmd : (s.succeed).cmd = s.cmd := (rfl)
@[simp] theorem State.succeed_status : (s.succeed).status = statusOk := (rfl)
@[simp] theorem State.succeed_info0 : (s.succeed).info0 = 0 := (rfl)
@[simp] theorem State.succeed_info1 : (s.succeed).info1 = 0 := (rfl)
@[simp] theorem State.succeed_inMem : (s.succeed).inMem = s.inMem := (rfl)
@[simp] theorem State.succeed_outMem : (s.succeed).outMem = s.outMem := (rfl)
@[simp] theorem State.succeed_ent : (s.succeed).ent = s.ent := (rfl)
@[simp] theorem State.succeed_rom : (s.succeed).rom = s.rom := (rfl)
@[simp] theorem State.succeed_host : (s.succeed).host = s.host := (rfl)
end succeed

section resetAll
variable (s : State)
@[simp] theorem State.resetAll_af : s.resetAll.af = ⟨Vector.replicate 31 0#32, 0, 0⟩ := (rfl)
@[simp] theorem State.resetAll_afValid : s.resetAll.afValid = false := (rfl)
@[simp] theorem State.resetAll_lcS : s.resetAll.lcS = 0 := (rfl)
@[simp] theorem State.resetAll_lcValid : s.resetAll.lcValid = false := (rfl)
@[simp] theorem State.resetAll_rngOut : s.resetAll.rngOut = 0 := (rfl)
@[simp] theorem State.resetAll_md : s.resetAll.md = ⟨0, 0, 0, .af⟩ := (rfl)
@[simp] theorem State.resetAll_hdr : s.resetAll.hdr = ⟨0, 0, 0⟩ := (rfl)
@[simp] theorem State.resetAll_ckAcc : s.resetAll.ckAcc = 0 := (rfl)
@[simp] theorem State.resetAll_blkI : s.resetAll.blkI = 0 := (rfl)
@[simp] theorem State.resetAll_mrHit : s.resetAll.mrHit = false := (rfl)
@[simp] theorem State.resetAll_mdVerified : s.resetAll.mdVerified = false := (rfl)
@[simp] theorem State.resetAll_initOk : s.resetAll.initOk = (selfCheck s.rom.ovrTable).isNone := (rfl)
@[simp] theorem State.resetAll_cmd : s.resetAll.cmd = 0 := (rfl)
@[simp] theorem State.resetAll_status : s.resetAll.status = 0 := (rfl)
@[simp] theorem State.resetAll_info0 : s.resetAll.info0 = 0 := (rfl)
@[simp] theorem State.resetAll_info1 : s.resetAll.info1 = 0 := (rfl)
@[simp] theorem State.resetAll_inMem : s.resetAll.inMem = [] := (rfl)
@[simp] theorem State.resetAll_outMem : s.resetAll.outMem = [] := (rfl)
@[simp] theorem State.resetAll_ent : s.resetAll.ent = [] := (rfl)
@[simp] theorem State.resetAll_rom : s.resetAll.rom = s.rom := (rfl)
@[simp] theorem State.resetAll_host : s.resetAll.host = s.host := (rfl)
end resetAll

end Sys2Proof.Machine
end

