-- ==== Sys2Proof/Laws/Ops.lean ====
section
/-! SUPPORT. One lemma per shared operation, saying once everything it can do. -/
namespace Sys2Proof.Machine

/-! ### The end of a command -/

/-- With `INIT_OK = 1` a guarded command is its body. -/
theorem guarded_ready {s t : State} (h : s.initOk = true) : guarded s t = .next t := by
  simp [guarded, h]

/-- With `INIT_OK = 0` a guarded command is refused. -/
theorem guarded_refused {s t : State} (h : s.initOk = false) :
    guarded s t = .next (s.raise (Err.initFailed 0)) := by
  simp [guarded, h]

/-- If a guarded command answers `u`, either the block is ready and `u` is the body, or it is not and `u` reports
`InitFailed`. -/
theorem guarded_cases {s t u : State} (h : guarded s t = .next u) :
    (s.initOk = true ∧ u = t) ∨ (s.initOk = false ∧ u = s.raise (Err.initFailed 0)) := by
  cases hi : s.initOk with
  | true => rw [guarded_ready hi] at h; cases h; exact .inl ⟨rfl, rfl⟩
  | false => rw [guarded_refused hi] at h; cases h; exact .inr ⟨rfl, rfl⟩

theorem command_ok {s t : State} (h : s.initOk = true) : command s (.ok t) = .next t.succeed :=
  guarded_ready h

theorem command_error {s : State} {e : Err} (h : s.initOk = true) :
    command s (.error e) = .next (s.raise e) :=
  guarded_ready h

/-- If a command answers `u`, it ended well with the ports its pseudocode wrote, or it raised an error on the state
it began in. -/
theorem command_cases {s u : State} {r : Except Err State} (h : command s r = .next u) :
    (s.initOk = true ∧ ∃ t, r = .ok t ∧ u = t.succeed) ∨
    (s.initOk = true ∧ ∃ e, r = .error e ∧ u = s.raise e) ∨
    (s.initOk = false ∧ u = s.raise (Err.initFailed 0)) := by
  rcases guarded_cases h with ⟨hi, rfl⟩ | h
  · cases r with
    | ok t => exact .inl ⟨hi, t, rfl, rfl⟩
    | error e => exact .inr (.inl ⟨hi, e, rfl, rfl⟩)
  · exact .inr (.inr h)

/-! ### Writing `OUT` -/

theorem storeOut_fits {s : State} {n : Nat} {bs : List Byte} (h : n ≤ s.rom.bufMax.toNat) :
    s.storeOut n bs = .ok (s.setOut bs) := by
  simp [State.storeOut, Nat.not_lt.mpr h]

theorem storeOut_large {s : State} {n : Nat} {bs : List Byte} (h : s.rom.bufMax.toNat < n) :
    s.storeOut n bs = .error (Err.lengthTooLarge n s.rom.bufMax) := by
  simp [State.storeOut, h]

/-- A store to `OUT` replaces it, within `BUF_MAX`, and does nothing else; or it is refused as too large. -/
theorem storeOut_cases (s : State) (n : Nat) (bs : List Byte) :
    (n ≤ s.rom.bufMax.toNat ∧ s.storeOut n bs = .ok (s.setOut bs)) ∨
    (s.rom.bufMax.toNat < n ∧ s.storeOut n bs = .error (Err.lengthTooLarge n s.rom.bufMax)) := by
  rcases Nat.lt_or_ge s.rom.bufMax.toNat n with h | h
  · exact .inr ⟨h, storeOut_large h⟩
  · exact .inl ⟨h, storeOut_fits h⟩

/-! ### Status words -/

theorem infoWord_fits {n : Nat} (h : n < 2 ^ 64) : infoWord n = BitVec.ofNat 64 n := if_pos h

/-- A number that fits in an information word is reported as it is. -/
theorem infoWord_toNat {n : Nat} (h : n < 2 ^ 64) : (infoWord n).toNat = n := by
  rw [infoWord_fits h, BitVec.toNat_ofNat, Nat.mod_eq_of_lt h]

/-- The status word of a cause is its kind and code of R272, in their places. -/
theorem Cause.status_eq (c : Cause) :
    c.status = BitVec.ofNat 32 (c.kind.code.toNat + 256 * c.code.toNat) := rfl

/-- No error's status reads OK. -/
theorem raise_not_ok (s : State) (e : Err) : (s.raise e).status ≠ 0#32 := by
  rw [State.raise_status]
  cases e.cause <;> decide

/-- `ChecksumError` and `PreconditionError, LengthTooLarge` as status words. -/
@[simp] theorem checksumMismatch_status : Cause.checksumMismatch.status = 0x00002002#32 := by decide

@[simp] theorem lengthTooLarge_status : Cause.lengthTooLarge.status = 0x00004403#32 := by decide

/-! ### Steps -/

theorem step_idle {s : State} (h : s.host = []) : step s = .next s := by
  simp [step, h]

theorem step_move {s : State} {m : HostMove} {rest : List HostMove} (h : s.host = m :: rest) :
    step s = hostMove m (s.setHost rest) := by
  simp [step, h]

/-- A host write answers a state that differs in the port written, and fits what that port can hold. -/
theorem hostWrite_cases {w : HostWrite} {s t : State} (h : hostWrite w s = .next t) :
    (∃ bs, bs.length ≤ s.rom.bufMax.toNat ∧ t = s.setIn bs) ∨
    (∃ es, es.length < 2 ^ 64 ∧ t = s.setEnt es) ∨
    (∃ x, t = s.setMd x) ∨ (∃ x, t = s.setHdr x) := by
  cases w with
  | loadIn bs =>
    simp only [hostWrite] at h
    split at h
    · cases h
    · cases h; exact .inl ⟨bs, by omega, rfl⟩
  | loadEnt es =>
    simp only [hostWrite] at h
    split at h
    · cases h
    · cases h; exact .inr (.inl ⟨es, by omega, rfl⟩)
  | mdHeaderOffset v => cases h; exact .inr (.inr (.inl ⟨_, rfl⟩))
  | mdStated v => cases h; exact .inr (.inr (.inl ⟨_, rfl⟩))
  | mdReal v => cases h; exact .inr (.inr (.inl ⟨_, rfl⟩))
  | mdFamily v => cases h; exact .inr (.inr (.inl ⟨_, rfl⟩))
  | hdrMagic v => cases h; exact .inr (.inr (.inr ⟨_, rfl⟩))
  | hdrLength v => cases h; exact .inr (.inr (.inr ⟨_, rfl⟩))
  | hdrChecksum v => cases h; exact .inr (.inr (.inr ⟨_, rfl⟩))

/-- Issuing a code runs the command it decodes to, or ends as an illegal command. -/
theorem issue_cases (c : Byte) (s : State) :
    (∃ i, decodeCode c = .ok i ∧ issue c s = exec i (s.latch c)) ∨
    (decodeCode c = .error (.illegalCode c) ∧ issue c s = illegalCommand c (s.latch c)) := by
  unfold issue runCmd decode
  simp only [State.latch_cmd]
  unfold decodeCode
  cases List.lookup c opcodeMap with
  | some i => exact .inl ⟨i, rfl, rfl⟩
  | none => exact .inr ⟨rfl, rfl⟩

/-- Everything a step can be: idle, a host write, a command, an illegal code, or a reset. -/
theorem step_cases {s t : State} (h : step s = .next t) :
    (s.host = [] ∧ t = s) ∨
    (∃ w rest, s.host = .write w :: rest ∧ hostWrite w (s.setHost rest) = .next t) ∨
    (∃ c rest i, s.host = .command c :: rest ∧ decodeCode c = .ok i ∧
      exec i ((s.setHost rest).latch c) = .next t) ∨
    (∃ c rest, s.host = .command c :: rest ∧ decodeCode c = .error (.illegalCode c) ∧
      illegalCommand c ((s.setHost rest).latch c) = .next t) ∨
    (∃ rest, s.host = .reset :: rest ∧ t = (s.setHost rest).resetAll) := by
  cases hh : s.host with
  | nil => rw [step_idle hh] at h; cases h; exact .inl ⟨rfl, rfl⟩
  | cons m rest =>
    rw [step_move hh] at h
    cases m with
    | write w => exact .inr (.inl ⟨w, rest, rfl, h⟩)
    | command c =>
      rcases issue_cases c (s.setHost rest) with ⟨i, hd, hi⟩ | ⟨hd, hi⟩
      · exact .inr (.inr (.inl ⟨c, rest, i, rfl, hd, by rw [← hi]; exact h⟩))
      · exact .inr (.inr (.inr (.inl ⟨c, rest, rfl, hd, by rw [← hi]; exact h⟩)))
    | reset => cases h; exact .inr (.inr (.inr (.inr ⟨rest, rfl, rfl⟩)))

end Sys2Proof.Machine
end

