-- ==== Sys2Proof/Laws/Words.lean ====
section
/-! SUPPORT. What `LE32`, `PutLE32` and the split into blocks do: each undoes the other. -/
namespace Sys2Proof.Machine

theorem le32_toNat (b0 b1 b2 b3 : Byte) :
    (le32 b0 b1 b2 b3).toNat =
      b0.toNat + 256 * b1.toNat + 65536 * b2.toNat + 16777216 * b3.toNat := by
  have h0 := b0.isLt; have h1 := b1.isLt; have h2 := b2.isLt; have h3 := b3.isLt
  simp only [le32, BitVec.toNat_ofNat]
  omega

theorem extract_toNat (w : Word) (i : Nat) : (w.extractLsb' i 8).toNat = w.toNat / 2 ^ i % 256 := by
  simp [BitVec.extractLsb'_toNat, Nat.shiftRight_eq_div_pow]

/-- The four bytes of a word assemble to it. -/
@[simp] theorem le32_extract (w : Word) :
    le32 (w.extractLsb' 0 8) (w.extractLsb' 8 8) (w.extractLsb' 16 8) (w.extractLsb' 24 8) = w := by
  apply BitVec.eq_of_toNat_eq
  have := w.isLt
  simp only [le32_toNat, extract_toNat]
  omega

/-- The word of four bytes falls into them again. -/
@[simp] theorem putLE32_le32 (b0 b1 b2 b3 : Byte) : putLE32 (le32 b0 b1 b2 b3) = [b0, b1, b2, b3] := by
  have h0 := b0.isLt; have h1 := b1.isLt; have h2 := b2.isLt; have h3 := b3.isLt
  simp only [putLE32, List.cons.injEq, and_true]
  refine ⟨?_, ?_, ?_, ?_⟩ <;> apply BitVec.eq_of_toNat_eq <;>
    simp only [extract_toNat, le32_toNat] <;> omega

@[simp] theorem putLE32_length (w : Word) : (putLE32 w).length = 4 := rfl

/-- Byte `a` of a word laid out low byte first. -/
theorem putLE32_getElem? (w : Word) {a : Nat} (h : a < 4) :
    (putLE32 w)[a]? = some (BitVec.ofNat 8 (w.toNat / 256 ^ a)) := by
  have : a = 0 ∨ a = 1 ∨ a = 2 ∨ a = 3 := by omega
  rcases this with rfl | rfl | rfl | rfl <;>
    (simp only [putLE32]; simp; apply BitVec.eq_of_toNat_eq; rw [extract_toNat]; simp)

@[simp] theorem blocks_nil : blocks [] = [] := rfl

@[simp] theorem unblocks_nil : unblocks [] = [] := rfl

@[simp] theorem unblocks_cons (w : Word) (ws : List Word) : unblocks (w :: ws) = putLE32 w ++ unblocks ws := rfl

@[simp] theorem blocks_put (w : Word) (bs : List Byte) : blocks (putLE32 w ++ bs) = w :: blocks bs := by
  simp [putLE32, blocks]

@[simp] theorem blocks_unblocks (ws : List Word) : blocks (unblocks ws) = ws := by
  induction ws with
  | nil => rfl
  | cons w ws ih => simp [ih]

@[simp] theorem unblocks_length (ws : List Word) : (unblocks ws).length = 4 * ws.length := by
  induction ws with
  | nil => rfl
  | cons w ws ih => simp [ih]; omega

/-- The induction of byte strings whose length is a multiple of 4: four bytes at a time. -/
theorem aligned_induction {P : List Byte → Prop} (hnil : P [])
    (hcons : ∀ b0 b1 b2 b3 bs, bs.length % 4 = 0 → P bs → P (b0 :: b1 :: b2 :: b3 :: bs)) :
    ∀ bs : List Byte, bs.length % 4 = 0 → P bs
  | [], _ => hnil
  | [_], h => by simp at h
  | [_, _], h => by simp at h
  | [_, _, _], h => by simp at h
  | b0 :: b1 :: b2 :: b3 :: bs, h => by
    have h' : bs.length % 4 = 0 := by simp only [List.length_cons] at h; omega
    exact hcons _ _ _ _ _ h' (aligned_induction hnil hcons bs h')

/-- A byte string whose length is a multiple of 4 is made of its blocks. -/
theorem unblocks_blocks (bs : List Byte) (h : bs.length % 4 = 0) : unblocks (blocks bs) = bs := by
  refine aligned_induction (P := fun bs => unblocks (blocks bs) = bs) rfl (fun b0 b1 b2 b3 bs _ ih => ?_) bs h
  simp [blocks, ih]

theorem blocks_length (bs : List Byte) (h : bs.length % 4 = 0) : 4 * (blocks bs).length = bs.length := by
  rw [← unblocks_length, unblocks_blocks bs h]

@[simp] theorem blockAligned_iff (n : Nat) : blockAligned n = true ↔ n % 4 = 0 :=
  decide_eq_true_iff

theorem blockAligned_false (n : Nat) : blockAligned n = false ↔ n % 4 ≠ 0 :=
  decide_eq_false_iff_not

end Sys2Proof.Machine
end

