-- ==== Sys2Proof/Laws/Checksum.lean ====
section
/-! SUPPORT. The checksum passes in closed form (spec/43_checksum.md R185). -/
namespace Sys2Proof.Machine

/-- The sum of a list of blocks, wrapping. -/
def wordSum : List Word → Word
  | []      => 0
  | w :: ws => w + wordSum ws

theorem ckAccumulate_eq (c : Word) (p : List Byte) : ckAccumulate c p = c + wordSum (blocks p) := by
  unfold ckAccumulate
  generalize blocks p = ws
  induction ws generalizing c with
  | nil => simp [wordSum]
  | cons w ws ih => simp [wordSum, ih, BitVec.add_assoc]

theorem ckCalc_fold (c : Word) (ws : List Word) : ws.foldl (fun acc w => acc - w) c = c - wordSum ws := by
  induction ws generalizing c with
  | nil => simp [wordSum]
  | cons w ws ih =>
    simp only [List.foldl_cons, wordSum, ih]
    rw [BitVec.sub_sub]

/-- The byte-by-byte sum of a byte string that begins at offset `n`. -/
def byteSumFrom (n : Nat) (bs : List Byte) : Nat := ((bs.zipIdx n).map (fun x => x.1.toNat * 256 ^ (x.2 % 4))).sum

theorem byteSum_eq (bs : List Byte) : byteSum bs = byteSumFrom 0 bs := rfl

theorem byteSumFrom_cons (n : Nat) (b : Byte) (bs : List Byte) :
    byteSumFrom n (b :: bs) = b.toNat * 256 ^ (n % 4) + byteSumFrom (n + 1) bs := by
  simp only [byteSumFrom, List.zipIdx_cons, List.map_cons, List.sum_cons]

/-- The weights repeat every four offsets. -/
theorem byteSumFrom_four (n : Nat) (bs : List Byte) : byteSumFrom (n + 4) bs = byteSumFrom n bs := by
  induction bs generalizing n with
  | nil => rfl
  | cons b bs ih =>
    rw [byteSumFrom_cons, byteSumFrom_cons, Nat.add_mod_right, ← ih (n + 1), Nat.add_right_comm]

theorem four_weights (a b c d r : Nat) :
    a * 256 ^ 0 + (b * 256 ^ 1 + (c * 256 ^ 2 + (d * 256 ^ 3 + r))) =
      a + 256 * b + 65536 * c + 16777216 * d + r := by ring

/-- Four bytes add their word to the byte-by-byte sum. -/
theorem byteSum_cons4 (b0 b1 b2 b3 : Byte) (bs : List Byte) :
    byteSum (b0 :: b1 :: b2 :: b3 :: bs) = (le32 b0 b1 b2 b3).toNat + byteSum bs := by
  have weight : ∀ n k (b : Byte) bs, n % 4 = k →
      byteSumFrom n (b :: bs) = b.toNat * 256 ^ k + byteSumFrom (n + 1) bs := by
    rintro n _ b bs rfl
    exact byteSumFrom_cons n b bs
  rw [byteSum_eq, byteSum_eq, le32_toNat, weight 0 0 _ _ rfl, weight (0 + 1) 1 _ _ rfl,
    weight (0 + 1 + 1) 2 _ _ rfl, weight (0 + 1 + 1 + 1) 3 _ _ rfl, byteSumFrom_four 0 bs, four_weights]

/-- Modulo 2^32 the byte-by-byte sum of an aligned byte string is the sum of its blocks. -/
theorem byteSum_mod (p : List Byte) (h : p.length % 4 = 0) :
    byteSum p % 2 ^ 32 = (wordSum (blocks p)).toNat := by
  refine aligned_induction (P := fun p => byteSum p % 2 ^ 32 = (wordSum (blocks p)).toNat) rfl
    (fun b0 b1 b2 b3 bs _ ih => ?_) p h
  rw [byteSum_cons4, blocks, wordSum, BitVec.toNat_add, ← ih]
  omega

/-- The accumulator of a verification, as a number (R185). -/
theorem ckAccumulate_toNat (c : Word) (p : List Byte) (h : p.length % 4 = 0) :
    (ckAccumulate c p).toNat = (c.toNat + byteSum p) % 2 ^ 32 := by
  rw [ckAccumulate_eq, BitVec.toNat_add, ← byteSum_mod p h]
  omega

/-- Everything `ck_calc` can answer (R183, R185). -/
theorem ckCalc_cases (p : List Byte) :
    (p.length % 4 ≠ 0 ∧ ckCalc p = .error (Err.notBlockAligned p.length)) ∨
    (p.length % 4 = 0 ∧ ckCalc p = .ok (ckSentinel - wordSum (blocks p))) := by
  by_cases h : p.length % 4 = 0
  · exact .inr ⟨h, by simp [ckCalc, (blockAligned_iff p.length).mpr h, ckCalc_fold]⟩
  · exact .inl ⟨h, by simp [ckCalc, (blockAligned_false p.length).mpr h]⟩

/-- Everything `ck_verify` can answer (R181). -/
theorem ckVerify_cases (c : Word) (p : List Byte) :
    (p.length % 4 ≠ 0 ∧ ckVerify c p = .error (Err.notBlockAligned p.length)) ∨
    (p.length % 4 = 0 ∧ ckAccumulate c p = ckSentinel ∧ ckVerify c p = .ok (ckAccumulate c p)) ∨
    (p.length % 4 = 0 ∧ ckAccumulate c p ≠ ckSentinel ∧
      ckVerify c p = .error (Err.checksumMismatch (ckAccumulate c p))) := by
  by_cases h : p.length % 4 = 0
  · by_cases hs : ckAccumulate c p = ckSentinel
    · exact .inr (.inl ⟨h, hs, by simp [ckVerify, (blockAligned_iff p.length).mpr h, settled, hs]⟩)
    · exact .inr (.inr ⟨h, hs, by simp [ckVerify, (blockAligned_iff p.length).mpr h, settled, hs]⟩)
  · exact .inl ⟨h, by simp [ckVerify, (blockAligned_false p.length).mpr h]⟩

/-- Everything `CK.VERIFY` can do on a ready block (R182). -/
theorem execCkVerify_cases {s : State} (hi : s.initOk = true) :
    (s.opIn.length % 4 ≠ 0 ∧ execCkVerify s = .next (s.raise (Err.notBlockAligned s.opIn.length))) ∨
    (s.opIn.length % 4 = 0 ∧ ckAccumulate s.hdr.checksum s.opIn = ckSentinel ∧
      execCkVerify s = .next (s.endVerify s.opIn.length ckSentinel).succeed) ∨
    (s.opIn.length % 4 = 0 ∧ ckAccumulate s.hdr.checksum s.opIn ≠ ckSentinel ∧
      execCkVerify s = .next ((s.endVerify s.opIn.length (ckAccumulate s.hdr.checksum s.opIn)).raise
        (Err.checksumMismatch (ckAccumulate s.hdr.checksum s.opIn)))) := by
  unfold execCkVerify
  rw [guarded_ready hi]
  rcases ckVerify_cases s.hdr.checksum s.opIn with ⟨h, he⟩ | ⟨h, hs, he⟩ | ⟨h, hs, he⟩
  · exact .inl ⟨h, by rw [he]; rfl⟩
  · exact .inr (.inl ⟨h, hs, by rw [he, hs]⟩)
  · exact .inr (.inr ⟨h, hs, by rw [he]; rfl⟩)

end Sys2Proof.Machine
end

