-- ==== Sys2Proof/Laws/Prng.lean ====
section
/-! SUPPORT. What the two generators do, field by field, and where a generator's state is kept. -/
namespace Sys2Proof.Machine

/-! ### The additive-feedback generator -/

@[simp] theorem afNext_f (st : AfState) : (afNext st).2.f = st.f + 1 := rfl
@[simp] theorem afNext_b (st : AfState) : (afNext st).2.b = st.b + 1 := rfl
@[simp] theorem afNext_r (st : AfState) : (afNext st).2.r = st.r.set st.f (st.r[st.f] + st.r[st.b]) := rfl

/-- The output of a step is the new word shifted right logically by one (40_prng.md R124). -/
theorem afNext_out (st : AfState) : (afNext st).1 = (st.r[st.f] + st.r[st.b]) >>> 1 := by
  show (st.r[st.f] + st.r[st.b]).sshiftRight 1 &&& 0x7FFFFFFF#32 = _
  generalize st.r[st.f] + st.r[st.b] = w
  ext i hi
  simp only [BitVec.getElem_and, BitVec.getElem_sshiftRight, BitVec.getElem_ushiftRight]
  have : (0x7FFFFFFF#32)[i] = decide (i < 31) := by
    revert hi; revert i; decide
  rw [this]
  rcases Nat.lt_or_ge i 31 with h | h
  · simp [h, show 1 + i < 32 by omega]
  · have : i = 31 := by omega
    subst this; simp

/-- Every output of the additive-feedback generator is below 2^31 (R126 (d)). -/
theorem afNext_small (st : AfState) : (afNext st).1.toNat < 2 ^ 31 := by
  rw [afNext_out, BitVec.toNat_ushiftRight, Nat.shiftRight_eq_div_pow]
  have := (st.r[st.f] + st.r[st.b]).isLt
  omega

theorem afSteps_succ (n : Nat) (st : AfState) : afSteps (n + 1) st = (afNext (afSteps n st)).2 := by
  induction n generalizing st with
  | zero => rfl
  | succ n ih => exact ih (afNext st).2

/-- Both cursors advance by one modulo 31 on every step. -/
theorem afSteps_cursors (n : Nat) (st : AfState) :
    (afSteps n st).f.val = (st.f.val + n) % 31 ∧ (afSteps n st).b.val = (st.b.val + n) % 31 := by
  induction n with
  | zero => exact ⟨(Nat.mod_eq_of_lt st.f.isLt).symm, (Nat.mod_eq_of_lt st.b.isLt).symm⟩
  | succ n ih =>
    rw [afSteps_succ, afNext_f, afNext_b, Fin.val_add, Fin.val_add, ih.1, ih.2]
    constructor <;> simp <;> omega

/-! ### The linear-congruential generator -/

theorem lcNext_state (x : DWord) : (lcNext x).2.toNat = (6364136223846793005 * x.toNat + 1) % 2 ^ 64 := by
  simp only [lcNext, lcMul, lcInc, BitVec.toNat_add, BitVec.toNat_mul, BitVec.toNat_ofNat]
  omega

theorem lcNext_out (x : DWord) : (lcNext x).1.toNat = (lcNext x).2.toNat / 2 ^ 33 := by
  have h := (lcNext x).2.isLt
  show (((lcNext x).2 >>> 33).setWidth 32).toNat = _
  rw [BitVec.toNat_setWidth, BitVec.toNat_ushiftRight, Nat.shiftRight_eq_div_pow]
  omega

/-- Every output of the linear-congruential generator is below 2^31. -/
theorem lcNext_small (x : DWord) : (lcNext x).1.toNat < 2 ^ 31 := by
  rw [lcNext_out]
  have := (lcNext x).2.isLt
  omega

/-! ### Either generator -/

/-- Every output of either generator is below 2^31 (40_prng.md R131). -/
theorem Gen.next_small (g : Gen) : g.next.1.toNat < 2 ^ 31 := by
  cases g with
  | af st => exact afNext_small st
  | lc x => exact lcNext_small x

/-- The family a generator belongs to. -/
def Gen.family : Gen → Family
  | .af _ => .af
  | .lc _ => .lc

@[simp] theorem Gen.family_seed (rom : Config) (g : Family) (seed : Word) : (Gen.seed rom g seed).family = g := by
  cases g <;> rfl

@[simp] theorem Gen.family_next (g : Gen) : g.next.2.family = g.family := by
  cases g <;> rfl

@[simp] theorem State.putGen_af (s : State) (b : Bool) (x : AfState) :
    s.putGen b (.af x) = (s.setAf x).setAfValid b := rfl

@[simp] theorem State.putGen_lc (s : State) (b : Bool) (x : DWord) :
    s.putGen b (.lc x) = (s.setLc x).setLcValid b := rfl

end Sys2Proof.Machine
end

