-- ==== Sys2Proof/Laws/Cipher.lean ====
section
/-! SUPPORT. What a cipher pass does: block by block, byte by byte, to the generator, and twice over. -/
namespace Sys2Proof.Machine

@[simp] theorem genAfter_zero (g : Gen) : genAfter 0 g = g := rfl

@[simp] theorem genAfter_succ (k : Nat) (g : Gen) : genAfter (k + 1) g = genAfter k g.next.2 := rfl

@[simp] theorem genAfter_family (k : Nat) (g : Gen) : (genAfter k g).family = g.family := by
  induction k generalizing g with
  | zero => rfl
  | succ k ih => simp [ih]

@[simp] theorem ksBlocks_length (g : Gen) (ws : List Word) : (ksBlocks g ws).1.length = ws.length := by
  induction ws generalizing g with
  | nil => rfl
  | cons w ws ih => simp [ksBlocks, ih]

/-- A pass steps the generator once per block. -/
@[simp] theorem ksBlocks_gen (g : Gen) (ws : List Word) : (ksBlocks g ws).2 = genAfter ws.length g := by
  induction ws generalizing g with
  | nil => rfl
  | cons w ws ih => simp [ksBlocks, ih]

/-- Byte `j` of the keystream of a generator. -/
def genByte (g : Gen) (j : Nat) : Byte := ((genAfter (j / 4) g).next.1).extractLsb' (8 * (j % 4)) 8

theorem keyByte_eq (rom : Config) (g : Family) (seed : Word) (j : Nat) :
    keyByte rom g seed j = genByte (Gen.seed rom g seed) j := rfl

theorem genByte_add_four (g : Gen) (j : Nat) : genByte g (j + 4) = genByte g.next.2 j := by
  simp [genByte, show (j + 4) / 4 = j / 4 + 1 by omega]

/-- XORs a byte string with the keystream of a generator, byte by byte. -/
def xorKey (g : Gen) (bs : List Byte) : List Byte := bs.zipIdx.map (fun y => y.1 ^^^ genByte g y.2)

theorem xorKey_cons4 (g : Gen) (b0 b1 b2 b3 : Byte) (bs : List Byte) :
    xorKey g (b0 :: b1 :: b2 :: b3 :: bs) =
      (b0 ^^^ genByte g 0) :: (b1 ^^^ genByte g 1) :: (b2 ^^^ genByte g 2) :: (b3 ^^^ genByte g 3) ::
        xorKey g.next.2 bs := by
  have : ∀ (n : Nat) (bs : List Byte), (bs.zipIdx (n + 4)).map (fun y => y.1 ^^^ genByte g y.2) =
      (bs.zipIdx n).map (fun y => y.1 ^^^ genByte g.next.2 y.2) := by
    intro n bs
    induction bs generalizing n with
    | nil => rfl
    | cons b bs ih =>
      simp only [List.zipIdx_cons, List.map_cons, genByte_add_four]
      rw [← ih (n + 1)]
  simp only [xorKey, List.zipIdx_cons, List.map_cons]
  rw [← this 0 bs]

@[simp] theorem xorKey_nil (g : Gen) : xorKey g [] = [] := rfl

@[simp] theorem xorKey_length (g : Gen) (bs : List Byte) : (xorKey g bs).length = bs.length := by
  simp [xorKey]

theorem xorKey_getElem? (g : Gen) (bs : List Byte) (j : Nat) :
    (xorKey g bs)[j]? = bs[j]?.map (fun b => b ^^^ genByte g j) := by
  simp only [xorKey, List.getElem?_map, List.getElem?_zipIdx]
  cases bs[j]? <;> simp

theorem putLE32_xor (b0 b1 b2 b3 : Byte) (k : Word) :
    putLE32 (le32 b0 b1 b2 b3 ^^^ k) =
      [b0 ^^^ k.extractLsb' 0 8, b1 ^^^ k.extractLsb' 8 8, b2 ^^^ k.extractLsb' 16 8, b3 ^^^ k.extractLsb' 24 8] := by
  have h := putLE32_le32 b0 b1 b2 b3
  simp only [putLE32, List.cons.injEq, and_true] at h ⊢
  simp only [BitVec.extractLsb'_xor, h, and_self]

/-- The bytes of a pass over the blocks of a byte string are its bytes XORed with the keystream bytes. -/
theorem unblocks_ksBlocks (g : Gen) (bs : List Byte) (h : bs.length % 4 = 0) :
    unblocks (ksBlocks g (blocks bs)).1 = xorKey g bs := by
  revert g
  refine aligned_induction (P := fun bs => ∀ g, unblocks (ksBlocks g (blocks bs)).1 = xorKey g bs)
    (fun _ => rfl) (fun b0 b1 b2 b3 bs _ ih g => ?_) bs h
  simp [blocks, ksBlocks, xorKey_cons4, putLE32_xor, ih, genByte]

/-- XORing with the same keystream twice restores a byte string. -/
@[simp] theorem xorKey_twice (g : Gen) (bs : List Byte) : xorKey g (xorKey g bs) = bs := by
  apply List.ext_getElem?
  intro j
  simp only [xorKey_getElem?]
  cases bs[j]? <;> simp

/-- Everything `ks_apply` can answer (R151). -/
theorem ksApply_cases (rom : Config) (g : Family) (seed : Word) (L : Nat) (data : List Byte) :
    (L % 4 ≠ 0 ∧ ksApply rom g seed L data = .error (Err.notBlockAligned L)) ∨
    (L % 4 = 0 ∧ data.length < L ∧ ksApply rom g seed L data = .error (Err.cipherInputShort L data.length)) ∨
    (L % 4 = 0 ∧ L ≤ data.length ∧
      ksApply rom g seed L data =
        .ok (xorKey (Gen.seed rom g seed) (data.take L), genAfter (L / 4) (Gen.seed rom g seed))) := by
  by_cases h : L % 4 = 0
  · refine .inr ?_
    rcases Nat.lt_or_ge data.length L with hd | hd
    · exact .inl ⟨h, hd, by simp [ksApply, (blockAligned_iff L).mpr h, hd]⟩
    · refine .inr ⟨h, hd, ?_⟩
      have hl : (data.take L).length = L := by simp [hd]
      have hb : (blocks (data.take L)).length = L / 4 := by
        have := blocks_length (data.take L) (by rw [hl]; exact h)
        omega
      simp [ksApply, (blockAligned_iff L).mpr h, Nat.not_lt.mpr hd,
        unblocks_ksBlocks _ _ (show (data.take L).length % 4 = 0 by rw [hl]; exact h), hb]
  · exact .inl ⟨h, by simp [ksApply, (blockAligned_false L).mpr h]⟩

end Sys2Proof.Machine
end

