-- ==== Sys2Proof/Laws/Config.lean ====
section
/-! SUPPORT. The configuration of the block, whatever its OPEN parameters: it meets the constraints of
spec/00_scope.md R12; and what the self-check and a table lookup say of a table. -/
namespace Sys2Proof

theorem Config.addOverride_sub (t : List OvrEntry) (x : Word × Word × Family) :
    ∀ e ∈ t, e ∈ Config.addOverride t x := by
  intro e he
  unfold Config.addOverride
  split
  · exact he
  · exact List.mem_append_left _ he

theorem Config.addOverride_stated {t : List OvrEntry} (h : ∀ e ∈ t, e.key = e.stated) (x : Word × Word × Family) :
    ∀ e ∈ Config.addOverride t x, e.key = e.stated := by
  intro e he
  unfold Config.addOverride at he
  split at he
  · exact h e he
  · rcases List.mem_append.mp he with he | he
    · exact h e he
    · rw [List.mem_singleton.mp he]

theorem Config.addOverride_keys {t : List OvrEntry} (h : (t.map OvrEntry.key).Nodup) (x : Word × Word × Family) :
    ((Config.addOverride t x).map OvrEntry.key).Nodup := by
  unfold Config.addOverride
  split
  · exact h
  · rename_i hx
    rw [List.map_append, List.nodup_append]
    refine ⟨h, by simp, ?_⟩
    intro a ha b hb
    simp only [List.map_cons, List.map_nil, List.mem_singleton] at hb
    obtain ⟨e, he, rfl⟩ := List.mem_map.mp ha
    rintro rfl
    exact hx (List.any_eq_true.mpr ⟨e, he, by simpa using hb⟩)

/-- What adding overrides one after another keeps. -/
theorem Config.foldl_addOverride (P : List OvrEntry → Prop) (hP : ∀ t x, P t → P (Config.addOverride t x))
    (xs : List (Word × Word × Family)) : ∀ t, P t → P (xs.foldl Config.addOverride t) := by
  induction xs with
  | nil => exact fun _ h => h
  | cons x xs ih => exact fun t h => ih _ (hP t x h)

/-- The table of the block holds the override the spec states (44_magic_resolver.md R201). -/
theorem Config.chip_required : Config.requiredOverride ∈ Config.chip.ovrTable :=
  Config.foldl_addOverride (fun t => Config.requiredOverride ∈ t) (fun t x h => Config.addOverride_sub t x _ h) _ _
    (by simp)

/-- Its keys are unique (10_state.md R36). -/
theorem Config.chip_keys : (Config.chip.ovrTable.map OvrEntry.key).Nodup :=
  Config.foldl_addOverride (fun t => (t.map OvrEntry.key).Nodup) (fun _ x h => Config.addOverride_keys h x) _ _
    (by simp)

/-- Each of its keys is its entry's stated magic (R36). -/
theorem Config.chip_stated : ∀ e ∈ Config.chip.ovrTable, e.key = e.stated :=
  Config.foldl_addOverride (fun t => ∀ e ∈ t, e.key = e.stated) (fun _ x h => Config.addOverride_stated h x) _ _
    (by simp [Config.requiredOverride])

/-- Its container offset leaves room for the marker (R12). -/
theorem Config.chip_offset : 10 ≤ Config.chip.containerOffset.toNat := by
  show 10 ≤ (if Config.openContainerOffset < 10#64 then 10#64 else Config.openContainerOffset).toNat
  split
  · exact Nat.le_refl _
  · rename_i h; exact Nat.le_of_not_lt h

/-- The block's configuration is well-formed. -/
theorem Config.chip_wf : Config.chip.wf = true := by
  simp only [Config.wf, Config.offsetWf, Config.requiredWf, Config.keysWf, Config.statedWf, Bool.and_eq_true,
    decide_eq_true_eq, List.contains_iff_mem, List.all_eq_true, beq_iff_eq]
  exact ⟨⟨⟨Config.chip_offset, Config.chip_required⟩, Config.chip_keys⟩, Config.chip_stated⟩

namespace Machine

/-- The self-check passes exactly on a table each of whose keys is its entry's stated magic
(70_reset_and_hazards.md R312). -/
theorem selfCheck_none {table : List OvrEntry} : selfCheck table = none ↔ ∀ e ∈ table, e.key = e.stated := by
  simp [selfCheck, List.findIdx?_eq_none_iff]

/-- It fails with the index of the first entry that fails. -/
theorem selfCheck_some {good more : List OvrEntry} {bad : OvrEntry} (hg : ∀ e ∈ good, e.key = e.stated)
    (hb : bad.key ≠ bad.stated) : selfCheck (good ++ bad :: more) = some good.length := by
  induction good with
  | nil => simp [selfCheck, List.findIdx?_cons, hb]
  | cons g gs ih =>
    have ih := ih (fun e he => hg e (List.mem_cons_of_mem _ he))
    have h := hg g List.mem_cons_self
    unfold selfCheck at ih ⊢
    rw [List.cons_append, List.findIdx?_cons, ih]
    simp [h]

/-- In a table with unique keys, a lookup of an entry's key finds that entry. -/
theorem ovrFind_hit {rom : Config} {e : OvrEntry} (hk : (rom.ovrTable.map OvrEntry.key).Nodup)
    (he : e ∈ rom.ovrTable) : ovrFind rom e.key = some e := by
  unfold ovrFind
  revert hk he
  generalize rom.ovrTable = t
  intro hk he
  induction t with
  | nil => cases he
  | cons x t ih =>
    rw [List.map_cons, List.nodup_cons] at hk
    rcases List.mem_cons.mp he with rfl | he
    · simp
    · have hx : x.key ≠ e.key := fun h => hk.1 (h ▸ List.mem_map_of_mem he)
      rw [List.find?_cons_of_neg (by simpa using hx)]
      exact ih hk.2 he

/-- A lookup of a magic that is no key finds nothing. -/
theorem ovrFind_miss {rom : Config} {m : Word} (h : ∀ e ∈ rom.ovrTable, e.key ≠ m) : ovrFind rom m = none := by
  simpa [ovrFind, List.find?_eq_none] using h

/-- Everything a lookup can answer: an entry with that key, or there is none. -/
theorem ovrFind_cases (rom : Config) (m : Word) :
    (∃ e ∈ rom.ovrTable, e.key = m ∧ ovrFind rom m = some e) ∨
    ((∀ e ∈ rom.ovrTable, e.key ≠ m) ∧ ovrFind rom m = none) := by
  cases h : ovrFind rom m with
  | some e => exact .inl ⟨e, List.mem_of_find?_eq_some h, by simpa using List.find?_some h, rfl⟩
  | none => exact .inr ⟨by simpa [ovrFind, List.find?_eq_none] using h, rfl⟩

theorem mrLookup_hit {rom : Config} {m : Word} {e : OvrEntry} (h : ovrFind rom m = some e) :
    mrLookup rom m = (true, ⟨e.real, e.family⟩) := by
  simp [mrLookup, h]

theorem mrLookup_miss {rom : Config} {m : Word} (h : ovrFind rom m = none) :
    mrLookup rom m = (false, ⟨m, rom.trialFirst⟩) := by
  simp [mrLookup, h]

/-- On a hit the plan is one trial (44_magic_resolver.md R198). -/
theorem mrPlan_hit {rom : Config} {m : Word} {e : OvrEntry} (h : ovrFind rom m = some e) :
    mrPlan rom m = [⟨e.real, e.family⟩] := by
  simp [mrPlan, mrRetries, mrLookup, h]

/-- On a miss the plan is the stated magic with each family, in the order of `TRIAL_ORDER` (R198). -/
theorem mrPlan_miss {rom : Config} {m : Word} (h : ovrFind rom m = none) :
    mrPlan rom m = [⟨m, rom.trialFirst⟩, ⟨m, rom.trialFirst.other⟩] := by
  simp [mrPlan, mrRetries, mrLookup, Config.trialOrder, h]

end Machine
end Sys2Proof
end

