-- ==== Sys2Proof/Laws/Offset.lean ====
section
/-! SUPPORT. What the container offset detector and the prefix generator can answer (spec/45_offset_detector.md). -/
namespace Sys2Proof.Machine

/-- Everything the detector can answer (R210). -/
theorem ofsDetect_cases (rom : Config) (file : List Byte) :
    (file.take 10 = marker ∧ file.length < rom.containerOffset.toNat ∧
      ofsDetect rom file = .error (Err.containerTooShort file.length rom.containerOffset)) ∨
    (file.take 10 = marker ∧ rom.containerOffset.toNat ≤ file.length ∧
      ofsDetect rom file = .ok rom.containerOffset) ∨
    (file.take 10 ≠ marker ∧ ofsDetect rom file = .ok 0) := by
  have h10 : marker.length = 10 := rfl
  unfold ofsDetect
  rw [h10]
  by_cases hm : file.take 10 = marker
  · by_cases hl : file.length < rom.containerOffset.toNat
    · exact .inl ⟨hm, hl, by simp [hm, hl]⟩
    · exact .inr (.inl ⟨hm, Nat.le_of_not_lt hl, by simp [hm, hl]⟩)
  · exact .inr (.inr ⟨hm, by simp [hm]⟩)

theorem badOffset_iff (off : DWord) : badOffset off = true ↔ 0 < off.toNat ∧ off.toNat < 10 := by
  simp [badOffset, BitVec.lt_def]

theorem badOffset_false (off : DWord) : badOffset off = false ↔ off.toNat = 0 ∨ 10 ≤ off.toNat := by
  have := badOffset_iff off
  cases h : badOffset off with
  | true => have := this.mp h; simp; omega
  | false => have := mt this.mpr (by simp [h]); simp; omega

/-- Everything the prefix generator can answer (R212). -/
theorem ofsPrefix_cases (off : DWord) :
    (0 < off.toNat ∧ off.toNat < 10 ∧ ofsPrefix off = .error (Err.badHeaderOffset off)) ∨
    ((off.toNat = 0 ∨ 10 ≤ off.toNat) ∧ ofsPrefix off = .ok (ofsFiller off)) := by
  cases h : badOffset off with
  | true => obtain ⟨h1, h2⟩ := (badOffset_iff off).mp h; exact .inl ⟨h1, h2, by simp [ofsPrefix, h]⟩
  | false => exact .inr ⟨(badOffset_false off).mp h, by simp [ofsPrefix, h]⟩

/-- The prefix has as many bytes as the header offset says (R212). -/
theorem ofsFiller_length {off : DWord} (h : off.toNat = 0 ∨ 10 ≤ off.toNat) : (ofsFiller off).length = off.toNat := by
  unfold ofsFiller
  split
  · rename_i h0; simp [h0]
  · rename_i h0
    have : off.toNat ≠ 0 := fun h => h0 (BitVec.eq_of_toNat_eq h)
    simp [marker]; omega

/-- It is the marker, then zeros. -/
theorem ofsFiller_getElem? {off : DWord} (h : off.toNat = 0 ∨ 10 ≤ off.toNat) (a : Nat) :
    (ofsFiller off)[a]? = if a < off.toNat then some (marker.getD a 0#8) else none := by
  have h10 : marker.length = 10 := rfl
  unfold ofsFiller
  split
  · rename_i h0; simp [h0]
  · rename_i h0
    have : off.toNat ≠ 0 := fun h => h0 (BitVec.eq_of_toNat_eq h)
    rcases Nat.lt_or_ge a 10 with ha | ha
    · rw [List.getElem?_append_left (by omega), if_pos (by omega), List.getD_eq_getElem?_getD,
        List.getElem?_eq_getElem (by omega)]
      rfl
    · rw [List.getElem?_append_right (by omega), List.getElem?_replicate, h10, List.getD_eq_getElem?_getD,
        List.getElem?_eq_none (by omega)]
      by_cases hb : a < off.toNat
      · rw [if_pos (by omega), if_pos hb]; rfl
      · rw [if_neg (by omega), if_neg hb]

/-- A prefix that is not empty begins with the marker. -/
theorem ofsFiller_take {off : DWord} (h : 10 ≤ off.toNat) (rest : List Byte) :
    (ofsFiller off ++ rest).take 10 = marker := by
  have h0 : off ≠ 0#64 := fun h0 => by simp [h0] at h
  simp [ofsFiller, h0, marker]

end Sys2Proof.Machine
end

