-- ==== Sys2Proof/Laws/Frames.lean ====
section
/-! SUPPORT. The calculus of "unchanged but for these ports", and the frame of each named update of State. -/
namespace Sys2Proof.Machine

/-! ### Ports -/

theorem Port.same_refl (p : Port) (s : State) : p.same s s := by
  cases p <;> simp [Port.same]

theorem Port.same_trans {p : Port} {s t u : State} (h : p.same s t) (h' : p.same t u) : p.same s u := by
  cases p <;> simp_all [Port.same]

theorem UnchangedBut.refl (ps : List Port) (s : State) : UnchangedBut ps s s := fun p _ => Port.same_refl p s

theorem UnchangedBut.trans {ps : List Port} {s t u : State} (h : UnchangedBut ps s t) (h' : UnchangedBut ps t u) :
    UnchangedBut ps s u := fun p hp => Port.same_trans (h p hp) (h' p hp)

/-- A frame that names fewer ports is stronger. -/
theorem UnchangedBut.mono {ps qs : List Port} {s t : State} (h : UnchangedBut ps s t) (hs : ∀ p ∈ ps, p ∈ qs) :
    UnchangedBut qs s t := fun p hp => h p (fun hm => hp (hs p hm))

/-- A frame over the ports two frames name between them. -/
theorem UnchangedBut.append {ps qs : List Port} {s t u : State} (h : UnchangedBut ps s t) (h' : UnchangedBut qs t u) :
    UnchangedBut (ps ++ qs) s u :=
  (h.mono (fun _ hp => List.mem_append_left _ hp)).trans (h'.mono (fun _ hp => List.mem_append_right _ hp))

/-- Two states that agree on every port outside the list, given port by port. -/
theorem UnchangedBut.of_all {ps : List Port} {s t : State}
    (h : ∀ p : Port, ps.contains p = true ∨ p.same s t) : UnchangedBut ps s t := by
  intro p hp
  rcases h p with h | h
  · exact absurd (List.contains_iff_mem.mp h) hp
  · exact h

/-! ### Named updates -/

section updates
variable (s : State)

theorem frame_setAf (x : AfState) : UnchangedBut [.afRegs] s (s.setAf x) := by
  refine .of_all fun p => ?_; cases p <;> simp [Port.same, State.inLen, State.outLen]

theorem frame_setAfValid (x : Bool) : UnchangedBut [.afValid] s (s.setAfValid x) := by
  refine .of_all fun p => ?_; cases p <;> simp [Port.same, State.inLen, State.outLen]

theorem frame_setLc (x : DWord) : UnchangedBut [.lcReg] s (s.setLc x) := by
  refine .of_all fun p => ?_; cases p <;> simp [Port.same, State.inLen, State.outLen]

theorem frame_setLcValid (x : Bool) : UnchangedBut [.lcValid] s (s.setLcValid x) := by
  refine .of_all fun p => ?_; cases p <;> simp [Port.same, State.inLen, State.outLen]

theorem frame_setRngOut (x : Word) : UnchangedBut [.rngOut] s (s.setRngOut x) := by
  refine .of_all fun p => ?_; cases p <;> simp [Port.same, State.inLen, State.outLen]

theorem frame_setMd (x : Metadata) :
    UnchangedBut [.mdHeaderOffset, .mdStated, .mdReal, .mdFamily] s (s.setMd x) := by
  refine .of_all fun p => ?_; cases p <;> simp [Port.same, State.inLen, State.outLen]

theorem frame_setHdr (x : Header) : UnchangedBut [.hdrMagic, .hdrLength, .hdrChecksum] s (s.setHdr x) := by
  refine .of_all fun p => ?_; cases p <;> simp [Port.same, State.inLen, State.outLen]

theorem frame_setCkAcc (x : Word) : UnchangedBut [.ckAcc] s (s.setCkAcc x) := by
  refine .of_all fun p => ?_; cases p <;> simp [Port.same, State.inLen, State.outLen]

theorem frame_setMrHit (x : Bool) : UnchangedBut [.mrHit] s (s.setMrHit x) := by
  refine .of_all fun p => ?_; cases p <;> simp [Port.same, State.inLen, State.outLen]

theorem frame_setVerified (x : Bool) : UnchangedBut [.mdVerified] s (s.setVerified x) := by
  refine .of_all fun p => ?_; cases p <;> simp [Port.same, State.inLen, State.outLen]

theorem frame_endPass (n : Nat) : UnchangedBut [.blkI] s (s.endPass n) := by
  refine .of_all fun p => ?_; cases p <;> simp [Port.same, State.inLen, State.outLen]

theorem frame_setOut (bs : List Byte) : UnchangedBut [.outBuf] s (s.setOut bs) := by
  refine .of_all fun p => ?_; cases p <;> simp [Port.same, State.inLen, State.outLen]

theorem frame_setIn (bs : List Byte) : UnchangedBut [.inBuf] s (s.setIn bs) := by
  refine .of_all fun p => ?_; cases p <;> simp [Port.same, State.inLen, State.outLen]

theorem frame_setEnt (es : List Entry) : UnchangedBut [.ent] s (s.setEnt es) := by
  refine .of_all fun p => ?_; cases p <;> simp [Port.same, State.inLen, State.outLen]

theorem frame_setHost (ms : List HostMove) : UnchangedBut [.host] s (s.setHost ms) := by
  refine .of_all fun p => ?_; cases p <;> simp [Port.same, State.inLen, State.outLen]

theorem frame_latch (c : Byte) : UnchangedBut [.cmd] s (s.latch c) := by
  refine .of_all fun p => ?_; cases p <;> simp [Port.same, State.inLen, State.outLen]

/-- Raising an error writes the status ports and nothing else (60_exceptions.md R285). -/
theorem frame_raise (e : Err) : UnchangedBut [.status] s (s.raise e) := by
  refine .of_all fun p => ?_; cases p <;> simp [Port.same, State.inLen, State.outLen]

theorem frame_succeed : UnchangedBut [.status] s s.succeed := by
  refine .of_all fun p => ?_; cases p <;> simp [Port.same, State.inLen, State.outLen]

/-- The registers of a generator's family. -/
def Gen.ports : Gen → List Port
  | .af _ => [.afRegs, .afValid]
  | .lc _ => [.lcReg, .lcValid]

/-- Keeping a generator writes the registers of its family alone. -/
theorem frame_putGen (b : Bool) (g : Gen) : UnchangedBut g.ports s (s.putGen b g) := by
  cases g with
  | af x => exact (frame_setAf s x).append (frame_setAfValid _ b)
  | lc x => exact (frame_setLc s x).append (frame_setLcValid _ b)

/-- The end of a cipher pass writes those and the block cursor (41_keystream_cipher.md R154). -/
theorem frame_endCipher (n : Nat) (g : Gen) : UnchangedBut (g.ports ++ [.blkI]) s (s.endCipher n g) :=
  (frame_putGen s false g).append (frame_endPass _ n)

/-- The end of a verification (43_checksum.md R182). -/
theorem frame_endVerify (n : Nat) (acc : Word) :
    UnchangedBut [.ckAcc, .mdVerified, .blkI] s (s.endVerify n acc) :=
  ((frame_setCkAcc s acc).append (frame_setVerified _ _)).append (frame_endPass _ n)

end updates

/-! ### Reports -/

/-- A command that ends well reports so (60_exceptions.md R286). -/
theorem endsOk_succeed (s : State) : EndsOk s.succeed := ⟨rfl, rfl, rfl⟩

/-- What an error reports, from its cause and information words. -/
theorem reports_raise (s : State) {e : Err} {kind cause info0 info1 : Nat}
    (hc : e.cause.status = BitVec.ofNat 32 (kind + 256 * cause))
    (h0 : e.info0 = BitVec.ofNat 64 info0) (h1 : e.info1 = BitVec.ofNat 64 info1) :
    Reports (s.raise e) kind cause info0 info1 := ⟨hc, h0, h1⟩

/-- Everything a refusal of a result too long for its limit does, whatever the length (60_exceptions.md R272, R276). -/
theorem raise_lengthTooLarge (s : State) (n : Nat) (limit : DWord) :
    (s.raise (Err.lengthTooLarge n limit)).status = 0x00004403#32 ∧
    (s.raise (Err.lengthTooLarge n limit)).info1 = limit ∧
    (n < 2 ^ 64 → (s.raise (Err.lengthTooLarge n limit)).info0.toNat = n) ∧
    UnchangedBut [.status] s (s.raise (Err.lengthTooLarge n limit)) :=
  ⟨lengthTooLarge_status, rfl, infoWord_toNat, frame_raise _ _⟩

/-! ### Commands -/

/-- The frame of a command from that of what its pseudocode writes: an error writes the status ports alone. -/
theorem command_frame {s t : State} {r : Except Err State} {ps : List Port} (h : command s r = .next t)
    (hr : ∀ u, r = .ok u → UnchangedBut ps s u) : UnchangedBut (ps ++ [.status]) s t := by
  rcases command_cases h with ⟨_, u, h1, rfl⟩ | ⟨_, e, h1, rfl⟩ | ⟨_, rfl⟩
  · exact (hr u h1).append (frame_succeed _)
  · exact (frame_raise _ _).mono (by simp)
  · exact (frame_raise _ _).mono (by simp)

/-- A command that ends with an error leaves every port but the status ports (60_exceptions.md R285 (3)). -/
theorem command_error_frame {s t : State} {r : Except Err State} (h : command s r = .next t)
    (hs : t.status ≠ 0#32) : UnchangedBut [.status] s t := by
  rcases command_cases h with ⟨_, u, h1, rfl⟩ | ⟨_, e, h1, rfl⟩ | ⟨_, rfl⟩
  · exact absurd rfl hs
  · exact frame_raise _ _
  · exact frame_raise _ _

/-- A store to `OUT` that is made writes `OUT` alone. -/
theorem storeOut_frame {s t : State} {n : Nat} {bs : List Byte} (h : s.storeOut n bs = .ok t) :
    UnchangedBut [.outBuf] s t := by
  rcases storeOut_cases s n bs with ⟨_, h2⟩ | ⟨_, h2⟩ <;> rw [h2] at h <;> cases h
  exact frame_setOut _ _

/-! ### The end of a cipher pass, field by field -/

section endCipher
variable (s : State) (n : Nat) (g : Gen)
@[simp] theorem State.endCipher_rom : (s.endCipher n g).rom = s.rom := by cases g <;> rfl
@[simp] theorem State.endCipher_host : (s.endCipher n g).host = s.host := by cases g <;> rfl
@[simp] theorem State.endCipher_hdr : (s.endCipher n g).hdr = s.hdr := by cases g <;> rfl
@[simp] theorem State.endCipher_md : (s.endCipher n g).md = s.md := by cases g <;> rfl
@[simp] theorem State.endCipher_rngOut : (s.endCipher n g).rngOut = s.rngOut := by cases g <;> rfl
@[simp] theorem State.endCipher_ckAcc : (s.endCipher n g).ckAcc = s.ckAcc := by cases g <;> rfl
@[simp] theorem State.endCipher_mrHit : (s.endCipher n g).mrHit = s.mrHit := by cases g <;> rfl
@[simp] theorem State.endCipher_mdVerified : (s.endCipher n g).mdVerified = s.mdVerified := by cases g <;> rfl
@[simp] theorem State.endCipher_initOk : (s.endCipher n g).initOk = s.initOk := by cases g <;> rfl
@[simp] theorem State.endCipher_cmd : (s.endCipher n g).cmd = s.cmd := by cases g <;> rfl
@[simp] theorem State.endCipher_inMem : (s.endCipher n g).inMem = s.inMem := by cases g <;> rfl
@[simp] theorem State.endCipher_outMem : (s.endCipher n g).outMem = s.outMem := by cases g <;> rfl
@[simp] theorem State.endCipher_ent : (s.endCipher n g).ent = s.ent := by cases g <;> rfl
@[simp] theorem State.endCipher_status : (s.endCipher n g).status = s.status := by cases g <;> rfl
@[simp] theorem State.endCipher_info0 : (s.endCipher n g).info0 = s.info0 := by cases g <;> rfl
@[simp] theorem State.endCipher_info1 : (s.endCipher n g).info1 = s.info1 := by cases g <;> rfl
end endCipher

/-- The registers of a generator's family hold it, with the valid flag clear. -/
def Holds (g : Gen) (s : State) : Prop :=
  match g with
  | .af x => s.af = x ∧ s.afValid = false
  | .lc x => s.lcS = x ∧ s.lcValid = false

theorem holds_endCipher (s : State) (n : Nat) (g : Gen) : Holds g (s.endCipher n g) := by
  cases g <;> exact ⟨rfl, rfl⟩

/-- A pass of the other family leaves a generator where it is. -/
theorem Holds.endCipher {g g' : Gen} {s : State} (h : Holds g s) (hne : g'.family ≠ g.family) (n : Nat) :
    Holds g (s.endCipher n g') := by
  cases g <;> cases g' <;> first | exact absurd rfl hne | exact h

end Sys2Proof.Machine
end

