-- ==== Sys2Proof/Laws/Header.lean ====
section
/-! SUPPORT. What the header parser does with a file, by its bytes. -/
namespace Sys2Proof.Machine

@[simp] theorem hdrSer_length (h : Header) : (hdrSer h).length = 12 := rfl

/-- Byte `a` of a serialised header (30_encoding.md R94). -/
theorem hdrSer_getElem? (h : Header) (a : Nat) :
    (hdrSer h)[a]? =
      if a < 4 then some (BitVec.ofNat 8 (h.magic.toNat / 256 ^ a))
      else if a < 8 then some (BitVec.ofNat 8 (h.length.toNat / 256 ^ (a - 4)))
      else if a < 12 then some (BitVec.ofNat 8 (h.checksum.toNat / 256 ^ (a - 8)))
      else none := by
  unfold hdrSer
  split
  · rename_i h4
    rw [List.append_assoc, List.getElem?_append_left (by simpa using h4), putLE32_getElem? _ h4]
  · split
    · rw [List.append_assoc, List.getElem?_append_right (by simp; omega),
        List.getElem?_append_left (by simp; omega), putLE32_length, putLE32_getElem? _ (by omega)]
    · split
      · rw [List.append_assoc, List.getElem?_append_right (by simp; omega),
          List.getElem?_append_right (by simp; omega), putLE32_length, putLE32_length, Nat.sub_sub,
          putLE32_getElem? _ (by omega)]
      · rw [List.getElem?_eq_none]; simp; omega

/-- Twelve bytes are a serialised header. -/
theorem hdrSer_of_bytes (m0 m1 m2 m3 l0 l1 l2 l3 c0 c1 c2 c3 : Byte) :
    hdrSer ⟨le32 m0 m1 m2 m3, le32 l0 l1 l2 l3, le32 c0 c1 c2 c3⟩ =
      [m0, m1, m2, m3, l0, l1, l2, l3, c0, c1, c2, c3] := by
  simp [hdrSer]

/-- Four bytes are a word. -/
theorem exists_putLE32 {m : List Byte} (h : m.length = 4) : ∃ w, m = putLE32 w ∧ w.toNat = leNumber m := by
  match m, h with
  | [b0, b1, b2, b3], _ =>
    refine ⟨le32 b0 b1 b2 b3, by simp, ?_⟩
    rw [le32_toNat]; simp [leNumber]; omega

/-- The parser on a serialised header and what follows it (42_header_codec.md R166). -/
theorem hdrParse_ser (h : Header) (rest : List Byte) :
    hdrParse (hdrSer h ++ rest) =
      if h.length.toNat ≠ rest.length then .error (Err.lengthMismatch h.length rest.length)
      else if h.length.toNat % 4 = 0 then .ok h
      else .error (Err.lengthNotMultipleOf4 h.length) := by
  have : ∀ n, blockAligned n = decide (n % 4 = 0) := fun _ => rfl
  simp [hdrSer, putLE32, hdrParse, this]

/-- Fewer than twelve bytes are truncated. -/
theorem hdrParse_short {t : List Byte} (h : t.length < 12) : hdrParse t = .error (Err.headerTruncated t.length) := by
  unfold hdrParse
  split
  · simp at h; omega
  · rfl

/-- Twelve bytes or more begin with a serialised header. -/
theorem exists_hdrSer {t : List Byte} (h : 12 ≤ t.length) : ∃ x rest, t = hdrSer x ++ rest := by
  match t, h with
  | m0 :: m1 :: m2 :: m3 :: l0 :: l1 :: l2 :: l3 :: c0 :: c1 :: c2 :: c3 :: rest, _ =>
    exact ⟨⟨le32 m0 m1 m2 m3, le32 l0 l1 l2 l3, le32 c0 c1 c2 c3⟩, rest, by rw [hdrSer_of_bytes]; rfl⟩

/-- What a parse that succeeds says of the bytes (R166, R170). -/
theorem hdrParse_ok {t : List Byte} {h : Header} (hp : hdrParse t = .ok h) :
    ∃ rest, t = hdrSer h ++ rest ∧ h.length.toNat = rest.length ∧ rest.length % 4 = 0 := by
  rcases Nat.lt_or_ge t.length 12 with hl | hl
  · rw [hdrParse_short hl] at hp; cases hp
  · obtain ⟨x, rest, rfl⟩ := exists_hdrSer hl
    rw [hdrParse_ser] at hp
    split at hp
    · cases hp
    · split at hp
      · cases hp; exact ⟨rest, rfl, by omega, by omega⟩
      · cases hp

/-- Everything the parser can answer (R166). -/
theorem hdrParse_cases (t : List Byte) :
    (t.length < 12 ∧ hdrParse t = .error (Err.headerTruncated t.length)) ∨
    ∃ h rest, t = hdrSer h ++ rest ∧
      ((h.length.toNat ≠ rest.length ∧ hdrParse t = .error (Err.lengthMismatch h.length rest.length)) ∨
       (h.length.toNat = rest.length ∧ rest.length % 4 ≠ 0 ∧ hdrParse t = .error (Err.lengthNotMultipleOf4 h.length)) ∨
       (h.length.toNat = rest.length ∧ rest.length % 4 = 0 ∧ hdrParse t = .ok h)) := by
  rcases Nat.lt_or_ge t.length 12 with hl | hl
  · exact .inl ⟨hl, hdrParse_short hl⟩
  · obtain ⟨h, rest, rfl⟩ := exists_hdrSer hl
    refine .inr ⟨h, rest, rfl, ?_⟩
    rw [hdrParse_ser]
    by_cases h1 : h.length.toNat = rest.length
    · by_cases h2 : rest.length % 4 = 0
      · exact .inr (.inr ⟨h1, h2, by simp [h1, h2]⟩)
      · exact .inr (.inl ⟨h1, h2, by simp [h1, h2]⟩)
    · exact .inl ⟨h1, by simp [h1]⟩

/-- A byte string cut as a file with a header at an offset: its parse sees the serialised header of its three fields. -/
theorem exists_fields {m l c : List Byte} (hm : m.length = 4) (hl : l.length = 4) (hc : c.length = 4) :
    ∃ h : Header, m ++ l ++ c = hdrSer h ∧
      h.magic.toNat = leNumber m ∧ h.length.toNat = leNumber l ∧ h.checksum.toNat = leNumber c := by
  obtain ⟨x, rfl, hx⟩ := exists_putLE32 hm
  obtain ⟨y, rfl, hy⟩ := exists_putLE32 hl
  obtain ⟨z, rfl, hz⟩ := exists_putLE32 hc
  exact ⟨⟨x, y, z⟩, rfl, hx, hy, hz⟩

end Sys2Proof.Machine
end

