-- ==== Sys2Proof/Laws/Pipeline.lean ====
section
/-! SUPPORT. What one trial and the trial loop of `DECRYPT` do. -/
namespace Sys2Proof.Machine

@[simp] theorem settled_iff (acc : Word) : settled acc = true ↔ acc = ckSentinel := decide_eq_true_iff

/-- A header at offset 0 whose length is a multiple of 4 never begins with the marker: its length field would be
`0x742E736F` (47_pipeline.md R257). -/
theorem hdrSer_ne_marker (h : Header) (rest : List Byte) (h4 : h.length.toNat % 4 = 0) :
    (hdrSer h ++ rest).take 10 ≠ marker := by
  intro hm
  have h1 : ((hdrSer h ++ rest).take 10)[4]? = some (BitVec.ofNat 8 h.length.toNat) := by
    rw [List.getElem?_take, if_pos (by decide), List.getElem?_append_left (by simp), hdrSer_getElem?,
      if_neg (by decide), if_pos (by decide), Nat.sub_self, pow_zero, Nat.div_one]
  have h2 : marker[4]? = some 0x6f#8 := rfl
  rw [hm, h2] at h1
  injection h1 with h1
  have h3 := congrArg BitVec.toNat h1
  rw [BitVec.toNat_ofNat] at h3
  have h3 : 111 = h.length.toNat % 2 ^ 8 := h3
  omega

theorem attempt_eq (rom : Config) (c : Word) (payload : List Byte) (t : Trial) (h : payload.length % 4 = 0) :
    attempt rom c payload t =
      ⟨t, xorKey (Gen.seed rom t.family t.real) payload,
        genAfter (payload.length / 4) (Gen.seed rom t.family t.real),
        ckAccumulate c (xorKey (Gen.seed rom t.family t.real) payload)⟩ := by
  have hb := blocks_length payload h
  simp [attempt, unblocks_ksBlocks _ _ h, show (blocks payload).length = payload.length / 4 by omega]

/-- The state after some trials, each in the registers of its family. -/
def afterTrials (c : Word) (payload : List Byte) (ts : List Trial) (s : State) : State :=
  ts.foldl (fun s t => s.endCipher payload.length (attempt s.rom c payload t).gen) s

/-- Everything the trial loop can do (44_magic_resolver.md R199): some trials do not verify, the next one does or is the
last, and the state is that after them all. -/
theorem runTrials_cases (c : Word) (payload : List Byte) (t : Trial) (ts : List Trial) (s : State) :
    ∃ before x after, t :: ts = before ++ x :: after ∧
      (∀ y ∈ before, (attempt s.rom c payload y).acc ≠ ckSentinel) ∧
      ((attempt s.rom c payload x).acc = ckSentinel ∨ after = []) ∧
      runTrials c payload t ts s =
        (attempt s.rom c payload x, afterTrials c payload (before ++ [x]) s) := by
  induction ts generalizing t s with
  | nil => exact ⟨[], t, [], rfl, by simp, .inr rfl, rfl⟩
  | cons t' ts ih =>
    by_cases h : (attempt s.rom c payload t).acc = ckSentinel
    · refine ⟨[], t, t' :: ts, rfl, by simp, .inl h, ?_⟩
      simp [runTrials, h, afterTrials]
    · obtain ⟨before, x, after, h1, h2, h3, h4⟩ := ih t' (s.endCipher payload.length (attempt s.rom c payload t).gen)
      simp only [State.endCipher_rom] at h2 h3 h4
      refine ⟨t :: before, x, after, by rw [h1]; rfl, ?_, h3, ?_⟩
      · intro y hy
        rcases List.mem_cons.mp hy with rfl | hy
        · exact h
        · exact h2 y hy
      · simp only [runTrials, settled_iff, h, if_false, h4]
        rfl

end Sys2Proof.Machine
end

