-- ==== Sys2Proof/Laws/Plaintext.lean ====
section
/-! SUPPORT. What the plaintext decoder does with a byte string taken as its segments between zero bytes, and what
the encoder makes (spec/46_plaintext_codec.md). -/
namespace Sys2Proof.Machine

/-! ### Segments -/

@[simp] theorem joinNul_single (seg : List Byte) : joinNul [seg] = seg := by
  simp [joinNul, List.intercalate]

@[simp] theorem joinNul_cons (seg next : List Byte) (segs : List (List Byte)) :
    joinNul (seg :: next :: segs) = seg ++ 0x00#8 :: joinNul (next :: segs) := by
  simp [joinNul, List.intercalate]

/-- Segments with their offsets, the first at `pos`. -/
def withPos (pos : Nat) : List (List Byte) → List (Nat × List Byte)
  | []          => []
  | seg :: segs => (pos, seg) :: withPos (pos + seg.length + 1) segs

theorem splitNul_segment (pos : Nat) (acc seg rest : List Byte) (h : 0x00#8 ∉ seg) :
    splitNul pos acc (seg ++ rest) = splitNul pos (acc ++ seg) rest := by
  induction seg generalizing acc with
  | nil => simp
  | cons b bs ih =>
    have hb : b ≠ nul := fun hb => h (by simp [hb, nul])
    have hbs : 0x00#8 ∉ bs := fun hm => h (List.mem_cons_of_mem _ hm)
    simp [splitNul, hb, ih _ hbs]

/-- Splitting segments joined by zero bytes gives them back, each with its offset (46_plaintext_codec.md R226). -/
theorem splitNul_joinNul (segs : List (List Byte)) (hne : segs ≠ []) (h : ∀ seg ∈ segs, 0x00#8 ∉ seg) (pos : Nat) :
    splitNul pos [] (joinNul segs) = withPos pos segs := by
  induction segs generalizing pos with
  | nil => exact absurd rfl hne
  | cons seg segs ih =>
    have hseg := h seg List.mem_cons_self
    cases segs with
    | nil =>
      have := splitNul_segment pos [] seg [] hseg
      simpa [splitNul, withPos] using this
    | cons next segs =>
      have ih := ih (by simp) (fun s hs => h s (List.mem_cons_of_mem _ hs)) (pos + seg.length + 1)
      rw [joinNul_cons, splitNul_segment pos [] seg _ hseg]
      simp [splitNul, nul, withPos] at ih ⊢
      exact ih

/-- Every byte string is its segments joined. -/
theorem exists_segments (p : List Byte) : ∃ segs, segs ≠ [] ∧ (∀ seg ∈ segs, 0x00#8 ∉ seg) ∧ p = joinNul segs := by
  induction p with
  | nil => exact ⟨[[]], by simp, by simp, by simp⟩
  | cons b bs ih =>
    obtain ⟨segs, hne, hs, rfl⟩ := ih
    by_cases hb : b = 0x00#8
    · cases segs with
      | nil => exact absurd rfl hne
      | cons seg segs => exact ⟨[] :: seg :: segs, by simp, by simpa using hs, by simp [hb]⟩
    · cases segs with
      | nil => exact absurd rfl hne
      | cons seg segs =>
        refine ⟨(b :: seg) :: segs, by simp, ?_, ?_⟩
        · intro x hx
          rcases List.mem_cons.mp hx with rfl | hx
          · have := hs seg List.mem_cons_self
            simp [this, Ne.symm hb]
          · exact hs x (List.mem_cons_of_mem _ hx)
        · cases segs with
          | nil => simp
          | cons next segs => simp

/-- A segment is cut at its first `=`, or has none. -/
theorem cutEq_eq (seg : List Byte) : cutEq seg = if 0x3D#8 ∈ seg then some (cutFirst seg) else none := by
  induction seg with
  | nil => rfl
  | cons b bs ih =>
    by_cases hb : b = 0x3D#8
    · subst hb; simp [cutEq, eqSign, cutFirst]
    · have hb' : ¬ (0x3D#8 = b) := fun h => hb h.symm
      by_cases hm : 0x3D#8 ∈ bs <;> simp [cutEq, eqSign, hb, hb', ih, hm, cutFirst]

theorem cutFirst_append {key value : List Byte} (h : 0x3D#8 ∉ key) :
    cutFirst (key ++ 0x3D#8 :: value) = ⟨key, value⟩ := by
  induction key with
  | nil => simp [cutFirst]
  | cons b bs ih =>
    have hb : b ≠ 0x3D#8 := fun hb => h (by simp [hb])
    have ih := ih (fun hm => h (List.mem_cons_of_mem _ hm))
    simp only [cutFirst, Entry.mk.injEq] at ih ⊢
    rw [List.cons_append, List.takeWhile_cons_of_pos (by simpa using hb), List.dropWhile_cons_of_pos (by simpa using hb),
      ih.1, ih.2]
    exact ⟨rfl, rfl⟩

/-- The entries of the non-empty segments. -/
def entriesOf (segs : List (List Byte)) : List Entry := (segs.filter (fun seg => seg ≠ [])).map cutFirst

theorem entriesOf_cons_nil (segs : List (List Byte)) : entriesOf ([] :: segs) = entriesOf segs := by
  simp [entriesOf]

theorem entriesOf_cons {seg : List Byte} (h : seg ≠ []) (segs : List (List Byte)) :
    entriesOf (seg :: segs) = cutFirst seg :: entriesOf segs := by
  simp [entriesOf, h]

theorem keyIndex_none {es : List Entry} {key : List Byte} (h : ∀ e ∈ es, e.key ≠ key) : keyIndex es key = none := by
  simpa [keyIndex, List.findIdx?_eq_none_iff] using h

theorem keyIndex_some {before after : List Entry} {e : Entry} {key : List Byte}
    (hb : ∀ x ∈ before, x.key ≠ key) (he : e.key = key) :
    keyIndex (before ++ e :: after) key = some before.length := by
  induction before with
  | nil => simp [keyIndex, List.findIdx?_cons, he]
  | cons b bs ih =>
    have ih := ih (fun x hx => hb x (List.mem_cons_of_mem _ hx))
    have h := hb b List.mem_cons_self
    unfold keyIndex at ih ⊢
    rw [List.cons_append, List.findIdx?_cons, ih]
    simp [h]

/-- Collecting acceptable segments adds their entries and goes on with what follows them (R226). -/
theorem collect_good (good more : List (List Byte)) (es : List Entry) (pos : Nat)
    (heq : ∀ seg ∈ good, seg ≠ [] → 0x3D#8 ∈ seg)
    (hkeys : ((es ++ entriesOf good).map Entry.key).Nodup) :
    collect es (withPos pos (good ++ more)) =
      collect (es ++ entriesOf good) (withPos (pos + segOffset good) more) := by
  induction good generalizing es pos with
  | nil => simp [entriesOf, segOffset]
  | cons seg segs ih =>
    have heq' : ∀ s ∈ segs, s ≠ [] → 0x3D#8 ∈ s := fun s hs => heq s (List.mem_cons_of_mem _ hs)
    have hpos : pos + seg.length + 1 + segOffset segs = pos + segOffset (seg :: segs) := by
      simp only [segOffset, List.map_cons, List.sum_cons]; omega
    by_cases h : seg = []
    · subst h
      rw [entriesOf_cons_nil] at hkeys ⊢
      simp only [List.cons_append, withPos, collect, if_true]
      rw [ih es _ heq' hkeys, hpos]
    · have hm := heq seg List.mem_cons_self h
      rw [entriesOf_cons h] at hkeys ⊢
      have hnone : keyIndex es (cutFirst seg).key = none := by
        apply keyIndex_none
        intro e he hk
        rw [List.map_append, List.nodup_append] at hkeys
        exact hkeys.2.2 e.key (List.mem_map_of_mem he) (cutFirst seg).key (by simp) hk
      have hkeys' : (((es ++ [cutFirst seg]) ++ entriesOf segs).map Entry.key).Nodup := by
        simpa [List.append_assoc] using hkeys
      simp only [List.cons_append, withPos, collect, h, if_false, cutEq_eq, hm, if_true, hnone]
      rw [ih _ _ heq' hkeys', hpos, List.append_assoc]
      rfl

/-! ### The decoder on segments -/

/-- Acceptable segments decode to their entries. -/
theorem ptDecode_good {segs : List (List Byte)} (hne : segs ≠ []) (hnul : ∀ seg ∈ segs, 0x00#8 ∉ seg)
    (hok : SegmentsOk segs) : ptDecode (joinNul segs) = .ok (entriesOf segs) := by
  have hk : (([] ++ entriesOf segs).map Entry.key).Nodup := by
    simpa [entriesOf, List.map_map, Function.comp_def] using hok.2
  have h := collect_good segs [] [] 0 hok.1 hk
  rw [List.append_nil] at h
  rw [ptDecode, splitNul_joinNul segs hne hnul 0, h]
  rfl

/-- After acceptable segments the decoder stands at the next one. -/
theorem ptDecode_after {good more : List (List Byte)} (hne : more ≠ []) (hnul : ∀ seg ∈ good ++ more, 0x00#8 ∉ seg)
    (hok : SegmentsOk good) :
    ptDecode (joinNul (good ++ more)) = collect (entriesOf good) (withPos (segOffset good) more) := by
  have hk : (([] ++ entriesOf good).map Entry.key).Nodup := by
    simpa [entriesOf, List.map_map, Function.comp_def] using hok.2
  have h := collect_good good more [] 0 hok.1 hk
  rw [ptDecode, splitNul_joinNul _ (by simp [hne]) hnul 0, h]
  simp

/-- A segment without `=` is malformed. -/
theorem collect_malformed {es : List Entry} {pos : Nat} {bad : List Byte} {more : List (List Byte)}
    (h : bad ≠ []) (hm : 0x3D#8 ∉ bad) :
    collect es (withPos pos (bad :: more)) = .error (Err.malformedEntry pos bad.length) := by
  simp [withPos, collect, h, cutEq_eq, hm]

/-- A segment whose key the entries so far already hold is a duplicate. -/
theorem collect_duplicate {es : List Entry} {pos j : Nat} {bad : List Byte} {more : List (List Byte)}
    (h : bad ≠ []) (hm : 0x3D#8 ∈ bad) (hj : keyIndex es (cutFirst bad).key = some j) :
    collect es (withPos pos (bad :: more)) = .error (Err.duplicateKey pos j) := by
  simp [withPos, collect, h, cutEq_eq, hm, hj]

/-- Splitting makes no segment more than there are bytes, plus one. -/
theorem splitNul_length (pos : Nat) (acc bs : List Byte) : (splitNul pos acc bs).length ≤ bs.length + 1 := by
  induction bs generalizing pos acc with
  | nil => simp [splitNul]
  | cons b bs ih =>
    simp only [splitNul]
    split
    · have := ih (pos + acc.length + 1) []
      simp; omega
    · have := ih pos (acc ++ [b])
      simp; omega

/-- How far a decode can go: the bytes not yet split bound the entries still to come. -/
theorem collect_splitNul_length (bs : List Byte) : ∀ (pos : Nat) (seg : List Byte) (es es' : List Entry),
    collect es (splitNul pos seg bs) = .ok es' → es'.length ≤ es.length + seg.length + bs.length := by
  induction bs with
  | nil =>
    intro pos seg es es' h
    simp only [splitNul, collect] at h
    split at h
    · cases h; omega
    · rename_i hs
      have : 0 < seg.length := List.length_pos_iff.mpr hs
      split at h
      · cases h
      · split at h
        · cases h
        · cases h; simp; omega
  | cons b bs ih =>
    intro pos seg es es' h
    simp only [splitNul] at h
    split at h
    · simp only [collect] at h
      split at h
      · have := ih _ _ _ _ h
        simp at this ⊢; omega
      · rename_i hs
        have : 0 < seg.length := List.length_pos_iff.mpr hs
        split at h
        · cases h
        · split at h
          · cases h
          · have := ih _ _ _ _ h
            simp at this ⊢; omega
    · have := ih _ _ _ _ h
      simp at this ⊢; omega

/-- A decode gives no more entries than there are bytes. -/
theorem ptDecode_length {p : List Byte} {es : List Entry} (h : ptDecode p = .ok es) : es.length ≤ p.length := by
  have := collect_splitNul_length p 0 [] [] es h
  simpa using this

/-- What a decode can fail with (R226). -/
theorem collect_error {es : List Entry} {segs : List (Nat × List Byte)} {e : Err} (h : collect es segs = .error e) :
    (∃ pos n, e = Err.malformedEntry pos n) ∨ (∃ pos j, e = Err.duplicateKey pos j) := by
  induction segs generalizing es with
  | nil => cases h
  | cons x segs ih =>
    obtain ⟨pos, seg⟩ := x
    simp only [collect] at h
    split at h
    · exact ih h
    · split at h
      · cases h; exact .inl ⟨_, _, rfl⟩
      · split at h
        · cases h; exact .inr ⟨_, _, rfl⟩
        · exact ih h

theorem ptDecode_error {p : List Byte} {e : Err} (h : ptDecode p = .error e) :
    (∃ pos n, e = Err.malformedEntry pos n) ∨ (∃ pos j, e = Err.duplicateKey pos j) :=
  collect_error h

/-! ### The encoder -/

theorem padLength_pos (n : Nat) : 1 ≤ padLength n ∧ padLength n ≤ 4 ∧ (n + padLength n) % 4 = 0 := by
  unfold padLength; omega

/-- An encoding's length (46_plaintext_codec.md R228). -/
theorem ptEncode_length (es : List Entry) :
    (ptEncode es).length = (es.flatMap entryBytes).length + padLength (es.flatMap entryBytes).length := by
  simp [ptEncode]

/-- The segments of an encoding: one for each entry, then the empty ones of the padding. -/
def encodedSegments (es : List Entry) (pad : Nat) : List (List Byte) :=
  es.map (fun e => e.key ++ 0x3D#8 :: e.value) ++ List.replicate (pad + 1) []

theorem joinNul_replicate (pad : Nat) : joinNul (List.replicate (pad + 1) []) = List.replicate pad 0x00#8 := by
  induction pad with
  | zero => simp
  | succ n ih =>
    rw [List.replicate_succ, List.replicate_succ, joinNul_cons, ← List.replicate_succ, ih, List.replicate_succ]
    rfl

theorem joinNul_encodedSegments (es : List Entry) (pad : Nat) :
    joinNul (encodedSegments es pad) = es.flatMap entryBytes ++ List.replicate pad 0x00#8 := by
  induction es with
  | nil => simpa [encodedSegments] using joinNul_replicate pad
  | cons e es ih =>
    have hne : ∃ x xs, encodedSegments es pad = x :: xs := by
      cases es with
      | nil => exact ⟨[], List.replicate pad [], by simp [encodedSegments, List.replicate_succ]⟩
      | cons y ys => exact ⟨_, _, rfl⟩
    obtain ⟨x, xs, hx⟩ := hne
    have : encodedSegments (e :: es) pad = (e.key ++ 0x3D#8 :: e.value) :: x :: xs := by
      rw [← hx]; rfl
    rw [this, joinNul_cons, ← hx, ih]
    simp [entryBytes, eqSign, nul]

/-- The entries of an encoding's segments, where no key holds `=`. -/
theorem entriesOf_encodedSegments (es : List Entry) (pad : Nat) (h : ∀ e ∈ es, 0x3D#8 ∉ e.key) :
    entriesOf (encodedSegments es pad) = es := by
  induction es with
  | nil =>
    show entriesOf (List.replicate (pad + 1) []) = []
    generalize pad + 1 = n
    induction n with
    | zero => rfl
    | succ n ih => rw [List.replicate_succ, entriesOf_cons_nil, ih]
  | cons e es ih =>
    show entriesOf ((e.key ++ 0x3D#8 :: e.value) :: encodedSegments es pad) = _
    rw [entriesOf_cons (by simp), cutFirst_append (h e List.mem_cons_self),
      ih (fun x hx => h x (List.mem_cons_of_mem _ hx))]

/-- Clean entries decode from their encoding (R231). -/
theorem ptDecode_ptEncode {es : List Entry} (h : EntriesClean es) : ptDecode (ptEncode es) = .ok es := by
  have hj : ptEncode es = joinNul (encodedSegments es (padLength (es.flatMap entryBytes).length)) := by
    rw [joinNul_encodedSegments]; rfl
  generalize padLength (es.flatMap entryBytes).length = pad at hj
  have hent := entriesOf_encodedSegments es pad (fun e he => (h.2 e he).1)
  rw [hj, ptDecode_good, hent]
  · simp [encodedSegments, List.replicate_succ]
  · intro seg hs
    rcases List.mem_append.mp hs with hs | hs
    · obtain ⟨e, he, rfl⟩ := List.mem_map.mp hs
      have := h.2 e he
      simp [this.2.1, this.2.2]
    · simp [(List.mem_replicate.mp hs).2]
  · constructor
    · intro seg hs hne
      rcases List.mem_append.mp hs with hs | hs
      · obtain ⟨e, he, rfl⟩ := List.mem_map.mp hs; simp
      · exact absurd (List.mem_replicate.mp hs).2 hne
    · have h2 : ((entriesOf (encodedSegments es pad)).map Entry.key).Nodup := by rw [hent]; exact h.1
      simpa [entriesOf, List.map_map, Function.comp_def] using h2

end Sys2Proof.Machine
end

