-- ==== Sys2Proof/Laws/Exec.lean ====
section
/-! SUPPORT. Everything each of the longer commands can do on a ready block, one lemma per command. -/
namespace Sys2Proof.Machine

/-! ### The trial loop -/

/-- Trials write the generator registers and the block cursor. -/
theorem frame_afterTrials (c : Word) (payload : List Byte) (ts : List Trial) (s : State) :
    UnchangedBut [.afRegs, .afValid, .lcReg, .lcValid, .blkI] s (afterTrials c payload ts s) := by
  induction ts generalizing s with
  | nil => exact .refl _ s
  | cons t ts ih =>
    refine UnchangedBut.trans ?_ (ih _)
    refine (frame_endCipher s payload.length _).mono ?_
    cases (attempt s.rom c payload t).gen <;> simp [Gen.ports]

@[simp] theorem afterTrials_rom (c : Word) (payload : List Byte) (ts : List Trial) (s : State) :
    (afterTrials c payload ts s).rom = s.rom :=
  frame_afterTrials c payload ts s .rom (by decide)

theorem afterTrials_cons (c : Word) (payload : List Byte) (t : Trial) (ts : List Trial) (s : State) :
    afterTrials c payload (t :: ts) s =
      afterTrials c payload ts (s.endCipher payload.length (attempt s.rom c payload t).gen) := rfl

theorem attempt_family (rom : Config) (c : Word) (payload : List Byte) (t : Trial) :
    (attempt rom c payload t).gen.family = t.family := by
  simp [attempt]

/-- Trials of other families leave a generator where it is. -/
theorem Holds.afterTrials {g : Gen} (c : Word) (payload : List Byte) (ts : List Trial) {s : State}
    (h : Holds g s) (hne : ∀ t ∈ ts, t.family ≠ g.family) : Holds g (afterTrials c payload ts s) := by
  induction ts generalizing s with
  | nil => exact h
  | cons t ts ih =>
    refine ih (h.endCipher ?_ _) (fun t' ht => hne t' (List.mem_cons_of_mem _ ht))
    rw [attempt_family]
    exact hne t List.mem_cons_self

/-- After trials of different families, the registers of each hold the generator of its trial. -/
theorem holds_afterTrials (c : Word) (payload : List Byte) (ts : List Trial) (s : State)
    (hd : (ts.map Trial.family).Nodup) :
    ∀ t ∈ ts, Holds (attempt s.rom c payload t).gen (afterTrials c payload ts s) := by
  induction ts generalizing s with
  | nil => simp
  | cons t ts ih =>
    rw [List.map_cons, List.nodup_cons] at hd
    intro x hx
    rcases List.mem_cons.mp hx with rfl | hx
    · refine (holds_endCipher s _ _).afterTrials c payload ts ?_
      intro y hy h
      rw [attempt_family] at h
      exact hd.1 (h ▸ List.mem_map_of_mem hy)
    · have := ih (s.endCipher payload.length (attempt s.rom c payload t).gen) hd.2 x hx
      rw [State.endCipher_rom] at this
      exact this

/-- The trials of a plan are of different families. -/
theorem mrPlan_families (rom : Config) (m : Word) : ((mrPlan rom m).map Trial.family).Nodup := by
  rcases ovrFind_cases rom m with ⟨e, _, _, h⟩ | ⟨_, h⟩
  · rw [mrPlan_hit h]; simp
  · rw [mrPlan_miss h]; cases rom.trialFirst <;> simp [Family.other]

/-! ### The commands -/

/-- Everything `KS.APPLY` can do on a ready block (41_keystream_cipher.md R153). -/
theorem execKsApply_cases {s : State} (hi : s.initOk = true) :
    (s.opLength % 4 ≠ 0 ∧ execKsApply s = .next (s.raise (Err.notBlockAligned s.opLength))) ∨
    (s.opLength % 4 = 0 ∧ s.inMem.length < s.opLength ∧
      execKsApply s = .next (s.raise (Err.cipherInputShort s.opLength s.inMem.length))) ∨
    (s.opLength % 4 = 0 ∧ s.opLength ≤ s.inMem.length ∧ s.rom.bufMax.toNat < s.opLength ∧
      execKsApply s = .next (s.raise (Err.lengthTooLarge s.opLength s.rom.bufMax))) ∨
    (s.opLength % 4 = 0 ∧ s.opLength ≤ s.inMem.length ∧ s.opLength ≤ s.rom.bufMax.toNat ∧
      execKsApply s = .next (((s.endCipher s.opLength
        (genAfter (s.opLength / 4) (Gen.seed s.rom s.opFamily s.opSeed))).setOut
          (xorKey (Gen.seed s.rom s.opFamily s.opSeed) (s.opIn.take s.opLength))).succeed)) := by
  have hl : s.opIn.length = s.inMem.length := Memory.length_bytes _
  unfold execKsApply
  rcases ksApply_cases s.rom s.opFamily s.opSeed s.opLength s.opIn with ⟨h, he⟩ | ⟨h, h', he⟩ | ⟨h, h', he⟩
  · exact .inl ⟨h, by rw [he]; exact command_error hi⟩
  · exact .inr (.inl ⟨h, hl ▸ h', by rw [he, hl]; exact command_error hi⟩)
  · rw [he]
    rcases storeOut_cases (s.endCipher s.opLength (genAfter (s.opLength / 4) (Gen.seed s.rom s.opFamily s.opSeed)))
      s.opLength (xorKey (Gen.seed s.rom s.opFamily s.opSeed) (s.opIn.take s.opLength)) with ⟨hb, ho⟩ | ⟨hb, ho⟩
    · exact .inr (.inr (.inr ⟨h, hl ▸ h', by simpa using hb, by simp only [ho]; exact command_ok hi⟩))
    · exact .inr (.inr (.inl ⟨h, hl ▸ h', by simpa using hb, by
        simp only [ho, State.endCipher_rom]; exact command_error hi⟩))

/-- Everything the checks before the first trial of `DECRYPT` can answer (47_pipeline.md R246, R247). -/
theorem decryptParse_ok {rom : Config} {file : List Byte} {off : DWord} {h : Header}
    (ho : ofsDetect rom file = .ok off) (hp : hdrParse (file.drop off.toNat) = .ok h)
    (hb : h.length.toNat ≤ rom.bufMax.toNat) :
    decryptParse rom file = .ok (off, h, file.drop (off.toNat + hdrSize)) := by
  simp [decryptParse, ho, hp, Nat.not_lt.mpr hb]

/-- Everything those checks can fail with (R246, 60_exceptions.md R275 (f)). -/
theorem decryptParse_error {rom : Config} {file : List Byte} {e : Err} (h : decryptParse rom file = .error e) :
    ofsDetect rom file = .error e ∨
    ∃ off, ofsDetect rom file = .ok off ∧
      (hdrParse (file.drop off.toNat) = .error e ∨
       ∃ h, hdrParse (file.drop off.toNat) = .ok h ∧ rom.bufMax.toNat < h.length.toNat ∧
         e = Err.lengthTooLarge h.length.toNat rom.bufMax) := by
  unfold decryptParse at h
  split at h
  · rename_i ho; cases h; exact .inl ho
  · rename_i off ho
    refine .inr ⟨off, ho, ?_⟩
    split at h
    · rename_i hp; cases h; exact .inl hp
    · rename_i hd hp
      split at h
      · rename_i hb; cases h; exact .inr ⟨hd, hp, hb, rfl⟩
      · cases h

/-- What those checks mean when they pass. -/
theorem decryptParse_inv {rom : Config} {file payload : List Byte} {off : DWord} {h : Header}
    (hd : decryptParse rom file = .ok (off, h, payload)) :
    ofsDetect rom file = .ok off ∧ hdrParse (file.drop off.toNat) = .ok h ∧ h.length.toNat ≤ rom.bufMax.toNat ∧
      payload = file.drop (off.toNat + 12) ∧ payload.length = h.length.toNat ∧ payload.length % 4 = 0 := by
  unfold decryptParse at hd
  split at hd
  · cases hd
  · rename_i off' ho
    split at hd
    · cases hd
    · rename_i h' hp
      split at hd
      · cases hd
      · rename_i hb
        cases hd
        obtain ⟨rest, h1, h2, h3⟩ := hdrParse_ok hp
        have h4 : file.drop (off.toNat + hdrSize) = rest := by
          rw [← List.drop_drop, h1]; rfl
        refine ⟨ho, hp, Nat.le_of_not_lt hb, rfl, ?_, ?_⟩ <;> rw [h4] <;> omega

/-- Everything `DECRYPT` can do on a ready block (47_pipeline.md R247, R248): its checks fail and nothing but the status
is written; or trials are made until one verifies or the last is reached. -/
theorem execDecrypt_cases {s : State} (hi : s.initOk = true) :
    (∃ e, decryptParse s.rom s.opIn = .error e ∧ execDecrypt s = .next (s.raise e)) ∨
    (∃ off h payload before x after, decryptParse s.rom s.opIn = .ok (off, h, payload) ∧
      mrPlan s.rom h.magic = before ++ x :: after ∧
      (∀ y ∈ before, (attempt s.rom h.checksum payload y).acc ≠ ckSentinel) ∧
      ((attempt s.rom h.checksum payload x).acc = ckSentinel ∨ after = []) ∧
      execDecrypt s = .next
        (let a := attempt s.rom h.checksum payload x
         let t := (afterTrials h.checksum payload (before ++ [x]) s).endDecrypt off h a
         if a.acc = ckSentinel then t.succeed else t.raise (Err.checksumMismatch a.acc))) := by
  unfold execDecrypt
  rw [guarded_ready hi]
  cases hd : decryptParse s.rom s.opIn with
  | error e => exact .inl ⟨e, rfl, rfl⟩
  | ok r =>
    obtain ⟨off, h, payload⟩ := r
    obtain ⟨before, x, after, h1, h2, h3, h4⟩ :=
      runTrials_cases h.checksum payload (mrLookup s.rom h.magic).2 (mrRetries s.rom h.magic) s
    refine .inr ⟨off, h, payload, before, x, after, rfl, h1, h2, h3, ?_⟩
    simp only [h4, settled_iff]

/-- `encryptError` finds nothing exactly where the five preconditions hold (R253). -/
theorem encryptError_none {rom : Config} {off : DWord} {n : Nat} :
    encryptError rom off n = none ↔
      0 < n ∧ n % 4 = 0 ∧ n ≤ 2 ^ 32 - 4 ∧ (off.toNat = 0 ∨ 10 ≤ off.toNat) ∧ off.toNat + 12 + n ≤ rom.bufMax.toNat := by
  have hbad : badOffset off = true ↔ 0 < off.toNat ∧ off.toNat < 10 := by
    simp [badOffset, BitVec.lt_def]
  have hmax : maxPlain.toNat = 4294967292 := rfl
  have hlen : fileLength off n = off.toNat + 12 + n := rfl
  unfold encryptError
  rw [hmax, hlen]
  split
  · simp; omega
  · split
    · rename_i h
      have : n % 4 ≠ 0 := (blockAligned_false n).mp (by simpa using h)
      simp [this]
    · split
      · simp; omega
      · split
        · rename_i h; have := hbad.mp h; simp; omega
        · rename_i h
          have := mt hbad.mpr h
          split
          · simp; omega
          · simp_all; omega

/-- Everything `encryptError` can find, in its order (R253). -/
theorem encryptError_some {rom : Config} {off : DWord} {n : Nat} {e : Err} (h : encryptError rom off n = some e) :
    e = Err.emptyInput ∨ e = Err.notBlockAligned n ∨ e = Err.lengthTooLarge n maxPlain ∨
      e = Err.badHeaderOffset off ∨ e = Err.lengthTooLarge (fileLength off n) rom.bufMax := by
  unfold encryptError at h
  repeat
    split at h
    · cases h; simp
  cases h

/-- Everything `ENCRYPT` can do on a ready block (R253, R255). -/
theorem execEncrypt_cases {s : State} (hi : s.initOk = true) :
    (∃ e, encryptError s.rom s.md.headerOffset s.inMem.length = some e ∧ execEncrypt s = .next (s.raise e)) ∨
    (encryptError s.rom s.md.headerOffset s.inMem.length = none ∧
      execEncrypt s = .next
        (let c := ckSentinel - wordSum (blocks s.opIn)
         let h : Header := ⟨s.md.stated, BitVec.ofNat 32 s.inMem.length, c⟩
         let g := Gen.seed s.rom s.md.family s.md.real
         ((((s.endCipher s.inMem.length (genAfter (s.inMem.length / 4) g)).setHdr h).setCkAcc c).setOut
           (ofsFiller s.md.headerOffset ++ hdrSer h ++ xorKey g s.opIn)).succeed)) := by
  have hl : s.opIn.length = s.inMem.length := Memory.length_bytes _
  unfold execEncrypt
  rw [hl]
  cases he : encryptError s.rom s.md.headerOffset s.inMem.length with
  | some e => exact .inl ⟨e, rfl, command_error hi⟩
  | none =>
    refine .inr ⟨rfl, ?_⟩
    have ha := (encryptError_none.mp he).2.1
    rw [← hl] at ha
    rcases ckCalc_cases s.opIn with ⟨h, _⟩ | ⟨_, hc⟩
    · exact absurd ha h
    · have hb := blocks_length s.opIn ha
      have hb : (blocks s.opIn).length = s.inMem.length / 4 := by omega
      simp only [hc]
      rw [command_ok hi]
      simp [encrypt, unblocks_ksBlocks _ _ ha, hb, hl]

end Sys2Proof.Machine
end

