-- ==== Sys2Proof/Laws/Invariant.lean ====
section
/-! SUPPORT. Each named update keeps the invariant of the machine, under what its callers know. -/
namespace Sys2Proof.Machine

/-- Every cause but the reserved one has a legal status word (60_exceptions.md R272). -/
theorem Cause.statusLegal (c : Cause) (h : c ≠ .malformedEnvelope) : StatusLegal c.status := by
  refine .inr ⟨(c.kind.code.toNat, c.code.toNat), ?_, c.status_eq⟩
  revert h; cases c <;> decide

section
variable {s : State}

theorem Inv.raise (h : Inv s) (e : Err) (he : e.cause ≠ .malformedEnvelope) : Inv (s.raise e) :=
  { h with status := e.cause.statusLegal he }

theorem Inv.succeed (h : Inv s) : Inv s.succeed := { h with status := .inl rfl }

theorem Inv.setMd (h : Inv s) (x : Metadata) : Inv (s.setMd x) := { h with }
theorem Inv.setHdr (h : Inv s) (x : Header) : Inv (s.setHdr x) := { h with }
theorem Inv.setCkAcc (h : Inv s) (x : Word) : Inv (s.setCkAcc x) := { h with }
theorem Inv.setMrHit (h : Inv s) (x : Bool) : Inv (s.setMrHit x) := { h with }
theorem Inv.setVerified (h : Inv s) (x : Bool) : Inv (s.setVerified x) := { h with }
theorem Inv.endPass (h : Inv s) (n : Nat) : Inv (s.endPass n) := { h with }
theorem Inv.latch (h : Inv s) (c : Byte) : Inv (s.latch c) := { h with }
theorem Inv.setHost (h : Inv s) (ms : List HostMove) : Inv (s.setHost ms) := { h with }

theorem Inv.setRngOut (h : Inv s) {x : Word} (hx : x.toNat < 2 ^ 31) : Inv (s.setRngOut x) := { h with rngTop := hx }

theorem Inv.setIn (h : Inv s) {bs : List Byte} (hb : bs.length ≤ s.rom.bufMax.toNat) : Inv (s.setIn bs) :=
  { h with inWf := Memory.ofBytes_wf bs, inFits := by simpa using hb }

theorem Inv.setOut (h : Inv s) {bs : List Byte} (hb : bs.length ≤ s.rom.bufMax.toNat) : Inv (s.setOut bs) :=
  { h with outWf := Memory.ofBytes_wf bs, outFits := by simpa using hb }

theorem Inv.setEnt (h : Inv s) {es : List Entry} (he : es.length < 2 ^ 64) : Inv (s.setEnt es) :=
  { h with entFits := he }

theorem Inv.setLc (h : Inv s) (x : DWord) : Inv (s.setLc x) := { h with }
theorem Inv.setLcValid (h : Inv s) (x : Bool) : Inv (s.setLcValid x) := { h with }

/-- A freshly seeded AF generator has its front cursor three ahead (40_prng.md R122). -/
theorem afSeed_cursors (warmup : Nat) (seed : Word) :
    (afSeed warmup seed).b.val = ((afSeed warmup seed).f.val + 28) % 31 := by
  have h := afSteps_cursors warmup ⟨afFill seed, 3, 0⟩
  have h3 : ((3 : Fin 31)).val = 3 := rfl
  have h0 : ((0 : Fin 31)).val = 0 := rfl
  simp only [h3, h0] at h
  unfold afSeed
  omega

/-- A step keeps it there. -/
theorem afNext_cursors {st : AfState} (h : st.b.val = (st.f.val + 28) % 31) :
    (afNext st).2.b.val = ((afNext st).2.f.val + 28) % 31 := by
  have h1 : ((1 : Fin 31)).val = 1 := rfl
  rw [afNext_f, afNext_b, Fin.val_add, Fin.val_add, h1]
  omega

theorem Inv.setAf (h : Inv s) {x : AfState} (hx : s.afValid = true → x.b.val = (x.f.val + 28) % 31) :
    Inv (s.setAf x) := { h with cursors := hx }

theorem Inv.putSeeded (h : Inv s) (rom : Config) (g : Family) (seed : Word) :
    Inv (s.putGen true (Gen.seed rom g seed)) := by
  cases g with
  | af => exact { h with cursors := fun _ => afSeed_cursors _ _ }
  | lc => exact { h with }

theorem Inv.endCipher (h : Inv s) (n : Nat) (g : Gen) : Inv (s.endCipher n g) := by
  cases g with
  | af x => exact { h with cursors := fun hv => by cases hv }
  | lc x => exact { h with }

theorem Inv.endVerify (h : Inv s) (n : Nat) (acc : Word) : Inv (s.endVerify n acc) := { h with }

theorem Inv.afterTrials (h : Inv s) (c : Word) (payload : List Byte) (ts : List Trial) :
    Inv (afterTrials c payload ts s) := by
  induction ts generalizing s with
  | nil => exact h
  | cons t ts ih => exact ih (h.endCipher _ _)

theorem Inv.resetAll (s : State) : Inv s.resetAll where
  inWf    := rfl
  outWf   := rfl
  inFits  := Nat.zero_le _
  outFits := Nat.zero_le _
  entFits := by show 0 < _; norm_num
  status  := .inl rfl
  cursors := fun h => by cases h
  rngTop  := by show 0 < _; norm_num
  initOk  := rfl

/-- `SYS.RESET` and the reset signal end in a state with the invariant, from any state. -/
theorem Inv.resetReport (s : State) : Inv s.resetReport := by
  unfold State.resetReport
  split
  · exact (Inv.resetAll s).succeed
  · exact (Inv.resetAll s).raise _ (by simp [Err.initFailed])

/-- A store to `OUT` that is made keeps it. -/
theorem Inv.storeOut (h : Inv s) {t : State} {bs : List Byte} (ho : s.storeOut bs.length bs = .ok t) : Inv t := by
  rcases storeOut_cases s bs.length bs with ⟨h1, h2⟩ | ⟨h1, h2⟩ <;> rw [h2] at ho <;> cases ho
  exact h.setOut h1

/-- In a state with the invariant every buffer length fits in 64 bits. -/
theorem Inv.inLen_lt (h : Inv s) : s.inMem.length < 2 ^ 64 := Nat.lt_of_le_of_lt h.inFits s.rom.bufMax.isLt

end

end Sys2Proof.Machine
end

