-- ==== Sys2Proof/Laws/PerInstr.lean ====
section
/-! SUPPORT. One lemma per command for the statements made for all of them: its code, as a word of
spec/opcode_table.json, stands for it. -/
namespace Sys2Proof.Laws

namespace TableWord

/-- The word of a command's row decodes to that command, and its encoding is that one byte (30_encoding.md R90, R91). -/
def Statement (i : Instr) : Prop := decodeTableWord 8 i.code.toNat = some i ∧ encode i = [i.code] ∧ i.wf = true

theorem afSeed : Statement .afSeed := ⟨by decide, rfl, rfl⟩
theorem afNext : Statement .afNext := ⟨by decide, rfl, rfl⟩
theorem lcSeed : Statement .lcSeed := ⟨by decide, rfl, rfl⟩
theorem lcNext : Statement .lcNext := ⟨by decide, rfl, rfl⟩
theorem ksApply : Statement .ksApply := ⟨by decide, rfl, rfl⟩
theorem hdrParse : Statement .hdrParse := ⟨by decide, rfl, rfl⟩
theorem hdrSer : Statement .hdrSer := ⟨by decide, rfl, rfl⟩
theorem ckVerify : Statement .ckVerify := ⟨by decide, rfl, rfl⟩
theorem ckCalc : Statement .ckCalc := ⟨by decide, rfl, rfl⟩
theorem mrLookup : Statement .mrLookup := ⟨by decide, rfl, rfl⟩
theorem ofsDetect : Statement .ofsDetect := ⟨by decide, rfl, rfl⟩
theorem ofsPrefix : Statement .ofsPrefix := ⟨by decide, rfl, rfl⟩
theorem ptDecode : Statement .ptDecode := ⟨by decide, rfl, rfl⟩
theorem ptEncode : Statement .ptEncode := ⟨by decide, rfl, rfl⟩
theorem decrypt : Statement .decrypt := ⟨by decide, rfl, rfl⟩
theorem encrypt : Statement .encrypt := ⟨by decide, rfl, rfl⟩
theorem sysReset : Statement .sysReset := ⟨by decide, rfl, rfl⟩

end TableWord

end Sys2Proof.Laws
end

