-- ==== Sys2Proof/Tests/Slice0.lean ====
section
/-! SUPPORT. Tests of the model. Every expected value is transcribed from spec/: the encodings of spec/30_encoding.md
R91, and the vectors of spec/95_test_vectors.md, each named in its test; no value is the model's own answer. Then one
witness for every statement that has hypotheses: a concrete state and operands that meet them all. -/
namespace Sys2Proof.Tests

open Sys2Proof.Machine

/- One theorem at a time: each kernel evaluation would otherwise hold a thread of its own. -/
set_option Elab.async false

/-! ### States and helpers -/

/-- The block of the vectors (95_test_vectors.md, Conventions), with room for 40 bytes. -/
def chip0 : Config := ⟨309, 32, [Config.requiredOverride], .af, 40⟩

/-- A block right after reset. -/
def ready : State := State.resetOf chip0

/-- A block whose table fails the self-check. -/
def broken : State := State.resetOf { chip0 with ovrTable := [⟨1, 1, 3, .lc⟩, ⟨1, 2, 3, .lc⟩] }

/-- A block with the largest `BUF_MAX`. -/
def wide : State := State.resetOf { chip0 with bufMax := 0xFFFFFFFFFFFFFFFF#64 }

/-- The state a command ends in. -/
def after (i : Instr) (s : State) : State :=
  match exec i s with
  | .next t => t
  | _       => s

/-- `ready` with bytes in `IN`, a Header and Metadata. -/
def load (bs : List Byte) (h : Header := ⟨0, 0, 0⟩) (m : Metadata := ⟨0, 0, 0, .af⟩) : State :=
  ((ready.setIn bs).setHdr h).setMd m

/-- The status word and the two information words. -/
def report (t : State) : Word × DWord × DWord := (t.status, t.info0, t.info1)

/-- The host is about to write this code to `CMD`. -/
def issued (c : Byte) : State := ready.setHost [.command c]

/-- The state a step ends in. -/
def stepped (s : State) : State :=
  match step s with
  | .next t => t
  | _       => s

/-! ### Encodings (R91): the word of every row -/

theorem test_words_prng :
    decodeTableWord 8 0b00000001 = some .afSeed ∧ decodeTableWord 8 0b00000010 = some .afNext ∧
    decodeTableWord 8 0b00000011 = some .lcSeed ∧ decodeTableWord 8 0b00000100 = some .lcNext := by decide

theorem test_words_cipher_header_checksum :
    decodeTableWord 8 0b00010000 = some .ksApply ∧ decodeTableWord 8 0b00100000 = some .hdrParse ∧
    decodeTableWord 8 0b00100001 = some .hdrSer ∧ decodeTableWord 8 0b00110000 = some .ckVerify ∧
    decodeTableWord 8 0b00110001 = some .ckCalc := by decide

theorem test_words_resolver_offset_plaintext :
    decodeTableWord 8 0b01000000 = some .mrLookup ∧ decodeTableWord 8 0b01010000 = some .ofsDetect ∧
    decodeTableWord 8 0b01010001 = some .ofsPrefix ∧ decodeTableWord 8 0b01100000 = some .ptDecode ∧
    decodeTableWord 8 0b01100001 = some .ptEncode := by decide

theorem test_words_pipeline_system :
    decodeTableWord 8 0b01110000 = some .decrypt ∧ decodeTableWord 8 0b01110001 = some .encrypt ∧
    decodeTableWord 8 0b01111111 = some .sysReset := by decide

/-- V-ERR-8 names four codes that are no command. -/
theorem test_illegal_words :
    decode [0x00#8] = .error (.illegalCode 0x00#8) ∧ decode [0x05#8] = .error (.illegalCode 0x05#8) ∧
    decode [0x72#8] = .error (.illegalCode 0x72#8) ∧ decode [0xFF#8] = .error (.illegalCode 0xFF#8) ∧
    decode [] = .error .noByte := by decide

/-- A command is one byte (R90): what follows is left. -/
theorem test_one_byte : decode [0x70#8, 0x71#8] = .ok (.decrypt, [0x71#8]) := by decide

/-! ### Well-formedness: an ill-formed configuration for each check -/

theorem test_wf_chip0 : chip0.wf = true := by decide

theorem test_wf_offset : { chip0 with containerOffset := 9 }.wf = false := by decide

theorem test_wf_required : { chip0 with ovrTable := [] }.wf = false := by decide

theorem test_wf_keys :
    { chip0 with ovrTable := [Config.requiredOverride, ⟨0x01346231#32, 0x01346231#32, 5, .af⟩] }.wf = false := by decide

theorem test_wf_stated :
    { chip0 with ovrTable := [Config.requiredOverride, ⟨7, 8, 5, .af⟩] }.wf = false := by decide

/-! ### PRNG engines -/

/-- V-AF-1: words 1, 2, 3 and 30 of the table fill for seed 1. -/
theorem test_af_fill :
    (afFill 1#32)[1] = 0x000041a7#32 ∧ (afFill 1#32)[2] = 0x10d63af1#32 ∧ (afFill 1#32)[3] = 0x60b7acd9#32 ∧
    (afFill 1#32)[30] = 0x59c09d07#32 := by decide +kernel

/-- V-AF-6: a seed with bit 31 set is a negative word. -/
theorem test_af_fill_negative :
    (afFill 0x80000000#32)[1] = 0x7fffbe58#32 ∧ (afFill 0x80000001#32)[30] = 0#32 := by decide +kernel

/-- V-AF-5: `AF.SEED` with `MD_REAL_MAGIC = 1` and the warm-up of 309. -/
theorem test_afSeed :
    let t := after .afSeed (load [] ⟨0, 0, 0⟩ ⟨0, 0, 1, .af⟩)
    t.af.f = 2 ∧ t.af.b = 30 ∧ t.afValid = true ∧ t.af.r[0] = 0x991539b1#32 ∧ t.af.r[2] = 0x73b5def3#32 ∧
      t.af.r[30] = 0xf3bec5da#32 := by decide +kernel

/-- V-AF-1, step 6: the sum wraps to a negative word, and the output has its top bit cleared. -/
theorem test_afNext :
    let t := after .afNext ((ready.setAf (afSteps 5 ⟨afFill 1, 3, 0⟩)).setAfValid true)
    t.rngOut = 0x55f67e38#32 ∧ t.af.r[8] = 0xabecfc71#32 ∧ t.af.f = 9 ∧ t.af.b = 6 := by decide +kernel

/-- V-AF-7. -/
theorem test_afNext_unseeded : report (after .afNext ready) = (0x00004203#32, 0, 0) := by decide +kernel

/-- V-LC-2: seed 0 wraps in 64 bits. -/
theorem test_lcSeed :
    (after .lcSeed ready).lcS = 0xFFFFFFFFFFFFFFFF#64 ∧ (after .lcSeed ready).lcValid = true := by decide +kernel

/-- V-LC-1, seed 1: the second `LC.NEXT`. -/
theorem test_lcNext :
    let t := after .lcNext ((ready.setLc 1).setLcValid true)
    t.lcS = 0x5851F42D4C957F2E#64 ∧ t.rngOut = 0x2C28FA16#32 := by decide +kernel

/-- V-LC-3. -/
theorem test_lcNext_unseeded : report (after .lcNext ready) = (0x00004203#32, 1, 0) := by decide +kernel

/-! ### Keystream cipher -/

/-- V-KS-2. -/
theorem test_ksApply :
    let t := after .ksApply (load (List.replicate 8 0) ⟨0, 8, 0⟩ ⟨0, 0, 1, .lc⟩)
    t.outMem.bytes = [0x00#8, 0x00#8, 0x00#8, 0x00#8, 0x16#8, 0xfa#8, 0x28#8, 0x2c#8] ∧ t.lcValid = false ∧
      t.lcS = 0x5851F42D4C957F2E#64 := by decide +kernel

/-- V-KS-8: the alignment is checked first. -/
theorem test_ksApply_errors :
    report (after .ksApply (load (List.replicate 4 0) ⟨0, 6, 0⟩)) = (0x00004103#32, 6, 0) ∧
    report (after .ksApply (load (List.replicate 4 0) ⟨0, 8, 0⟩)) = (0x00000501#32, 8, 4) := by decide +kernel

/-! ### Header codec -/

/-- V-HDR-5. -/
theorem test_hdrParse :
    (after .hdrParse (load [5, 0, 0, 0, 0, 0, 0, 0, 0xff#8, 0xff#8, 0xff#8, 0xff#8])).hdr = ⟨5, 0, 0xFFFFFFFF#32⟩ := by
  decide +kernel

/-- V-HDR-3 and V-HDR-4. -/
theorem test_hdrParse_errors :
    report (after .hdrParse (load ([0x24#8, 0x12#8, 0x13#8, 0x20#8, 0x0a#8] ++ List.replicate 15 0))) =
      (0x00000301#32, 10, 8) ∧
    report (after .hdrParse (load ([0x24#8, 0x12#8, 0x13#8, 0x20#8, 0x0a#8] ++ List.replicate 17 0))) =
      (0x00000401#32, 10, 0) ∧
    report (after .hdrParse (load (List.replicate 40 0) ⟨0, 0, 0⟩ ⟨50, 0, 0, .af⟩)) = (0x00000201#32, 0, 12) := by
  decide +kernel

/-- V-HDR-2, the byte order check. -/
theorem test_hdrSer :
    (after .hdrSer (load [] ⟨0x11223344#32, 0x00000100#32, 0x80000001#32⟩)).outMem.bytes =
      [0x44#8, 0x33#8, 0x22#8, 0x11#8, 0x00#8, 0x01#8, 0x00#8, 0x00#8, 0x01#8, 0x00#8, 0x00#8, 0x80#8] := by
  decide +kernel

/-! ### Checksum -/

/-- V-CK-3: two small cases. -/
theorem test_ckCalc :
    (after .ckCalc (load [1, 0, 0, 0, 1, 0, 0, 0])).ckAcc = 0xFFFFFFFD#32 ∧
    (after .ckCalc (load [0x61#8, 0x3d#8, 0x62#8, 0, 0, 0, 0, 0])).hdr.checksum = 0xFF9DC29E#32 := by decide +kernel

/-- V-CK-3 and V-CK-6: the checksum computed there verifies, another does not. -/
theorem test_ckVerify :
    (after .ckVerify (load [0x61#8, 0x3d#8, 0x62#8, 0, 0, 0, 0, 0] ⟨0, 0, 0xFF9DC29E#32⟩)).mdVerified = true ∧
    report (after .ckVerify ready) = (0x00002002#32, 0, 0xFFFFFFFF#64) := by decide +kernel

/-- V-CK-6. -/
theorem test_ck_unaligned :
    report (after .ckVerify (load (List.replicate 6 0))) = (0x00004103#32, 6, 0) ∧
    report (after .ckCalc (load (List.replicate 6 0))) = (0x00004103#32, 6, 0) := by decide +kernel

/-! ### Magic resolver -/

/-- V-MR-1. -/
theorem test_mrLookup_hit :
    let t := after .mrLookup (load [] ⟨0x01346231#32, 0, 0⟩)
    t.md = ⟨0, 0x01346231#32, 0x01346232#32, .lc⟩ ∧ t.mrHit = true := by decide +kernel

/-- V-MR-3: a real magic is no key. -/
theorem test_mrLookup_miss :
    let t := after .mrLookup (load [] ⟨0x01346232#32, 0, 0⟩)
    t.md = ⟨0, 0x01346232#32, 0x01346232#32, .af⟩ ∧ t.mrHit = false := by decide +kernel

/-! ### Container offset -/

/-- V-OFS-2. -/
theorem test_ofsDetect :
    (after .ofsDetect (load (marker ++ List.replicate 22 0))).md.headerOffset = 32 ∧
    report (after .ofsDetect (load (marker ++ List.replicate 21 0))) = (0x00000101#32, 31, 32) := by decide +kernel

/-- V-OFS-3. -/
theorem test_ofsDetect_none :
    (after .ofsDetect (load (marker.take 9) ⟨0, 0, 0⟩ ⟨7, 0, 0, .af⟩)).md.headerOffset = 0 ∧
    (after .ofsDetect (load (0x50#8 :: marker.tail) ⟨0, 0, 0⟩ ⟨7, 0, 0, .af⟩)).md.headerOffset = 0 := by decide +kernel

/-- V-OFS-4. -/
theorem test_ofsPrefix :
    (after .ofsPrefix (load [] ⟨0, 0, 0⟩ ⟨16, 0, 0, .af⟩)).outMem.bytes =
      [0x70#8, 0x68#8, 0x6f#8, 0x74#8, 0x6f#8, 0x73#8, 0x2e#8, 0x74#8, 0x61#8, 0x72#8, 0, 0, 0, 0, 0, 0] ∧
    report (after .ofsPrefix (load [] ⟨0, 0, 0⟩ ⟨5, 0, 0, .af⟩)) = (0x00004303#32, 5, 10) := by decide +kernel

/-! ### Plaintext codec -/

/-- V-PT-6 and V-PT-8. -/
theorem test_ptDecode :
    (after .ptDecode (load [0x3d#8, 0x3d#8, 0, 0])).ent = [⟨[], [0x3d#8]⟩] ∧
    (after .ptDecode (load [0, 0, 0x61#8, 0x3d#8, 0x62#8, 0, 0, 0, 0x63#8, 0x3d#8, 0x64#8])).ent =
      [⟨[0x61#8], [0x62#8]⟩, ⟨[0x63#8], [0x64#8]⟩] := by decide +kernel

/-- V-PT-9. -/
theorem test_ptDecode_errors :
    report (after .ptDecode (load [0x61#8, 0x3d#8, 0x62#8, 0, 0x61#8, 0x3d#8, 0x63#8, 0])) = (0x00000701#32, 4, 0) ∧
    report (after .ptDecode (load [0x61#8, 0x3d#8, 0x62#8, 0, 0, 0x78#8, 0x79#8, 0x7a#8, 0])) = (0x00000601#32, 5, 3) := by
  decide +kernel

/-- V-PT-2 and V-PT-5: padding of 4, of 1, and of an empty store. -/
theorem test_ptEncode :
    (after .ptEncode (ready.setEnt [⟨[0x61#8], [0x62#8]⟩])).outMem.bytes = [0x61#8, 0x3d#8, 0x62#8, 0, 0, 0, 0, 0] ∧
    (after .ptEncode (ready.setEnt [⟨[0x61#8, 0x62#8, 0x63#8, 0x64#8], [0x65#8]⟩])).outMem.bytes =
      [0x61#8, 0x62#8, 0x63#8, 0x64#8, 0x3d#8, 0x65#8, 0, 0] ∧
    (after .ptEncode ready).outMem.bytes = [0, 0, 0, 0] := by decide +kernel

/-! ### Pipeline -/

/-- P8: the smallest file of the additive-feedback family. -/
theorem test_encrypt :
    (after .encrypt (load [0, 0, 0, 0] ⟨0, 0, 0⟩ ⟨0, 1, 1, .af⟩)).outMem.bytes =
      [1, 0, 0, 0, 4, 0, 0, 0, 0xff#8, 0xff#8, 0xff#8, 0xff#8, 0x66#8, 0x52#8, 0xba#8, 0x33#8] := by decide +kernel

/-- V-ERR-7: the empty input is checked first. -/
theorem test_encrypt_errors :
    report (after .encrypt (load [] ⟨0, 0, 0⟩ ⟨5, 0, 0, .af⟩)) = (0x00004003#32, 0, 0) ∧
    report (after .encrypt (load [0, 0, 0, 0] ⟨0, 0, 0⟩ ⟨5, 0, 0, .af⟩)) = (0x00004303#32, 5, 10) := by decide +kernel

/-- P2: the override. The file decrypts to the plaintext of V-PT-1, whose last four bytes are zeros; the
additive-feedback registers are untouched. -/
theorem test_decrypt :
    let t := after .decrypt (load
      [0x31#8, 0x62#8, 0x34#8, 0x01#8, 0x1c#8, 0, 0, 0, 0xc5#8, 0x7d#8, 0xe6#8, 0xc2#8,
       0x87#8, 0xfe#8, 0xad#8, 0x37#8, 0x6f#8, 0x7e#8, 0x9a#8, 0x2a#8, 0x88#8, 0x29#8, 0x33#8, 0x38#8, 0x93#8, 0xa0#8,
       0x93#8, 0x15#8, 0x1a#8, 0xa1#8, 0xaf#8, 0x60#8, 0x6b#8, 0x73#8, 0x17#8, 0x39#8, 0xb5#8, 0xc7#8, 0x57#8, 0x37#8])
    t.outMem.bytes.take 4 = [0x6b#8, 0x65#8, 0x79#8, 0x31#8] ∧ t.outMem.bytes.drop 24 = [0, 0, 0, 0] ∧
      t.md = ⟨0, 0x01346231#32, 0x01346232#32, .lc⟩ ∧ t.mdVerified = true ∧ t.ckAcc = 0xFFFFFFFF#32 ∧
      t.lcS = 0x6EAF8F6AC8540BC8#64 ∧ t.af = ready.af := by decide +kernel

/-- V-ERR-9: with checksum bytes of zero both trials fail, and the last one, LC, is reported. -/
theorem test_decrypt_mismatch :
    let t := after .decrypt (load [5, 0, 0, 0, 0, 0, 0, 0, 0, 0, 0, 0])
    report t = (0x00002002#32, 0, 0xFFFFFFFF#64) ∧ t.md.family = .lc ∧ t.mdVerified = false ∧ t.outLen = 0 := by
  decide +kernel

/-! ### System -/

/-- P5: `SYS.RESET` gives the reset values back; and 70_reset_and_hazards.md R312, R313: a table whose second entry
fails the self-check is reported with index 1, and other commands are refused. -/
theorem test_sysReset :
    after .sysReset (load [1] ⟨1, 2, 3⟩ ⟨4, 5, 6, .lc⟩) = ready ∧
    report (after .sysReset broken) = (0x00004603#32, 1, 0) ∧
    report (after .mrLookup broken) = (0x00004603#32, 0, 0) := by decide +kernel

/-- P5: a code that is no command ends with IllegalCommand and its code. -/
theorem test_step_illegal :
    report (stepped (issued 0x05#8)) = (0x00004503#32, 5, 0) ∧ (stepped (issued 0x05#8)).cmd = 0x05#8 := by
  decide +kernel

/-- 70_reset_and_hazards.md R311: nothing executes until the host issues a command. -/
theorem test_step_idle : step ready = .next ready := rfl

/-! ### Witnesses: concrete states and operands that meet the hypotheses of each statement -/

/-- The codes of the opcode map (30_encoding.md R91). -/
def legalCodes : List Byte :=
  [0x01#8, 0x02#8, 0x03#8, 0x04#8, 0x10#8, 0x20#8, 0x21#8, 0x30#8, 0x31#8, 0x40#8, 0x50#8, 0x51#8,
   0x60#8, 0x61#8, 0x70#8, 0x71#8, 0x7F#8]

/-- Every command of every state ends in a next state. -/
theorem some_next (i : Instr) (s : State) : ∃ t, exec i s = .next t := by
  cases i <;> exact ⟨_, rfl⟩

/-- It is the one `after` names. -/
theorem next_after (i : Instr) (s : State) : exec i s = .next (after i s) := by
  cases i <;> rfl

/-- A state right after reset has the invariant, whatever its ROM. -/
theorem inv_resetOf (rom : Config) : Inv (State.resetOf rom) := Inv.resetAll (State.resetOf rom)

/-- So has one with loaded ports, if the bytes fit. -/
theorem inv_load (bs : List Byte) (h : Header) (m : Metadata) (hb : bs.length ≤ 40) : Inv (load bs h m) :=
  (((inv_resetOf chip0).setIn hb).setHdr h).setMd m

theorem witness_OpcodeMapDecodes : 0x00#8 ∉ legalCodes ∧ 0x05#8 ∉ legalCodes ∧ 0x80#8 ∉ legalCodes := by decide

theorem witness_DecodeInvertsEncode : Instr.decrypt.wf = true ∧ decodeCode 0x7F#8 = .ok .sysReset := by decide

theorem witness_StepRunsDecodedCommand :
    (issued 0x70#8).host = .command 0x70#8 :: [] ∧ decode [0x70#8] = .ok (.decrypt, []) ∧ Instr.decrypt.wf = true :=
  ⟨rfl, rfl, rfl⟩

theorem witness_IllegalAndUninitialisedCodesRefused :
    ((issued 0x00#8).host = .command 0x00#8 :: [] ∧ (issued 0x00#8).initOk = true ∧ 0x00#8 ∉ legalCodes) ∧
    ((broken.setHost [.command 0x01#8]).host = .command 0x01#8 :: [] ∧
      (broken.setHost [.command 0x01#8]).initOk = false ∧ 0x01#8 ≠ 0x7F#8) := by decide

/-- A load of exactly `BUF_MAX` bytes, one of one more, and counts of entries on both sides of 2^64. -/
theorem witness_HostWritesOnePort :
    ready.host = [] ∧
    (∃ bs : List Byte, (ready.setHost [.write (.loadIn bs)]).host = .write (.loadIn bs) :: [] ∧
      bs.length = (ready.setHost [.write (.loadIn bs)]).rom.bufMax.toNat) ∧
    (∃ bs : List Byte, (ready.setHost [.write (.loadIn bs)]).host = .write (.loadIn bs) :: [] ∧
      (ready.setHost [.write (.loadIn bs)]).rom.bufMax.toNat < bs.length) ∧
    (∃ es : List Entry, (ready.setHost [.write (.loadEnt es)]).host = .write (.loadEnt es) :: [] ∧
      es.length < 2 ^ 64) ∧
    (∃ es : List Entry, (ready.setHost [.write (.loadEnt es)]).host = .write (.loadEnt es) :: [] ∧
      2 ^ 64 ≤ es.length) ∧
    (ready.setHost [.write (.mdFamily .lc)]).host = .write (.mdFamily .lc) :: [] :=
  ⟨rfl, ⟨List.replicate 40 0, rfl, by rw [List.length_replicate]; rfl⟩,
    ⟨List.replicate 41 0, rfl, by rw [List.length_replicate]; decide⟩,
    ⟨[⟨[], []⟩], rfl, by norm_num⟩,
    ⟨List.replicate (2 ^ 64) ⟨[], []⟩, rfl, Nat.le_of_eq List.length_replicate.symm⟩, rfl⟩

theorem witness_InvariantKeptByEveryStep : Inv (issued 0x70#8) ∧ ∃ t, step (issued 0x70#8) = .next t :=
  ⟨(inv_resetOf chip0).setHost _, _, rfl⟩

theorem witness_RomNeverWritten : ∃ t, step (issued 0x70#8) = .next t := ⟨_, rfl⟩

theorem witness_FailedSelfCheckIsForever :
    (⟨1, 2, 3, .lc⟩ : OvrEntry) ∈ (broken.setHost [.reset]).rom.ovrTable ∧ (1 : Word) ≠ 2 ∧
      (broken.setHost [.reset]).initOk = false ∧ ∃ t, step (broken.setHost [.reset]) = .next t :=
  ⟨by decide, by decide, by decide, _, rfl⟩

theorem witness_ResetSignalResets : (ready.setHost [.reset]).host = .reset :: [] := rfl

/-- A table that passes; one whose second entry fails; one whose first does. -/
theorem witness_SysResetResult :
    (∀ e ∈ ready.rom.ovrTable, e.key = e.stated) ∧
    (broken.rom.ovrTable = [⟨1, 1, 3, .lc⟩] ++ ⟨1, 2, 3, .lc⟩ :: [] ∧
      (∀ e ∈ [(⟨1, 1, 3, .lc⟩ : OvrEntry)], e.key = e.stated) ∧ (1 : Word) ≠ 2) ∧
    (State.resetOf { chip0 with ovrTable := [⟨1, 2, 3, .lc⟩] }).rom.ovrTable = [] ++ ⟨1, 2, 3, .lc⟩ :: [] := by
  decide

theorem witness_CommandRaisesOnlyItsCauses :
    ready.initOk = true ∧ (∃ t, exec .decrypt ready = .next t) ∧
    (State.resetOf { chip0 with bufMax := 11 }).initOk = true ∧
    (after .hdrSer (State.resetOf { chip0 with bufMax := 11 })).status ≠ 0#32 :=
  ⟨by decide, some_next _ _, by decide, by decide +kernel⟩

/-- An error of an ordinary command, and the two commands with a case of their own. -/
theorem witness_ErrorLeavesPortsUnchanged :
    (after .hdrParse ready).status ≠ 0#32 ∧ (after .ckVerify ready).status ≠ 0#32 ∧
    (after .decrypt (load [5, 0, 0, 0, 0, 0, 0, 0, 0, 0, 0, 0])).status ≠ 0#32 := by decide +kernel

theorem witness_AfSeedResult : ready.initOk = true := by decide

/-- A seeded generator whose front cursor is about to wrap, and one whose rear cursor is. -/
theorem witness_AfNextResult :
    ((ready.setAf ⟨afFill 1, 30, 27⟩).setAfValid true).initOk = true ∧
    ((ready.setAf ⟨afFill 1, 30, 27⟩).setAfValid true).afValid = true ∧
    ((ready.setAf ⟨afFill 1, 2, 30⟩).setAfValid true).afValid = true := by decide

theorem witness_UnseededNextRefused : ready.initOk = true ∧ ready.afValid = false ∧ ready.lcValid = false := by decide

theorem witness_LcSeedResult : ready.initOk = true := by decide

theorem witness_LcNextResult : (ready.setLcValid true).initOk = true ∧ (ready.setLcValid true).lcValid = true := by
  decide

/-- The unrolled sequence of a table. -/
def unrolled (r : Vector Word 31) (n : Nat) : Word :=
  if h : n < 31 then r[(⟨n, h⟩ : Fin 31) + 3] else unrolled r (n - 31) + unrolled r (n - 3)

theorem witness_AfStepsUnrollToRecurrence :
    (∀ i : Fin 31, unrolled (afFill 1) i.val = (afFill 1)[i + 3]) ∧
    ∀ n, unrolled (afFill 1) (n + 31) = unrolled (afFill 1) n + unrolled (afFill 1) (n + 28) := by
  constructor
  · intro i
    rw [unrolled, dif_pos i.isLt]
  · intro n
    rw [unrolled, dif_neg (by omega), Nat.add_sub_cancel, show n + 31 - 3 = n + 28 by omega]

/-- The ends of the two ranges, and the least positive word. -/
theorem witness_AfRecurrenceNeverOverflows :
    0 ≤ (0#32).toInt ∧ 0 ≤ (0x7FFFFFFF#32).toInt ∧ (0x80000000#32).toInt < 0 ∧ (0xFFFFFFFF#32).toInt < 0 ∧
    0 < (1#32).toInt := by decide

/-- The whole of `IN`, at the limit `BUF_MAX`; and no byte at all. -/
theorem witness_KsApplyResult :
    let s := load (List.replicate 40 0) ⟨0, 40, 0⟩
    s.initOk = true ∧ s.inMem.wf = true ∧ s.hdr.length.toNat % 4 = 0 ∧ s.hdr.length.toNat = s.inMem.length ∧
      s.hdr.length.toNat = s.rom.bufMax.toNat ∧ ready.hdr.length.toNat = 0 := by decide +kernel

/-- The third error needs an `IN` longer than `BUF_MAX`, which no host load makes. -/
theorem witness_KsApplyErrors :
    ((load [0] ⟨0, 1, 0⟩).inMem.length < 2 ^ 64 ∧ (load [0] ⟨0, 1, 0⟩).initOk = true ∧
      (load [0] ⟨0, 1, 0⟩).hdr.length.toNat % 4 ≠ 0) ∧
    ((load [0, 0, 0] ⟨0, 4, 0⟩).hdr.length.toNat % 4 = 0 ∧
      (load [0, 0, 0] ⟨0, 4, 0⟩).inMem.length < (load [0, 0, 0] ⟨0, 4, 0⟩).hdr.length.toNat) ∧
    (let s := load (List.replicate 44 0) ⟨0, 44, 0⟩
     s.hdr.length.toNat % 4 = 0 ∧ s.hdr.length.toNat ≤ s.inMem.length ∧ s.rom.bufMax.toNat < s.hdr.length.toNat) := by
  decide +kernel

theorem witness_KsApplyTwiceRestores :
    let s := load [1, 2, 3, 4, 5] ⟨0, 4, 0⟩ ⟨0, 0, 1, .lc⟩
    s.initOk = true ∧ exec .ksApply s = .next (after .ksApply s) ∧ (after .ksApply s).status = 0#32 :=
  ⟨by decide, next_after _ _, by decide +kernel⟩

theorem witness_CipherIgnoresOldGenerators :
    Instr.decrypt ∈ [Instr.ksApply, .encrypt, .decrypt] ∧ (∃ t, exec .decrypt ready = .next t) ∧
    ∃ u, exec .decrypt { ready with af := ⟨afFill 1, 3, 0⟩, afValid := true, lcS := 7, lcValid := true, rngOut := 9 } =
      .next u :=
  ⟨by decide, some_next _ _, some_next _ _⟩

theorem witness_CipherKeepsTopBits :
    let s := load [1, 2, 3, 0x84#8] ⟨0, 4, 0⟩ ⟨0, 0, 1, .lc⟩
    s.initOk = true ∧ s.inMem.wf = true ∧ exec .ksApply s = .next (after .ksApply s) ∧
      (after .ksApply s).status = 0#32 ∧ 4 * 0 + 3 < s.hdr.length.toNat :=
  ⟨by decide, by decide +kernel, next_after _ _, by decide +kernel, by decide⟩

/-- A header at offset 10 with a payload of one block, and one with no payload. -/
theorem witness_HdrParseResult :
    (let s := load (marker ++ [9, 0, 0, 0, 4, 0, 0, 0, 7, 0, 0, 0] ++ [1, 2, 3, 4]) ⟨0, 0, 0⟩ ⟨10, 0, 0, .af⟩
     s.initOk = true ∧ s.inMem.bytes = marker ++ ([9, 0, 0, 0] ++ [4, 0, 0, 0] ++ [7, 0, 0, 0]) ++ [1, 2, 3, 4] ∧
      marker.length = s.md.headerOffset.toNat ∧ leNumber [4, 0, 0, 0] = [(1 : Byte), 2, 3, 4].length) ∧
    leNumber [0, 0, 0, 0] = ([] : List Byte).length := by decide +kernel

theorem witness_HdrParseErrors :
    (Inv (load (List.replicate 11 0)) ∧ (load (List.replicate 11 0)).initOk = true ∧
      (load (List.replicate 11 0)).inMem.length < (load (List.replicate 11 0)).md.headerOffset.toNat + 12) ∧
    (let s := load ([9, 0, 0, 0, 10, 0, 0, 0, 7, 0, 0, 0] ++ [1, 2])
     Inv s ∧ s.inMem.bytes = [] ++ ([9, 0, 0, 0] ++ [10, 0, 0, 0] ++ [7, 0, 0, 0]) ++ [1, 2] ∧
      leNumber [10, 0, 0, 0] ≠ [(1 : Byte), 2].length) ∧
    (let s := load ([9, 0, 0, 0, 2, 0, 0, 0, 7, 0, 0, 0] ++ [1, 2])
     Inv s ∧ s.inMem.bytes = [] ++ ([9, 0, 0, 0] ++ [2, 0, 0, 0] ++ [7, 0, 0, 0]) ++ [1, 2] ∧
      leNumber [2, 0, 0, 0] = [(1 : Byte), 2].length ∧ [(1 : Byte), 2].length % 4 ≠ 0) :=
  ⟨⟨inv_load _ _ _ (by decide), by decide +kernel, by decide +kernel⟩,
    ⟨inv_load _ _ _ (by decide), by decide +kernel, by decide +kernel⟩,
    ⟨inv_load _ _ _ (by decide), by decide +kernel, by decide +kernel, by decide +kernel⟩⟩

theorem witness_HdrSerResult :
    (State.resetOf { chip0 with bufMax := 12 }).initOk = true ∧
    12 ≤ (State.resetOf { chip0 with bufMax := 12 }).rom.bufMax.toNat ∧
    (State.resetOf { chip0 with bufMax := 11 }).rom.bufMax.toNat < 12 := by decide

theorem witness_HeaderRoundTrip :
    (⟨5, 4, 6⟩ : Header).length.toNat = [(1 : Byte), 2, 3, 4].length ∧ [(1 : Byte), 2, 3, 4].length % 4 = 0 ∧
    hdrParse [5, 0, 0, 0, 0, 0, 0, 0, 6, 0, 0, 0] = .ok ⟨5, 0, 6⟩ := by decide +kernel

/-- An input that settles, and one that does not. -/
theorem witness_CkVerifyResult :
    (let s := load [1, 0, 0, 0] ⟨0, 0, 0xFFFFFFFE#32⟩
     s.initOk = true ∧ s.inMem.length % 4 = 0 ∧ (after .ckVerify s).ckAcc = 0xFFFFFFFF#32) ∧
    ready.inMem.length % 4 = 0 ∧ (after .ckVerify ready).ckAcc ≠ 0xFFFFFFFF#32 := by decide +kernel

theorem witness_CkCalcResult : ready.initOk = true ∧ (load [1, 0, 0, 0]).inMem.length % 4 = 0 := by decide +kernel

theorem witness_UnalignedChecksumRefused :
    Inv (load [1]) ∧ (load [1]).initOk = true ∧ (load [1]).inMem.length % 4 ≠ 0 ∧
    Instr.ckCalc ∈ [Instr.ckVerify, Instr.ckCalc] :=
  ⟨inv_load _ _ _ (by decide), by decide +kernel, by decide +kernel, by decide⟩

theorem witness_ComputedChecksumVerifies :
    exec .ckCalc (load [1, 2, 3, 4]) = .next (after .ckCalc (load [1, 2, 3, 4])) ∧
    (load [1, 2, 3, 4]).initOk = true ∧ (after .ckCalc (load [1, 2, 3, 4])).status = 0#32 :=
  ⟨next_after _ _, by decide, by decide +kernel⟩

/-- The last bit of the last byte. -/
theorem witness_SingleBitFlipDetected :
    let s := load [1, 0, 0, 0x80#8] ⟨0, 0, 0x7FFFFFFE#32⟩
    s.initOk = true ∧ exec .ckVerify s = .next (after .ckVerify s) ∧ (after .ckVerify s).status = 0#32 ∧
      s.inMem.bytes[3]? = some 0x80#8 :=
  ⟨by decide, next_after _ _, by decide +kernel, by decide⟩

theorem witness_ChecksumIgnoresBlockOrder :
    [(1 : Byte), 0, 0, 0, 2, 0, 0, 0].length % 4 = 0 ∧ [(2 : Byte), 0, 0, 0, 1, 0, 0, 0].length % 4 = 0 ∧
    (blocks [1, 0, 0, 0, 2, 0, 0, 0]).Perm (blocks [2, 0, 0, 0, 1, 0, 0, 0]) := by decide +kernel

theorem witness_MrLookupResult :
    let s := load [] ⟨0x01346231#32, 0, 0⟩
    let m := load [] ⟨0x01346232#32, 0, 0⟩
    s.initOk = true ∧ (s.rom.ovrTable.map OvrEntry.key).Nodup ∧
      (Config.requiredOverride ∈ s.rom.ovrTable ∧ Config.requiredOverride.key = s.hdr.magic) ∧
      m.initOk = true ∧ (m.rom.ovrTable.map OvrEntry.key).Nodup ∧ ∀ e ∈ m.rom.ovrTable, e.key ≠ m.hdr.magic := by
  decide +kernel

/-- The stated magic in the ROM of the block; a table with a key, and a magic that is no key of it. -/
theorem witness_StatedOverrideResolves :
    (let s := State.reset.setHdr ⟨0x01346231#32, 0, 0⟩
     s.initOk = true ∧ s.rom = State.reset.rom ∧ s.hdr.magic = 0x01346231#32) ∧
    ((chip0.ovrTable.map OvrEntry.key).Nodup ∧ Config.requiredOverride ∈ chip0.ovrTable) ∧
    ∀ e ∈ chip0.ovrTable, e.key ≠ 0x01346232#32 := by
  refine ⟨⟨?_, rfl, rfl⟩, by decide, by decide⟩
  show (selfCheck Config.chip.ovrTable).isNone = true
  rw [selfCheck_none.mpr Config.chip_stated]
  rfl

/-- A marker with exactly `CONTAINER_OFFSET` bytes, one byte fewer, and no marker. -/
theorem witness_OfsDetectResult :
    (let s := load (marker ++ List.replicate 22 0)
     Inv s ∧ s.initOk = true ∧ s.inMem.bytes = marker ++ List.replicate 22 0 ∧
      s.rom.containerOffset.toNat ≤ s.inMem.length) ∧
    (let s := load (marker ++ List.replicate 21 0)
     Inv s ∧ s.inMem.bytes = marker ++ List.replicate 21 0 ∧ s.inMem.length < s.rom.containerOffset.toNat) ∧
    (Inv (load (marker.take 9)) ∧ (load (marker.take 9)).inMem.bytes.take 10 ≠ marker) :=
  ⟨⟨inv_load _ _ _ (by decide), by decide +kernel, by decide +kernel, by decide +kernel⟩,
    ⟨inv_load _ _ _ (by decide), by decide +kernel, by decide +kernel⟩,
    ⟨inv_load _ _ _ (by decide), by decide +kernel⟩⟩

/-- Offsets 0, 10 and `BUF_MAX`; 1 and 9; one more than `BUF_MAX`. -/
theorem witness_OfsPrefixResult :
    let at' := fun off : DWord => load [] ⟨0, 0, 0⟩ ⟨off, 0, 0, .af⟩
    (at' 0).initOk = true ∧ (at' 0).md.headerOffset.toNat = 0 ∧ 10 ≤ (at' 10).md.headerOffset.toNat ∧
      (at' 40).md.headerOffset.toNat ≤ (at' 40).rom.bufMax.toNat ∧
      (0 < (at' 1).md.headerOffset.toNat ∧ (at' 9).md.headerOffset.toNat < 10) ∧
      (10 ≤ (at' 41).md.headerOffset.toNat ∧ (at' 41).rom.bufMax.toNat < (at' 41).md.headerOffset.toNat) := by
  decide +kernel

/-- `a=b`, an empty segment, `c=`. -/
theorem witness_PtDecodeResult :
    let s := load [0x61#8, 0x3d#8, 0x62#8, 0, 0, 0x63#8, 0x3d#8]
    let segs : List (List Byte) := [[0x61#8, 0x3d#8, 0x62#8], [], [0x63#8, 0x3d#8]]
    s.initOk = true ∧ segs ≠ [] ∧ (∀ seg ∈ segs, 0x00#8 ∉ seg) ∧ s.inMem.bytes = joinNul segs ∧ SegmentsOk segs := by
  refine ⟨by decide +kernel, by decide, by decide, by decide +kernel, by decide, by decide⟩

/-- After `a=b`, a segment without `=`; and `a=c`, whose key was seen. -/
theorem witness_PtDecodeErrors :
    (let s := load [0x61#8, 0x3d#8, 0x62#8, 0, 0x78#8]
     Inv s ∧ s.initOk = true ∧ s.inMem.bytes = joinNul ([[0x61#8, 0x3d#8, 0x62#8]] ++ [0x78#8] :: []) ∧
      SegmentsOk [[0x61#8, 0x3d#8, 0x62#8]] ∧ 0x3D#8 ∉ [0x78#8]) ∧
    (let s := load [0x61#8, 0x3d#8, 0x62#8, 0, 0x61#8, 0x3d#8, 0x63#8]
     Inv s ∧ s.initOk = true ∧ s.inMem.bytes = joinNul ([[0x61#8, 0x3d#8, 0x62#8]] ++ [0x61#8, 0x3d#8, 0x63#8] :: []) ∧
      0x3D#8 ∈ [0x61#8, 0x3d#8, 0x63#8] ∧
      [[0x61#8, 0x3d#8, 0x62#8]].filter (fun seg => seg ≠ []) = [] ++ [0x61#8, 0x3d#8, 0x62#8] :: [] ∧
      (cutFirst [0x61#8, 0x3d#8, 0x62#8]).key = (cutFirst [0x61#8, 0x3d#8, 0x63#8]).key) :=
  ⟨⟨inv_load _ _ _ (by decide), by decide +kernel, by decide +kernel, ⟨by decide, by decide⟩, by decide⟩,
    ⟨inv_load _ _ _ (by decide), by decide +kernel, by decide +kernel, by decide, by decide, by decide⟩⟩

/-- An encoding of exactly `BUF_MAX` bytes, one of a block more, and one of 2^64 bytes or more. -/
theorem witness_PtEncodeResult :
    (let es : List Entry := [⟨List.replicate 34 0x61#8, []⟩]
     (ready.setEnt es).initOk = true ∧ (ptEncode es).length = (ready.setEnt es).rom.bufMax.toNat) ∧
    (let es : List Entry := [⟨List.replicate 38 0x61#8, []⟩]
     (ready.setEnt es).rom.bufMax.toNat < (ptEncode es).length ∧ (ptEncode es).length < 2 ^ 64) ∧
    ∃ es : List Entry, (ready.setEnt es).initOk = true ∧ (ready.setEnt es).rom.bufMax.toNat < (ptEncode es).length ∧
      2 ^ 64 ≤ (ptEncode es).length := by
  refine ⟨by decide +kernel, by decide +kernel, ?_⟩
  obtain ⟨key, hk⟩ : ∃ key : List Byte, key.length = 2 ^ 64 := ⟨List.replicate (2 ^ 64) 0, List.length_replicate⟩
  have hl : 2 ^ 64 ≤ (ptEncode [⟨key, []⟩]).length := by
    simp only [ptEncode, List.flatMap_cons, List.flatMap_nil, entryBytes, List.length_append, hk]
    omega
  have hb : ready.rom.bufMax.toNat < 2 ^ 64 := ready.rom.bufMax.isLt
  have hi : ready.initOk = true := by decide
  exact ⟨[⟨key, []⟩], hi, Nat.lt_of_lt_of_le hb hl, hl⟩

theorem witness_PlaintextRoundTrip :
    let s := ready.setEnt [⟨[0x6b#8], [0x61#8, 0x3d#8, 0x62#8]⟩, ⟨[], []⟩]
    s.initOk = true ∧ EntriesClean s.ent ∧ exec .ptEncode s = .next (after .ptEncode s) ∧
      (after .ptEncode s).status = 0#32 :=
  ⟨by decide, ⟨by decide, by decide⟩, next_after _ _, by decide +kernel⟩

/-- One block with no prefix, with the shortest prefix, and with the longest that fits. -/
theorem witness_EncryptResult :
    let s := load [1, 2, 3, 4] ⟨0, 0, 0⟩ ⟨24, 5, 6, .lc⟩
    (s.initOk = true ∧ s.inMem.wf = true ∧ 0 < s.inMem.length ∧ s.inMem.length % 4 = 0 ∧
      s.inMem.length ≤ 2 ^ 32 - 4 ∧ 10 ≤ s.md.headerOffset.toNat ∧
      s.md.headerOffset.toNat + 12 + s.inMem.length = s.rom.bufMax.toNat) ∧
    (s.setMd ⟨10, 5, 6, .lc⟩).md.headerOffset.toNat = 10 ∧ (s.setMd ⟨0, 5, 6, .lc⟩).md.headerOffset.toNat = 0 := by
  decide +kernel

/-- The third error needs an `IN` of 4 GiB. -/
theorem witness_EncryptErrors :
    (Inv ready ∧ ready.initOk = true ∧ ready.inMem.length = 0) ∧
    (Inv (load [1]) ∧ (load [1]).inMem.length % 4 ≠ 0) ∧
    (∃ s, Inv s ∧ s.initOk = true ∧ s.inMem.length % 4 = 0 ∧ 2 ^ 32 - 4 < s.inMem.length) ∧
    (let s := load [1, 2, 3, 4] ⟨0, 0, 0⟩ ⟨9, 0, 0, .af⟩
     Inv s ∧ 0 < s.inMem.length ∧ s.inMem.length % 4 = 0 ∧ 0 < s.md.headerOffset.toNat ∧
      s.md.headerOffset.toNat < 10) ∧
    (let s := load [1, 2, 3, 4] ⟨0, 0, 0⟩ ⟨25, 0, 0, .af⟩
     Inv s ∧ 10 ≤ s.md.headerOffset.toNat ∧
      s.rom.bufMax.toNat < s.md.headerOffset.toNat + 12 + s.inMem.length) := by
  refine ⟨⟨inv_resetOf chip0, by decide, rfl⟩, ⟨inv_load _ _ _ (by decide), by decide +kernel⟩, ?_,
    ⟨inv_load _ _ _ (by decide), by decide +kernel⟩, ⟨inv_load _ _ _ (by decide), by decide +kernel⟩⟩
  obtain ⟨bs, hb⟩ : ∃ bs : List Byte, bs.length = 4294967296 := ⟨List.replicate 4294967296 0, List.length_replicate⟩
  have hl : (wide.setIn bs).inMem.length = 4294967296 := by
    rw [State.setIn_inMem, Memory.length_ofBytes, hb]
  have hw : bs.length ≤ wide.rom.bufMax.toNat := by
    rw [hb]; decide
  exact ⟨wide.setIn bs, Inv.setIn (inv_resetOf _) hw, by rw [State.setIn_initOk]; decide, by rw [hl], by
    rw [hl]; norm_num⟩

/-- A marker and too few bytes; too few bytes for a header; a length that differs, one that is no multiple of 4, and one
beyond `BUF_MAX`, for which `IN` must be longer than that. -/
theorem witness_DecryptRejectsMalformed :
    (let s := load (marker ++ [1])
     s.inMem.length < 2 ^ 64 ∧ s.initOk = true ∧ s.inMem.bytes = marker ++ [1] ∧
      s.inMem.length < s.rom.containerOffset.toNat) ∧
    (let s := load (List.replicate 11 0)
     ofsDetect s.rom s.inMem.bytes = .ok 0 ∧ s.inMem.length < (0 : DWord).toNat + 12) ∧
    (let s := load ([9, 0, 0, 0, 10, 0, 0, 0, 7, 0, 0, 0] ++ [1, 2])
     ofsDetect s.rom s.inMem.bytes = .ok 0 ∧
      s.inMem.bytes = [] ++ ([9, 0, 0, 0] ++ [10, 0, 0, 0] ++ [7, 0, 0, 0]) ++ [1, 2] ∧
      leNumber [10, 0, 0, 0] ≠ [(1 : Byte), 2].length) ∧
    (let s := load ([9, 0, 0, 0, 2, 0, 0, 0, 7, 0, 0, 0] ++ [1, 2])
     ofsDetect s.rom s.inMem.bytes = .ok 0 ∧
      s.inMem.bytes = [] ++ ([9, 0, 0, 0] ++ [2, 0, 0, 0] ++ [7, 0, 0, 0]) ++ [1, 2] ∧
      leNumber [2, 0, 0, 0] = [(1 : Byte), 2].length ∧ [(1 : Byte), 2].length % 4 ≠ 0) ∧
    (let s := (State.resetOf { chip0 with bufMax := 3 }).setIn ([9, 0, 0, 0, 4, 0, 0, 0, 7, 0, 0, 0] ++ [1, 2, 3, 4])
     ofsDetect s.rom s.inMem.bytes = .ok 0 ∧
      s.inMem.bytes = [] ++ ([9, 0, 0, 0] ++ [4, 0, 0, 0] ++ [7, 0, 0, 0]) ++ [1, 2, 3, 4] ∧
      leNumber [4, 0, 0, 0] = [(1 : Byte), 2, 3, 4].length ∧ s.rom.bufMax.toNat < [(1 : Byte), 2, 3, 4].length) := by
  decide +kernel

/-- A file with no payload that settles, and one that does not. -/
theorem witness_DecryptResult :
    (let s := load [5, 0, 0, 0, 0, 0, 0, 0, 0xff#8, 0xff#8, 0xff#8, 0xff#8]
     s.initOk = true ∧ ofsDetect s.rom s.inMem.bytes = .ok 0 ∧
      hdrParse (s.inMem.bytes.drop (0 : DWord).toNat) = .ok ⟨5, 0, 0xFFFFFFFF#32⟩ ∧
      (⟨5, 0, 0xFFFFFFFF#32⟩ : Header).length.toNat ≤ s.rom.bufMax.toNat) ∧
    (let s := load [5, 0, 0, 0, 0, 0, 0, 0, 0, 0, 0, 0]
     hdrParse (s.inMem.bytes.drop (0 : DWord).toNat) = .ok ⟨5, 0, 0⟩) := by decide +kernel

/-- The first family settles; a key of the table settles, with the file of P2 cut to its first block and the checksum of
`key1`; and a file of the second family, which the first does not settle. -/
theorem witness_DecryptMetadataInvariant :
    (let s := load [5, 0, 0, 0, 0, 0, 0, 0, 0xff#8, 0xff#8, 0xff#8, 0xff#8]
     s.initOk = true ∧ exec .decrypt s = .next (after .decrypt s) ∧ (after .decrypt s).status = 0#32 ∧
      (after .decrypt s).mrHit = false ∧ (after .decrypt s).md.family = s.rom.trialFirst) ∧
    (let s := load [0x31#8, 0x62#8, 0x34#8, 0x01#8, 4, 0, 0, 0, 0x94#8, 0x9a#8, 0x86#8, 0xce#8,
       0x87#8, 0xfe#8, 0xad#8, 0x37#8]
     s.initOk = true ∧ exec .decrypt s = .next (after .decrypt s) ∧ (after .decrypt s).status = 0#32 ∧
      (after .decrypt s).mrHit = true ∧ (after .decrypt s).md.family = .lc) ∧
    (let s := load (after .encrypt (load [1, 2, 3, 4] ⟨0, 0, 0⟩ ⟨0, 5, 5, .lc⟩)).outMem.bytes
     s.initOk = true ∧ exec .decrypt s = .next (after .decrypt s) ∧ (after .decrypt s).status = 0#32 ∧
      (after .decrypt s).mrHit = false ∧ (after .decrypt s).md.family ≠ s.rom.trialFirst) := by
  refine ⟨⟨by decide, next_after _ _, by decide +kernel⟩, ⟨by decide, next_after _ _, by decide +kernel⟩,
    ⟨by decide +kernel, next_after _ _, by decide +kernel⟩⟩

/-- A key of the table with its entry's values; a magic that is no key with the first family; and one with the second
family, whose file the first family does not verify. -/
theorem witness_DecryptUndoesEncrypt :
    (let s := load [1, 2, 3, 4] ⟨0, 0, 0⟩ ⟨0, 0x01346231#32, 0x01346232#32, .lc⟩
     Inv s ∧ exec .encrypt s = .next (after .encrypt s) ∧ s.initOk = true ∧ (after .encrypt s).status = 0#32 ∧
      s.md.headerOffset = 0#64 ∧ (s.rom.ovrTable.map OvrEntry.key).Nodup ∧
      ∃ e ∈ s.rom.ovrTable, e.key = s.md.stated ∧ s.md.real = e.real ∧ s.md.family = e.family) ∧
    (let s := ((State.resetOf { chip0 with bufMax := 48 }).setIn [1, 2, 3, 4]).setMd ⟨32, 5, 5, .af⟩
     Inv s ∧ exec .encrypt s = .next (after .encrypt s) ∧ (after .encrypt s).status = 0#32 ∧
      s.md.headerOffset = s.rom.containerOffset ∧ (∀ e ∈ s.rom.ovrTable, e.key ≠ s.md.stated) ∧
      s.md.real = s.md.stated ∧ s.md.family = s.rom.trialFirst) ∧
    (let s := load [1, 2, 3, 4] ⟨0, 0, 0⟩ ⟨0, 5, 5, .lc⟩
     Inv s ∧ exec .encrypt s = .next (after .encrypt s) ∧ (after .encrypt s).status = 0#32 ∧
      s.md.family ≠ s.rom.trialFirst ∧
      ((after .encrypt s).hdr.checksum.toNat +
        byteSum (s.inMem.bytes.zipIdx.map (fun y =>
          (y.1 ^^^ keyByte s.rom s.md.family s.md.real y.2) ^^^
            keyByte s.rom s.rom.trialFirst s.md.stated y.2))) % 2 ^ 32 ≠ 0xFFFFFFFF) := by
  refine ⟨⟨inv_load _ _ _ (by decide), next_after _ _, ?_⟩,
    ⟨((inv_resetOf _).setIn (by decide)).setMd _, next_after _ _, ?_⟩,
    ⟨inv_load _ _ _ (by decide), next_after _ _, ?_⟩⟩ <;> decide +kernel

/-- A block with both generators seeded. -/
theorem witness_CipherRunsCommandEngines :
    let s := ((ready.setAf ⟨afFill 1, 3, 0⟩).setAfValid true).setLcValid true
    s.initOk = true ∧ s.afValid = true ∧ s.lcValid = true := by decide

theorem witness_Frames :
    ∀ i ∈ [Instr.afSeed, .afNext, .lcSeed, .lcNext, .hdrParse, .ckVerify, .ckCalc, .mrLookup, .ofsDetect, .ptDecode,
      .ksApply, .hdrSer, .ofsPrefix, .ptEncode, .encrypt, .decrypt], ∃ t, exec i ready = .next t :=
  fun i _ => some_next i ready

end Sys2Proof.Tests
end

section
/-! PROOFS. Scope of the block (spec/00_scope.md): the stated override, what a step runs, the reset state. -/
namespace Sys2Proof.Machine

/-! ### The resolver -/

theorem Family.ne_other (g : Family) : g ≠ g.other := by
  cases g <;> decide

/-- `MR.LOOKUP` on a ready block writes the outcome of the lookup, whatever it is, and ends well (R197). -/
theorem exec_mrLookup_ready {s : State} {hit : Bool} {x : Trial} (hi : s.initOk = true)
    (hl : mrLookup s.rom s.hdr.magic = (hit, x)) :
    exec .mrLookup s = .next
      ((s.setMd { s.md with stated := s.hdr.magic, real := x.real, family := x.family }).setMrHit hit).succeed := by
  rw [exec, execMrLookup, hl, command_ok hi]

/-- A lookup of the stated magic of R201 in the ROM of the block finds the entry the spec states. -/
theorem ovrFind_reset_required : ovrFind State.reset.rom 0x01346231#32 = some Config.requiredOverride :=
  ovrFind_hit (rom := Config.chip) Config.chip_keys Config.chip_required

/-- Settles O40: the entry R201 states is in every table the block can have, whose keys are unique, so a lookup of its
key finds it; and the plan is read off the outcome of the lookup, a hit or a miss. -/
theorem statedOverrideResolves : Obligations.StatedOverrideResolves := by
  refine ⟨fun s hi hrom hmagic => ?_, fun rom e hkeys he => mrPlan_hit (ovrFind_hit hkeys he), fun rom m hm =>
    ⟨rom.trialFirst, rom.trialFirst.other, Family.ne_other _, rfl, mrPlan_miss (ovrFind_miss hm)⟩⟩
  have hfind : ovrFind s.rom 0x01346231#32 = some Config.requiredOverride := hrom ▸ ovrFind_reset_required
  refine ⟨⟨_, exec_mrLookup_ready hi (mrLookup_hit (hmagic ▸ hfind)), ?_⟩, mrPlan_hit hfind⟩
  exact ⟨rfl, rfl, rfl, endsOk_succeed _⟩

/-! ### Commands -/

/-- A one-byte string decodes to the command of its code (R90). -/
theorem decodeCode_of_decode {c : Byte} {i : Instr} (h : decode [c] = .ok (i, [])) : decodeCode c = .ok i := by
  cases hd : decodeCode c with
  | ok j => simpa [decode, hd] using h
  | error r => simp [decode, hd] at h

/-- Issuing a legal code runs its command on the state with the code latched. -/
theorem issue_legal {c : Byte} {i : Instr} (h : decodeCode c = .ok i) (s : State) :
    issue c s = exec i (s.latch c) := by
  rcases issue_cases c s with ⟨j, hj, hrun⟩ | ⟨hbad, _⟩
  · cases h.symm.trans hj
    exact hrun
  · cases h.symm.trans hbad

/-- Settles O3: the step takes the oldest move, and the code it issues is the command's. -/
theorem stepRunsDecodedCommand : Obligations.StepRunsDecodedCommand := by
  intro s c rest i hhost hdecode _
  calc step s = issue c (s.setHost rest) := step_move hhost
    _ = exec i ((s.setHost rest).latch c) := issue_legal (decodeCode_of_decode hdecode) _

/-! ### The reset state -/

/-- Whatever its ROM, the block after reset has every register, flag and length at 0 (R41, R310). -/
theorem allZero_resetOf (rom : Config) : AllZero (State.resetOf rom) where
  afWords i := by simp [State.resetOf]
  afFront := rfl
  afRear := rfl
  afValid := rfl
  lcS := rfl
  lcValid := rfl
  rngOut := rfl
  mdOffset := rfl
  mdStated := rfl
  mdReal := rfl
  mdFamily := rfl
  hdrMagic := rfl
  hdrLength := rfl
  hdrCheck := rfl
  ckAcc := rfl
  blkI := rfl
  mrHit := rfl
  mdVerified := rfl
  cmd := rfl
  inLen := rfl
  outLen := rfl
  entN := rfl
  inNone _ := rfl
  outNone _ := rfl

/-- After reset `INIT_OK` is 1 exactly where each key of the table is its entry's stated magic (R310, R312). -/
theorem resetOf_initOk_iff (rom : Config) :
    (State.resetOf rom).initOk = true ↔ ∀ e ∈ rom.ovrTable, e.key = e.stated := by
  rw [← selfCheck_none]
  exact Option.isNone_iff_eq_none

/-- Settles O6: the registers by the reset of any ROM, the constraints of R12 by the laws of the block's configuration. -/
theorem resetLeavesEverythingZero : Obligations.ResetLeavesEverythingZero :=
  ⟨allZero_resetOf _, ⟨rfl, rfl, rfl⟩, (resetOf_initOk_iff _).mpr Config.chip_stated, rfl, rfl, rfl,
    Config.chip_offset, Config.chip_required, Config.chip_keys, Config.chip_stated⟩

end Sys2Proof.Machine
end

section
/-! PROOFS. The invariant of the machine: at reset, and over every step. -/
namespace Sys2Proof.Machine

variable {s t : State}

/-! ### The causes of the unit functions' errors -/

theorem hdrParse_error_cause {file : List Byte} {e : Err} (h : hdrParse file = .error e) :
    e.cause ∈ [Cause.headerTruncated, .lengthMismatch, .lengthNotMultipleOf4] := by
  rcases hdrParse_cases file with ⟨_, he⟩ | ⟨_, _, _, ⟨_, he⟩ | ⟨_, _, he⟩ | ⟨_, _, he⟩⟩ <;>
    cases he.symm.trans h
  · exact .head _
  · exact .tail _ (.head _)
  · exact .tail _ (.tail _ (.head _))

theorem ofsDetect_error_cause {rom : Config} {file : List Byte} {e : Err} (h : ofsDetect rom file = .error e) :
    e.cause = .containerTooShort := by
  rcases ofsDetect_cases rom file with ⟨_, _, he⟩ | ⟨_, _, he⟩ | ⟨_, he⟩ <;> cases he.symm.trans h
  rfl

theorem decryptParse_error_cause {rom : Config} {file : List Byte} {e : Err} (h : decryptParse rom file = .error e) :
    e.cause ∈ [Cause.containerTooShort, .headerTruncated, .lengthMismatch, .lengthNotMultipleOf4,
      .lengthTooLarge] := by
  rcases decryptParse_error h with ho | ⟨_, _, hp | ⟨_, _, _, rfl⟩⟩
  · simp [ofsDetect_error_cause ho]
  · have hc := hdrParse_error_cause hp
    simp only [List.mem_cons, List.not_mem_nil, or_false] at hc
    rcases hc with hc | hc | hc <;> simp [hc]
  · simp [Err.lengthTooLarge]

theorem ptDecode_error_cause {p : List Byte} {e : Err} (h : ptDecode p = .error e) :
    e.cause ∈ [Cause.malformedEntry, .duplicateKey] := by
  rcases ptDecode_error h with ⟨_, _, rfl⟩ | ⟨_, _, rfl⟩
  · exact .head _
  · exact .tail _ (.head _)

theorem encryptError_cause {rom : Config} {off : DWord} {n : Nat} {e : Err} (h : encryptError rom off n = some e) :
    e.cause ∈ [Cause.emptyInput, .notBlockAligned, .lengthTooLarge, .badHeaderOffset] := by
  rcases encryptError_some h with rfl | rfl | rfl | rfl | rfl <;>
    simp [Err.emptyInput, Err.notBlockAligned, Err.lengthTooLarge, Err.badHeaderOffset]

/-! ### The shape of a command -/

/-- On a block whose self-check failed every command but `SYS.RESET` is refused (R276, R313). -/
theorem exec_refused {i : Instr} (hne : i ≠ .sysReset) (hi : s.initOk = false) :
    exec i s = .next (s.raise (Err.initFailed 0)) := by
  cases i with
  | sysReset => exact absurd rfl hne
  | _ => exact guarded_refused hi

/-- What a command's pseudocode may answer for the command to keep the invariant: a state that has it, or an error the
block can raise. -/
def Sound : Except Err State → Prop
  | .ok u    => Inv u
  | .error e => e.cause ≠ .malformedEnvelope

theorem Inv.command {r : Except Err State} (h : Inv s) (hc : command s r = .next t) (hr : Sound r) : Inv t := by
  rcases command_cases hc with ⟨_, u, rfl, rfl⟩ | ⟨_, e, rfl, rfl⟩ | ⟨_, rfl⟩
  · exact Inv.succeed hr
  · exact h.raise e hr
  · exact h.raise _ (by simp [Err.initFailed])

/-- A refusal keeps the invariant, so a command needs a proof for a ready block alone. -/
theorem Inv.exec_of_ready {i : Instr} (h : Inv s) (hne : i ≠ .sysReset) (hx : exec i s = .next t)
    (hr : s.initOk = true → Inv t) : Inv t := by
  cases hi : s.initOk with
  | true => exact hr hi
  | false =>
    cases (exec_refused hne hi).symm.trans hx
    exact h.raise _ (by simp [Err.initFailed])

/-- A store to `OUT` of the length it declares is made within `BUF_MAX` or refused (R66). -/
theorem Inv.sound_storeOut (h : Inv s) {n : Nat} {bs : List Byte} (hn : bs.length = n) : Sound (s.storeOut n bs) := by
  subst hn
  rcases storeOut_cases s bs.length bs with ⟨hb, ho⟩ | ⟨_, ho⟩ <;> rw [ho]
  · exact h.setOut hb
  · simp [Sound, Err.lengthTooLarge]

/-! ### Every command keeps the invariant -/

theorem Inv.exec_afNext (h : Inv s) (hx : exec .afNext s = .next t) : Inv t := by
  refine h.command hx ?_
  split
  · exact (h.setAf fun hv => afNext_cursors (h.cursors hv)).setRngOut (afNext_small _)
  · simp [Sound, Err.generatorNotSeeded]

theorem Inv.exec_lcNext (h : Inv s) (hx : exec .lcNext s = .next t) : Inv t := by
  refine h.command hx ?_
  split
  · exact (h.setLc _).setRngOut (lcNext_small _)
  · simp [Sound, Err.generatorNotSeeded]

theorem Inv.exec_ksApply (h : Inv s) (hx : exec .ksApply s = .next t) : Inv t := by
  refine h.command hx ?_
  rcases ksApply_cases s.rom s.opFamily s.opSeed s.opLength s.opIn with ⟨_, he⟩ | ⟨_, _, he⟩ | ⟨_, hL, he⟩ <;>
    rw [he]
  · simp [Sound, Err.notBlockAligned]
  · simp [Sound, Err.cipherInputShort]
  · exact (h.endCipher _ _).sound_storeOut (by simpa using hL)

theorem Inv.exec_hdrParse (h : Inv s) (hx : exec .hdrParse s = .next t) : Inv t := by
  refine h.command hx ?_
  split
  · rename_i e he
    intro hm
    simpa [hm] using hdrParse_error_cause he
  · exact h.setHdr _

theorem Inv.exec_ckVerify (h : Inv s) (hx : exec .ckVerify s = .next t) : Inv t := by
  refine h.exec_of_ready (by decide) hx fun hi => ?_
  rcases execCkVerify_cases hi with ⟨_, hn⟩ | ⟨_, _, hn⟩ | ⟨_, _, hn⟩ <;> cases hn.symm.trans hx
  · exact h.raise _ (by simp [Err.notBlockAligned])
  · exact (h.endVerify _ _).succeed
  · exact (h.endVerify _ _).raise _ (by simp [Err.checksumMismatch])

theorem Inv.exec_ckCalc (h : Inv s) (hx : exec .ckCalc s = .next t) : Inv t := by
  refine h.command hx ?_
  rcases ckCalc_cases s.opIn with ⟨_, he⟩ | ⟨_, he⟩ <;> rw [he]
  · simp [Sound, Err.notBlockAligned]
  · exact ((h.setCkAcc _).setHdr _).endPass _

theorem Inv.exec_ofsDetect (h : Inv s) (hx : exec .ofsDetect s = .next t) : Inv t := by
  refine h.command hx ?_
  split
  · rename_i e he
    simp [Sound, ofsDetect_error_cause he]
  · exact h.setMd _

theorem Inv.exec_ofsPrefix (h : Inv s) (hx : exec .ofsPrefix s = .next t) : Inv t := by
  refine h.command hx ?_
  rcases ofsPrefix_cases s.md.headerOffset with ⟨_, _, he⟩ | ⟨hoff, he⟩ <;> rw [he]
  · simp [Sound, Err.badHeaderOffset]
  · exact h.sound_storeOut (ofsFiller_length hoff)

/-- A decode gives no more entries than `IN` has bytes, so they can be counted (R35). -/
theorem Inv.exec_ptDecode (h : Inv s) (hx : exec .ptDecode s = .next t) : Inv t := by
  refine h.command hx ?_
  split
  · rename_i e he
    intro hm
    simpa [hm] using ptDecode_error_cause he
  · rename_i es he
    have hlen : es.length ≤ s.inMem.length := Memory.length_bytes s.inMem ▸ ptDecode_length he
    exact h.setEnt (hlen.trans_lt h.inLen_lt)

/-- The result ports of `DECRYPT` with a plaintext that fits in `OUT` (R247). -/
theorem Inv.endDecrypt (h : Inv s) (off : DWord) (hd : Header) {a : Attempt}
    (ha : a.plain.length ≤ s.rom.bufMax.toNat) : Inv (s.endDecrypt off hd a) :=
  (((((h.setHdr hd).setMd _).setMrHit _).setOut ha).setCkAcc _).setVerified _

theorem Inv.exec_decrypt (h : Inv s) (hx : exec .decrypt s = .next t) : Inv t := by
  refine h.exec_of_ready (by decide) hx fun hi => ?_
  rcases execDecrypt_cases hi with ⟨e, he, hn⟩ | ⟨off, hd, payload, before, x, after, hp, _, _, _, hn⟩ <;>
    cases hn.symm.trans hx
  · refine h.raise e fun hm => ?_
    simpa [hm] using decryptParse_error_cause he
  · obtain ⟨_, _, hfits, _, hlen, h4⟩ := decryptParse_inv hp
    have hout : (attempt s.rom hd.checksum payload x).plain.length ≤ s.rom.bufMax.toNat := by
      rw [attempt_eq _ _ _ _ h4, xorKey_length, hlen]
      exact hfits
    have hend := (h.afterTrials hd.checksum payload (before ++ [x])).endDecrypt off hd
      (a := attempt s.rom hd.checksum payload x) (by simpa using hout)
    dsimp only
    split
    · exact hend.succeed
    · exact hend.raise _ (by simp [Err.checksumMismatch])

/-- The file `ENCRYPT` makes is as long as its last precondition says, so it fits in `OUT` (R253, R254). -/
theorem Inv.exec_encrypt (h : Inv s) (hx : exec .encrypt s = .next t) : Inv t := by
  refine h.exec_of_ready (by decide) hx fun hi => ?_
  rcases execEncrypt_cases hi with ⟨e, he, hn⟩ | ⟨he, hn⟩ <;> cases hn.symm.trans hx
  · refine h.raise e fun hm => ?_
    simpa [hm] using encryptError_cause he
  · obtain ⟨_, _, _, hoff, hfits⟩ := encryptError_none.mp he
    refine ((((h.endCipher _ _).setHdr _).setCkAcc _).setOut ?_).succeed
    simpa [ofsFiller_length hoff, State.opIn, Nat.add_assoc] using hfits

/-- Every command keeps the invariant: a refused one by its refusal, the others by what their pseudocode answers. -/
theorem Inv.exec {i : Instr} (h : Inv s) (hx : exec i s = .next t) : Inv t := by
  cases i with
  | afSeed => exact h.command hx (h.putSeeded _ _ _)
  | afNext => exact h.exec_afNext hx
  | lcSeed => exact h.command hx (h.putSeeded _ _ _)
  | lcNext => exact h.exec_lcNext hx
  | ksApply => exact h.exec_ksApply hx
  | hdrParse => exact h.exec_hdrParse hx
  | hdrSer => exact h.command hx (h.sound_storeOut (hdrSer_length _))
  | ckVerify => exact h.exec_ckVerify hx
  | ckCalc => exact h.exec_ckCalc hx
  | mrLookup => exact h.command hx ((h.setMd _).setMrHit _)
  | ofsDetect => exact h.exec_ofsDetect hx
  | ofsPrefix => exact h.exec_ofsPrefix hx
  | ptDecode => exact h.exec_ptDecode hx
  | ptEncode => exact h.command hx (h.sound_storeOut rfl)
  | decrypt => exact h.exec_decrypt hx
  | encrypt => exact h.exec_encrypt hx
  | sysReset => cases hx; exact Inv.resetReport s

/-! ### Reset and steps -/

/-- Settles O7: the block at reset is what resetting it gives. -/
theorem invariantHoldsAtReset : Obligations.InvariantHoldsAtReset := Inv.resetAll State.reset

theorem Inv.hostWrite {w : HostWrite} (h : Inv s) (hw : hostWrite w s = .next t) : Inv t := by
  rcases hostWrite_cases hw with ⟨_, hb, rfl⟩ | ⟨_, he, rfl⟩ | ⟨_, rfl⟩ | ⟨_, rfl⟩
  · exact h.setIn hb
  · exact h.setEnt he
  · exact h.setMd _
  · exact h.setHdr _

theorem Inv.illegalCommand {c : Byte} (h : Inv s) (hc : illegalCommand c s = .next t) : Inv t := by
  rcases guarded_cases hc with ⟨_, rfl⟩ | ⟨_, rfl⟩
  · exact h.raise _ (by simp [Err.illegalCommand])
  · exact h.raise _ (by simp [Err.initFailed])

/-- Settles O8: each kind of move keeps the invariant, taken with the move gone from the queue and its code latched. -/
theorem invariantKeptByEveryStep : Obligations.InvariantKeptByEveryStep := by
  intro s t h hstep
  rcases step_cases hstep with
    ⟨_, rfl⟩ | ⟨_, rest, _, hw⟩ | ⟨c, rest, _, _, _, hx⟩ | ⟨c, rest, _, _, hc⟩ | ⟨_, _, rfl⟩
  · exact h
  · exact (h.setHost rest).hostWrite hw
  · exact ((h.setHost rest).latch c).exec hx
  · exact ((h.setHost rest).latch c).illegalCommand hc
  · exact Inv.resetAll _

end Sys2Proof.Machine
end

section
/-! PROOFS. What each command leaves unchanged (spec/10_state.md R40), and the ROM (R36). -/
namespace Sys2Proof.Machine

variable {s t : State}

/-! ### Finer frames of the named updates -/

/-- A frame loses the ports it names that read the same all the same. -/
theorem UnchangedBut.refine {ps qs : List Port} (h : UnchangedBut qs s t) (hq : ∀ p ∈ qs, p ∈ ps ∨ p.same s t) :
    UnchangedBut ps s t := by
  intro p hp
  by_cases hm : p ∈ qs
  · exact (hq p hm).resolve_left hp
  · exact h p hm

section registers
variable (s : State)

theorem frame_setMd_headerOffset (v : DWord) :
    UnchangedBut [.mdHeaderOffset] s (s.setMd { s.md with headerOffset := v }) :=
  (frame_setMd s _).refine (by simp [Port.same])

theorem frame_setMd_stated (v : Word) : UnchangedBut [.mdStated] s (s.setMd { s.md with stated := v }) :=
  (frame_setMd s _).refine (by simp [Port.same])

theorem frame_setMd_real (v : Word) : UnchangedBut [.mdReal] s (s.setMd { s.md with real := v }) :=
  (frame_setMd s _).refine (by simp [Port.same])

theorem frame_setMd_family (v : Family) : UnchangedBut [.mdFamily] s (s.setMd { s.md with family := v }) :=
  (frame_setMd s _).refine (by simp [Port.same])

theorem frame_setHdr_magic (v : Word) : UnchangedBut [.hdrMagic] s (s.setHdr { s.hdr with magic := v }) :=
  (frame_setHdr s _).refine (by simp [Port.same])

theorem frame_setHdr_length (v : Word) : UnchangedBut [.hdrLength] s (s.setHdr { s.hdr with length := v }) :=
  (frame_setHdr s _).refine (by simp [Port.same])

theorem frame_setHdr_checksum (v : Word) : UnchangedBut [.hdrChecksum] s (s.setHdr { s.hdr with checksum := v }) :=
  (frame_setHdr s _).refine (by simp [Port.same])

/-- A lookup writes every Metadata register but the header offset (R197). -/
theorem frame_setMd_resolved (stated real : Word) (g : Family) :
    UnchangedBut [.mdStated, .mdReal, .mdFamily] s
      (s.setMd { s.md with stated := stated, real := real, family := g }) :=
  (frame_setMd s _).refine (by simp [Port.same])

end registers

/-- The frame of a command from that on a ready block: a refusal writes the status ports alone. -/
theorem exec_frame_of_ready {i : Instr} {ps : List Port} (hne : i ≠ .sysReset) (hst : .status ∈ ps)
    (hx : exec i s = .next t) (hr : s.initOk = true → UnchangedBut ps s t) : UnchangedBut ps s t := by
  cases hi : s.initOk with
  | true => exact hr hi
  | false =>
    cases (exec_refused hne hi).symm.trans hx
    exact (frame_raise s _).mono (by simpa using hst)

/-! ### The generator commands -/

theorem execAfSeed_frame (hx : exec .afSeed s = .next t) : UnchangedBut [.afRegs, .afValid, .status] s t :=
  command_frame hx (by rintro _ ⟨⟩; exact frame_putGen s true _)

theorem execAfNext_frame (hx : exec .afNext s = .next t) : UnchangedBut [.afRegs, .rngOut, .status] s t := by
  refine command_frame (ps := [.afRegs, .rngOut]) hx fun u hu => ?_
  split at hu <;> cases hu
  exact (frame_setAf s _).append (frame_setRngOut _ _)

theorem execLcSeed_frame (hx : exec .lcSeed s = .next t) : UnchangedBut [.lcReg, .lcValid, .status] s t :=
  command_frame hx (by rintro _ ⟨⟩; exact frame_putGen s true _)

theorem execLcNext_frame (hx : exec .lcNext s = .next t) : UnchangedBut [.lcReg, .rngOut, .status] s t := by
  refine command_frame (ps := [.lcReg, .rngOut]) hx fun u hu => ?_
  split at hu <;> cases hu
  exact (frame_setLc s _).append (frame_setRngOut _ _)

/-- Settles O54: the frames of the four commands, from those of the registers each writes. -/
theorem prngFrame : Obligations.PrngFrame :=
  fun _ _ => ⟨execAfSeed_frame, execAfNext_frame, execLcSeed_frame, execLcNext_frame⟩

/-! ### The commands that store no byte -/

theorem execHdrParse_frame (hx : exec .hdrParse s = .next t) :
    UnchangedBut [.hdrMagic, .hdrLength, .hdrChecksum, .status] s t := by
  refine command_frame (ps := [.hdrMagic, .hdrLength, .hdrChecksum]) hx fun u hu => ?_
  split at hu <;> cases hu
  exact frame_setHdr s _

theorem execCkVerify_frame (hx : exec .ckVerify s = .next t) :
    UnchangedBut [.ckAcc, .mdVerified, .blkI, .status] s t := by
  refine exec_frame_of_ready (by decide) (by decide) hx fun hi => ?_
  rcases execCkVerify_cases hi with ⟨_, hn⟩ | ⟨_, _, hn⟩ | ⟨_, _, hn⟩ <;> cases hn.symm.trans hx
  · exact (frame_raise s _).mono (by simp)
  · exact (frame_endVerify s _ _).append (frame_succeed _)
  · exact (frame_endVerify s _ _).append (frame_raise _ _)

theorem execCkCalc_frame (hx : exec .ckCalc s = .next t) :
    UnchangedBut [.ckAcc, .hdrChecksum, .blkI, .status] s t := by
  refine command_frame (ps := [.ckAcc, .hdrChecksum, .blkI]) hx fun u hu => ?_
  split at hu <;> cases hu
  exact ((frame_setCkAcc s _).append (frame_setHdr_checksum (s.setCkAcc _) _)).append (frame_endPass _ _)

theorem execMrLookup_frame (hx : exec .mrLookup s = .next t) :
    UnchangedBut [.mdStated, .mdReal, .mdFamily, .mrHit, .status] s t :=
  command_frame hx (by rintro _ ⟨⟩; exact (frame_setMd_resolved s _ _ _).append (frame_setMrHit _ _))

theorem execOfsDetect_frame (hx : exec .ofsDetect s = .next t) : UnchangedBut [.mdHeaderOffset, .status] s t := by
  refine command_frame (ps := [.mdHeaderOffset]) hx fun u hu => ?_
  split at hu <;> cases hu
  exact frame_setMd_headerOffset s _

theorem execPtDecode_frame (hx : exec .ptDecode s = .next t) : UnchangedBut [.ent, .status] s t := by
  refine command_frame (ps := [.ent]) hx fun u hu => ?_
  split at hu <;> cases hu
  exact frame_setEnt s _

/-- Settles O55: the frames of the six commands, from those of the registers each writes. -/
theorem nonStoringFrame : Obligations.NonStoringFrame :=
  fun _ _ => ⟨execHdrParse_frame, execCkVerify_frame, execCkCalc_frame, execMrLookup_frame, execOfsDetect_frame,
    execPtDecode_frame⟩

/-! ### The commands that write `OUT` -/

/-- The registers of a family. -/
def Family.ports : Family → List Port
  | .af => [.afRegs, .afValid]
  | .lc => [.lcReg, .lcValid]

theorem Gen.ports_eq (g : Gen) : g.ports = Family.ports g.family := by
  cases g <;> rfl

/-- A frame that names the registers of one family leaves those of the other family alone. -/
theorem UnchangedBut.other_family {g : Family} {ps : List Port} (h : UnchangedBut (Family.ports g ++ ps) s t)
    (hps : ∀ p ∈ ps, p ∉ [Port.afRegs, .afValid, .lcReg, .lcValid]) :
    (g = .af → t.lcS = s.lcS ∧ t.lcValid = s.lcValid) ∧ (g = .lc → t.af = s.af ∧ t.afValid = s.afValid) := by
  have hout : ∀ p ∈ [Port.afRegs, .afValid, .lcReg, .lcValid], p ∉ Family.ports g → p.same s t := fun p hm hp =>
    h p fun hmem => (List.mem_append.mp hmem).elim hp fun hmem => hps p hmem hm
  constructor <;> rintro rfl
  · exact ⟨hout .lcReg (by decide) (by decide), hout .lcValid (by decide) (by decide)⟩
  · exact ⟨hout .afRegs (by decide) (by decide), hout .afValid (by decide) (by decide)⟩

/-- The frame of a pass and of what is done after it: the registers of the family used, the block cursor, the rest. -/
theorem frame_after_cipher {gen : Gen} {g : Family} {n : Nat} {ps : List Port}
    (h : UnchangedBut ps (s.endCipher n gen) t) (hg : gen.family = g) :
    UnchangedBut (Family.ports g ++ Port.blkI :: ps) s t := by
  subst hg
  simpa [Gen.ports_eq] using (frame_endCipher s n gen).append h

/-- `KS.APPLY` writes the registers of the Metadata's family alone (R154). -/
theorem execKsApply_frame (hx : exec .ksApply s = .next t) :
    UnchangedBut (Family.ports s.md.family ++ [Port.blkI, .outBuf, .status]) s t := by
  refine exec_frame_of_ready (by decide) (by simp) hx fun hi => ?_
  rcases execKsApply_cases hi with ⟨_, hn⟩ | ⟨_, _, hn⟩ | ⟨_, _, _, hn⟩ | ⟨_, _, _, hn⟩ <;>
    cases hn.symm.trans hx
  · exact (frame_raise s _).mono (by simp)
  · exact (frame_raise s _).mono (by simp)
  · exact (frame_raise s _).mono (by simp)
  · exact frame_after_cipher ((frame_setOut _ _).append (frame_succeed _)) (by simp [State.opFamily])

/-- A command whose pseudocode is one store to `OUT`. -/
theorem command_storeOut_frame {n : Nat} {bs : List Byte} (hx : command s (s.storeOut n bs) = .next t) :
    UnchangedBut [.outBuf, .status] s t :=
  command_frame hx fun _ => storeOut_frame

theorem execOfsPrefix_frame (hx : exec .ofsPrefix s = .next t) : UnchangedBut [.outBuf, .status] s t := by
  refine command_frame (ps := [.outBuf]) hx fun u hu => ?_
  split at hu
  · cases hu
  · exact storeOut_frame hu

/-- `ENCRYPT` writes those registers too, the header and the accumulator (R255). -/
theorem execEncrypt_frame (hx : exec .encrypt s = .next t) :
    UnchangedBut (Family.ports s.md.family ++
      [Port.blkI, .hdrMagic, .hdrLength, .hdrChecksum, .ckAcc, .outBuf, .status]) s t := by
  refine exec_frame_of_ready (by decide) (by simp) hx fun hi => ?_
  rcases execEncrypt_cases hi with ⟨_, _, hn⟩ | ⟨_, hn⟩ <;> cases hn.symm.trans hx
  · exact (frame_raise s _).mono (by simp)
  · exact frame_after_cipher
      (((frame_setHdr _ _).append (frame_setCkAcc _ _)).append ((frame_setOut _ _).append (frame_succeed _))) (by simp)

/-- The result ports of `DECRYPT` (R247). -/
theorem frame_endDecrypt (s : State) (off : DWord) (h : Header) (a : Attempt) :
    UnchangedBut [.hdrMagic, .hdrLength, .hdrChecksum, .mdHeaderOffset, .mdStated, .mdReal, .mdFamily, .mrHit, .outBuf,
      .ckAcc, .mdVerified] s (s.endDecrypt off h a) :=
  (((((frame_setHdr s h).append (frame_setMd _ _)).append (frame_setMrHit _ _)).append (frame_setOut _ _)).append
    (frame_setCkAcc _ _)).append (frame_setVerified _ _)

theorem execDecrypt_frame (hx : exec .decrypt s = .next t) :
    UnchangedBut [.outBuf, .blkI, .afRegs, .afValid, .lcReg, .lcValid, .hdrMagic, .hdrLength, .hdrChecksum,
      .mdHeaderOffset, .mdStated, .mdReal, .mdFamily, .mrHit, .mdVerified, .ckAcc, .status] s t := by
  refine exec_frame_of_ready (by decide) (by decide) hx fun hi => ?_
  rcases execDecrypt_cases hi with ⟨_, _, hn⟩ | ⟨off, h, payload, before, x, _, _, _, _, _, hn⟩ <;>
    cases hn.symm.trans hx
  · exact (frame_raise s _).mono (by simp)
  · have hend := (frame_afterTrials h.checksum payload (before ++ [x]) s).append
      (frame_endDecrypt _ off h (attempt s.rom h.checksum payload x))
    dsimp only
    split
    · exact (hend.append (frame_succeed _)).mono (by decide)
    · exact (hend.append (frame_raise _ _)).mono (by decide)

/-- Settles O56: the frames of the six commands; the two that seed one generator name the registers of its family, so
those of the other are as before. -/
theorem storingFrame : Obligations.StoringFrame := by
  refine fun s t => ⟨fun hx => ?_, command_storeOut_frame, execOfsPrefix_frame, command_storeOut_frame, fun hx => ?_,
    execDecrypt_frame⟩
  · have h := execKsApply_frame hx
    exact ⟨h.mono (by cases s.md.family <;> decide), h.other_family (by decide)⟩
  · have h := execEncrypt_frame hx
    exact ⟨h.mono (by cases s.md.family <;> decide), h.other_family (by decide)⟩

/-! ### The ROM and the queue -/

/-- A frame that names neither leaves `ROM` and the host's moves alone. -/
theorem UnchangedBut.rom_host {ps : List Port} (h : UnchangedBut ps s t) (hrom : .rom ∉ ps) (hhost : .host ∉ ps) :
    t.rom = s.rom ∧ t.host = s.host := ⟨h .rom hrom, h .host hhost⟩

theorem resetReport_rom_host (s : State) : s.resetReport.rom = s.rom ∧ s.resetReport.host = s.host := by
  unfold State.resetReport
  split <;> exact ⟨rfl, rfl⟩

/-- No command writes `ROM` or takes a move of the host: neither stands in its frame. -/
theorem exec_rom_host {i : Instr} (hx : exec i s = .next t) : t.rom = s.rom ∧ t.host = s.host := by
  cases i with
  | afSeed => exact (execAfSeed_frame hx).rom_host (by decide) (by decide)
  | afNext => exact (execAfNext_frame hx).rom_host (by decide) (by decide)
  | lcSeed => exact (execLcSeed_frame hx).rom_host (by decide) (by decide)
  | lcNext => exact (execLcNext_frame hx).rom_host (by decide) (by decide)
  | ksApply =>
    exact (execKsApply_frame hx).rom_host (by cases s.md.family <;> decide) (by cases s.md.family <;> decide)
  | hdrParse => exact (execHdrParse_frame hx).rom_host (by decide) (by decide)
  | hdrSer => exact (command_storeOut_frame hx).rom_host (by decide) (by decide)
  | ckVerify => exact (execCkVerify_frame hx).rom_host (by decide) (by decide)
  | ckCalc => exact (execCkCalc_frame hx).rom_host (by decide) (by decide)
  | mrLookup => exact (execMrLookup_frame hx).rom_host (by decide) (by decide)
  | ofsDetect => exact (execOfsDetect_frame hx).rom_host (by decide) (by decide)
  | ofsPrefix => exact (execOfsPrefix_frame hx).rom_host (by decide) (by decide)
  | ptDecode => exact (execPtDecode_frame hx).rom_host (by decide) (by decide)
  | ptEncode => exact (command_storeOut_frame hx).rom_host (by decide) (by decide)
  | decrypt => exact (execDecrypt_frame hx).rom_host (by decide) (by decide)
  | encrypt =>
    exact (execEncrypt_frame hx).rom_host (by cases s.md.family <;> decide) (by cases s.md.family <;> decide)
  | sysReset => cases hx; exact resetReport_rom_host s

theorem hostWrite_rom_host {w : HostWrite} (hw : hostWrite w s = .next t) : t.rom = s.rom ∧ t.host = s.host := by
  rcases hostWrite_cases hw with ⟨_, _, rfl⟩ | ⟨_, _, rfl⟩ | ⟨_, rfl⟩ | ⟨_, rfl⟩ <;> simp

theorem illegalCommand_rom_host {c : Byte} (hc : illegalCommand c s = .next t) : t.rom = s.rom ∧ t.host = s.host := by
  rcases guarded_cases hc with ⟨_, rfl⟩ | ⟨_, rfl⟩ <;> simp

/-- Settles O9: a move leaves `ROM` and the queue as it finds them, and it finds the queue without itself. -/
theorem romNeverWritten : Obligations.RomNeverWritten := by
  intro s t hstep
  rcases step_cases hstep with
    ⟨hh, rfl⟩ | ⟨_, _, hh, hw⟩ | ⟨_, _, _, hh, _, hx⟩ | ⟨_, _, hh, _, hc⟩ | ⟨_, hh, rfl⟩ <;> rw [hh]
  · exact ⟨rfl, rfl⟩
  · exact hostWrite_rom_host hw
  · exact exec_rom_host hx
  · exact illegalCommand_rom_host hc
  · exact ⟨rfl, rfl⟩

end Sys2Proof.Machine
end

section
/-! PROOFS. No generator register left by an earlier command is an input of a cipher command (spec/10_state.md R21). -/
namespace Sys2Proof.Machine

/-- The state with the generator registers of R22 to R26 cleared: two states agree here exactly where they differ in
those registers alone. -/
def State.withoutGens (s : State) : State :=
  { s with af := ⟨Vector.replicate 31 0#32, 0, 0⟩, afValid := false, lcS := 0, lcValid := false, rngOut := 0 }

section withoutGens
variable (s : State)
@[simp] theorem State.withoutGens_rom : s.withoutGens.rom = s.rom := (rfl)
@[simp] theorem State.withoutGens_md : s.withoutGens.md = s.md := (rfl)
@[simp] theorem State.withoutGens_hdr : s.withoutGens.hdr = s.hdr := (rfl)
@[simp] theorem State.withoutGens_inMem : s.withoutGens.inMem = s.inMem := (rfl)
@[simp] theorem State.withoutGens_twice : s.withoutGens.withoutGens = s.withoutGens := (rfl)
@[simp] theorem State.withoutGens_raise (e : Err) : (s.raise e).withoutGens = s.withoutGens.raise e := (rfl)
@[simp] theorem State.withoutGens_succeed : s.succeed.withoutGens = s.withoutGens.succeed := (rfl)
@[simp] theorem State.withoutGens_setOut (bs : List Byte) : (s.setOut bs).withoutGens = s.withoutGens.setOut bs := (rfl)
@[simp] theorem State.withoutGens_setHdr (x : Header) : (s.setHdr x).withoutGens = s.withoutGens.setHdr x := (rfl)
@[simp] theorem State.withoutGens_setCkAcc (x : Word) : (s.setCkAcc x).withoutGens = s.withoutGens.setCkAcc x := (rfl)
@[simp] theorem State.withoutGens_endDecrypt (off : DWord) (h : Header) (a : Attempt) :
    (s.endDecrypt off h a).withoutGens = s.withoutGens.endDecrypt off h a := (rfl)

/-- Which generator a pass leaves in its registers does not show. -/
@[simp] theorem State.withoutGens_endCipher (n : Nat) (g : Gen) :
    (s.endCipher n g).withoutGens = s.withoutGens.endPass n := by
  cases g <;> rfl

@[simp] theorem State.withoutGens_finish (r : Except Err State) :
    (s.finish r).withoutGens = s.withoutGens.finish (r.map State.withoutGens) := by
  cases r <;> rfl

@[simp] theorem State.withoutGens_storeOut (n : Nat) (bs : List Byte) :
    (s.storeOut n bs).map State.withoutGens = s.withoutGens.storeOut n bs := by
  unfold State.storeOut
  rw [State.withoutGens_rom]
  split <;> rfl

theorem frame_withoutGens : UnchangedBut [.afRegs, .afValid, .lcReg, .lcValid, .rngOut] s s.withoutGens := by
  refine .of_all fun p => ?_
  cases p <;> simp [Port.same, State.withoutGens, State.inLen, State.outLen]

end withoutGens

theorem UnchangedBut.symm {ps : List Port} {s t : State} (h : UnchangedBut ps s t) : UnchangedBut ps t s := by
  intro p hp
  have hs := h p hp
  cases p <;> simp_all [Port.same]

section
variable {s t u v : State}

/-- States that agree but for the generator registers have every other port the same. -/
theorem unchangedBut_of_withoutGens (h : t.withoutGens = u.withoutGens) :
    UnchangedBut [.afRegs, .afValid, .lcReg, .lcValid, .rngOut] t u :=
  (frame_withoutGens t).trans (h ▸ (frame_withoutGens u).symm)

/-! ### The cipher commands -/

/-- Two guarded commands whose bodies agree but for the generator registers do too. -/
theorem guarded_withoutGens {s' u' : State} (hb : s'.withoutGens = u'.withoutGens) (ht : guarded s s' = .next t)
    (hv : guarded s.withoutGens u' = .next v) : t.withoutGens = v.withoutGens := by
  rcases guarded_cases ht with ⟨hi, rfl⟩ | ⟨hi, rfl⟩
  · cases (guarded_ready (s := s.withoutGens) hi).symm.trans hv
    exact hb
  · cases (guarded_refused (s := s.withoutGens) hi).symm.trans hv
    rfl

theorem execKsApply_withoutGens (ht : exec .ksApply s = .next t) (hv : exec .ksApply s.withoutGens = .next v) :
    t.withoutGens = v.withoutGens := by
  refine guarded_withoutGens ?_ ht hv
  simp only [State.opFamily, State.opSeed, State.opLength, State.opIn, State.withoutGens_rom, State.withoutGens_md,
    State.withoutGens_hdr, State.withoutGens_inMem]
  cases ksApply s.rom s.md.family s.md.real s.hdr.length.toNat s.inMem.bytes with
  | error e => simp [Except.map]
  | ok r => simp

theorem execEncrypt_withoutGens (ht : exec .encrypt s = .next t) (hv : exec .encrypt s.withoutGens = .next v) :
    t.withoutGens = v.withoutGens := by
  refine guarded_withoutGens ?_ ht hv
  simp only [State.opIn, State.withoutGens_rom, State.withoutGens_md, State.withoutGens_inMem]
  cases encryptError s.rom s.md.headerOffset s.inMem.bytes.length with
  | some e => simp [Except.map]
  | none => cases ckCalc s.inMem.bytes <;> simp [Except.map]

/-- The trial loop reads the ROM of its state alone: its last attempt is the same in states of the same ROM. -/
theorem runTrials_attempt (c : Word) (payload : List Byte) (x : Trial) (xs : List Trial) (h : s.rom = u.rom) :
    (runTrials c payload x xs s).1 = (runTrials c payload x xs u).1 := by
  induction xs generalizing x s u with
  | nil => simp [runTrials, h]
  | cons y ys ih =>
    simp only [runTrials, h]
    split
    · rfl
    · exact ih y (by simp [h])

/-- But for the generator registers the trials leave the block cursor of one pass. -/
theorem runTrials_withoutGens (c : Word) (payload : List Byte) (x : Trial) (xs : List Trial) (s : State) :
    (runTrials c payload x xs s).2.withoutGens = s.withoutGens.endPass payload.length := by
  induction xs generalizing x s with
  | nil => simp [runTrials]
  | cons y ys ih =>
    simp only [runTrials]
    split
    · simp
    · rw [ih, State.withoutGens_endCipher]
      rfl

theorem execDecrypt_withoutGens (ht : exec .decrypt s = .next t) (hv : exec .decrypt s.withoutGens = .next v) :
    t.withoutGens = v.withoutGens := by
  refine guarded_withoutGens ?_ ht hv
  simp only [State.opIn, State.withoutGens_rom, State.withoutGens_inMem]
  cases decryptParse s.rom s.inMem.bytes with
  | error e => simp
  | ok r =>
    obtain ⟨off, h, payload⟩ := r
    simp only [runTrials_attempt h.checksum payload _ _ (State.withoutGens_rom s)]
    split <;> simp [runTrials_withoutGens]

/-- Settles O27: both runs agree, but for the generator registers, with the run from the state where
these are cleared. -/
theorem cipherIgnoresOldGenerators : Obligations.CipherIgnoresOldGenerators := by
  intro s t u x y z p q i hi ht hu
  apply unchangedBut_of_withoutGens
  simp only [List.mem_cons, List.not_mem_nil, or_false] at hi
  rcases hi with rfl | rfl | rfl
  · exact (execKsApply_withoutGens ht rfl).trans (execKsApply_withoutGens hu rfl).symm
  · exact (execEncrypt_withoutGens ht rfl).trans (execEncrypt_withoutGens hu rfl).symm
  · exact (execDecrypt_withoutGens ht rfl).trans (execDecrypt_withoutGens hu rfl).symm

end
end Sys2Proof.Machine
end

section
/-! PROOFS. The host's moves: codes that are refused, port writes, the reset signal; a lookup, and the generators'
refusal. -/
namespace Sys2Proof.Machine

variable {s : State} {rest : List HostMove}

/-! ### Codes -/

/-- A code that decodes is the code of what it decodes to: each row of the map is (R91). -/
theorem code_of_decodeCode {c : Byte} {i : Instr} (h : decodeCode c = .ok i) : i.code = c := by
  have hmap : ∀ x ∈ opcodeMap, x.2.code = x.1 := by decide
  unfold decodeCode at h
  split at h
  · rename_i j hj
    cases h
    obtain ⟨l₁, l₂, hl, _⟩ := List.lookup_eq_some_iff.mp hj
    exact hmap (c, i) (by simp [hl])
  · cases h

/-- A code that is no command's is illegal (R93). -/
theorem decodeCode_illegal {c : Byte} (h : ∀ i : Instr, i.code ≠ c) : decodeCode c = .error (.illegalCode c) := by
  cases hl : opcodeMap.lookup c with
  | some i => exact absurd (code_of_decodeCode (by simp [decodeCode, hl])) (h i)
  | none => simp [decodeCode, hl]

/-- Issuing a code that is no command's reports it, on a ready block (R93). -/
theorem issue_illegal {c : Byte} (h : decodeCode c = .error (.illegalCode c)) (hi : s.initOk = true) :
    issue c s = .next ((s.latch c).raise (Err.illegalCommand c)) := by
  rcases issue_cases c s with ⟨_, hd, _⟩ | ⟨_, hrun⟩
  · cases hd.symm.trans h
  · exact hrun.trans (guarded_ready hi)

/-- On a block whose self-check failed every code but that of `SYS.RESET` is refused, legal or not (R276, R313). -/
theorem issue_refused {c : Byte} (h : c ≠ 0x7F#8) (hi : s.initOk = false) :
    issue c s = .next ((s.latch c).raise (Err.initFailed 0)) := by
  rcases issue_cases c s with ⟨i, hd, hrun⟩ | ⟨_, hrun⟩
  · have hne : i ≠ .sysReset := by
      rintro rfl
      exact h (code_of_decodeCode hd).symm
    exact hrun.trans (exec_refused hne hi)
  · exact hrun.trans (guarded_refused hi)

/-- A move changes the queue and what it changes in the block. -/
theorem frame_move {ps : List Port} {t : State} (h : UnchangedBut ps (s.setHost rest) t) :
    UnchangedBut (ps ++ [.host]) s t :=
  ((frame_setHost s rest).append h).mono (by simp [or_comm])

/-- A code that ends in an error changes `CMD` and the status ports alone (R32, R285). -/
theorem frame_latch_raise (s : State) (c : Byte) (e : Err) :
    UnchangedBut [.cmd, .status] s ((s.latch c).raise e) :=
  (frame_latch s c).append (frame_raise _ e)

/-- Settles O4: an illegal code on a ready block, any code but `0x7F` on one that is not. -/
theorem illegalAndUninitialisedCodesRefused : Obligations.IllegalAndUninitialisedCodesRefused := by
  intro s c rest hhost
  have hframe : ∀ e, UnchangedBut [.cmd, .status, .host] s (((s.setHost rest).latch c).raise e) := fun e =>
    frame_move (frame_latch_raise (s.setHost rest) c e)
  refine ⟨fun hi hc => ?_, fun hi hc => ?_⟩
  · have hcode : ∀ i : Instr, i.code ≠ c := by
      rintro i rfl
      exact hc (by cases i <;> decide)
    exact ⟨_, (step_move hhost).trans (issue_illegal (decodeCode_illegal hcode) hi),
      reports_raise _ rfl (by simp [Err.illegalCommand]) rfl, rfl, rfl, hframe _⟩
  · exact ⟨_, (step_move hhost).trans (issue_refused hc hi), reports_raise _ rfl rfl rfl, rfl, rfl, hframe _⟩

/-! ### Port writes -/

theorem length_lt_of_le_bufMax {rom : Config} {n : Nat} (h : n ≤ rom.bufMax.toNat) : n < 2 ^ 64 :=
  h.trans_lt rom.bufMax.isLt

theorem hostWrite_loadIn {bs : List Byte} (h : bs.length ≤ s.rom.bufMax.toNat) :
    hostWrite (.loadIn bs) s = .next (s.setIn bs) := if_neg (Nat.not_lt.mpr h)

theorem hostWrite_loadEnt {es : List Entry} (h : es.length < 2 ^ 64) :
    hostWrite (.loadEnt es) s = .next (s.setEnt es) := if_neg (Nat.not_le.mpr h)

/-- A load of `IN` gives it these bytes and their number (R33). -/
theorem inLen_setIn {bs : List Byte} (h : bs.length < 2 ^ 64) : (s.setIn bs).inLen.toNat = bs.length := by
  rw [State.inLen, State.setIn_inMem, Memory.length_ofBytes, BitVec.toNat_ofNat, Nat.mod_eq_of_lt h]

/-- Settles O5: each write by the meaning of the move, its frame by that of the register or buffer it writes. -/
theorem hostWritesOnePort : Obligations.HostWritesOnePort := by
  refine fun s rest => ⟨step_idle, fun bs hh hb => ?_, fun bs hh hb => ?_, fun es hh he => ?_, fun es hh he => ?_,
    fun v hh => ?_, fun v hh => ?_, fun v hh => ?_, fun v hh => ?_, fun v hh => ?_, fun v hh => ?_, fun v hh => ?_⟩
  · exact ⟨_, (step_move hh).trans (hostWrite_loadIn hb), Memory.read_ofBytes bs,
      inLen_setIn (length_lt_of_le_bufMax hb), rfl, frame_move (frame_setIn _ bs)⟩
  · exact (step_move hh).trans (if_pos hb)
  · exact ⟨_, (step_move hh).trans (hostWrite_loadEnt he), rfl, Nat.mod_eq_of_lt he, rfl,
      frame_move (frame_setEnt _ es)⟩
  · exact (step_move hh).trans (if_pos he)
  · exact ⟨_, step_move hh, rfl, rfl, frame_move (frame_setMd_headerOffset _ v)⟩
  · exact ⟨_, step_move hh, rfl, rfl, frame_move (frame_setMd_stated _ v)⟩
  · exact ⟨_, step_move hh, rfl, rfl, frame_move (frame_setMd_real _ v)⟩
  · exact ⟨_, step_move hh, rfl, rfl, frame_move (frame_setMd_family _ v)⟩
  · exact ⟨_, step_move hh, rfl, rfl, frame_move (frame_setHdr_magic _ v)⟩
  · exact ⟨_, step_move hh, rfl, rfl, frame_move (frame_setHdr_length _ v)⟩
  · exact ⟨_, step_move hh, rfl, rfl, frame_move (frame_setHdr_checksum _ v)⟩

/-! ### The reset signal -/

theorem AllZero.setHost (h : AllZero s) (ms : List HostMove) : AllZero (s.setHost ms) := { h with }

/-- Settles O11: the signal gives the reset state of the block's own ROM, the queue less that move. -/
theorem resetSignalResets : Obligations.ResetSignalResets := fun s _ hh =>
  ⟨_, step_move hh, (allZero_resetOf s.rom).setHost _, ⟨rfl, rfl, rfl⟩, rfl, rfl, resetOf_initOk_iff s.rom⟩

/-! ### The resolver -/

/-- Settles O39: the outcome of the lookup, a hit or a miss, is what the command writes. -/
theorem mrLookupResult : Obligations.MrLookupResult := by
  refine fun s hi hkeys => ⟨fun e he hmagic => ?_, fun hnone => ?_⟩
  · have hhit := mrLookup_hit (hmagic ▸ ovrFind_hit hkeys he)
    exact ⟨_, exec_mrLookup_ready hi hhit, rfl, rfl, rfl, rfl, endsOk_succeed _⟩
  · have hmiss := mrLookup_miss (ovrFind_miss hnone)
    exact ⟨_, exec_mrLookup_ready hi hmiss, rfl, rfl, rfl, rfl, endsOk_succeed _⟩

/-! ### The generators -/

theorem exec_afNext_unseeded (hi : s.initOk = true) (hv : s.afValid = false) :
    exec .afNext s = .next (s.raise (Err.generatorNotSeeded .af)) :=
  (congrArg (command s) (if_neg (by simp [hv]))).trans (command_error hi)

theorem exec_lcNext_unseeded (hi : s.initOk = true) (hv : s.lcValid = false) :
    exec .lcNext s = .next (s.raise (Err.generatorNotSeeded .lc)) :=
  (congrArg (command s) (if_neg (by simp [hv]))).trans (command_error hi)

/-- Settles O19: the error is raised on the state the command began in. -/
theorem unseededNextRefused : Obligations.UnseededNextRefused := fun s hi =>
  ⟨fun hv => ⟨_, exec_afNext_unseeded hi hv, reports_raise s rfl rfl rfl, frame_raise s _⟩,
   fun hv => ⟨_, exec_lcNext_unseeded hi hv, reports_raise s rfl rfl rfl, frame_raise s _⟩⟩

end Sys2Proof.Machine
end

section
/-! PROOFS. The checksum commands refuse an input that is not whole blocks (spec/20_memory.md R63). -/
namespace Sys2Proof.Machine

variable {s : State}

theorem exec_ckVerify_unaligned (hi : s.initOk = true) (h : s.inMem.length % 4 ≠ 0) :
    exec .ckVerify s = .next (s.raise (Err.notBlockAligned s.inMem.length)) := by
  rw [← Memory.length_bytes] at h ⊢
  rcases execCkVerify_cases hi with ⟨_, hn⟩ | ⟨h4, _⟩ | ⟨h4, _⟩
  · exact hn
  · exact absurd h4 h
  · exact absurd h4 h

theorem exec_ckCalc_unaligned (hi : s.initOk = true) (h : s.inMem.length % 4 ≠ 0) :
    exec .ckCalc s = .next (s.raise (Err.notBlockAligned s.inMem.length)) := by
  rw [← Memory.length_bytes] at h ⊢
  rcases ckCalc_cases s.opIn with ⟨_, he⟩ | ⟨h4, _⟩
  · change execCkCalc s = _
    rw [execCkCalc, he]
    exact command_error hi
  · exact absurd h4 h

/-- Settles O35: either command raises the error on the state it began in; by the invariant the length of `IN` fits in
the information word. -/
theorem unalignedChecksumRefused : Obligations.UnalignedChecksumRefused := by
  intro s hinv hi h i hmem
  have refused : exec i s = .next (s.raise (Err.notBlockAligned s.inMem.length)) := by
    simp only [List.mem_cons, List.not_mem_nil, or_false] at hmem
    rcases hmem with rfl | rfl
    · exact exec_ckVerify_unaligned hi h
    · exact exec_ckCalc_unaligned hi h
  exact ⟨_, refused, reports_raise s rfl (infoWord_fits hinv.inLen_lt) rfl, frame_raise s _⟩

end Sys2Proof.Machine
end

section
/-! PROOFS. The command encoding and the header encoding (spec/30_encoding.md R90 to R95): the opcode map read both ways,
and the two commands of the header codec on a ready block. -/
namespace Sys2Proof.Machine

variable {s : State}

/-! ### The command encoding -/

/-- The opcode map has a row for every command (R91). -/
theorem decodeCode_code (i : Instr) : decodeCode i.code = .ok i := by
  cases i <;> rfl

/-- Settles O1: the seventeen rows are those of the commands' codes, and a code off the list is no command's. -/
theorem opcodeMapDecodes : Obligations.OpcodeMapDecodes := by
  refine ⟨decodeCode_code .afSeed, decodeCode_code .afNext, decodeCode_code .lcSeed, decodeCode_code .lcNext,
    decodeCode_code .ksApply, decodeCode_code .hdrParse, decodeCode_code .hdrSer, decodeCode_code .ckVerify,
    decodeCode_code .ckCalc, decodeCode_code .mrLookup, decodeCode_code .ofsDetect, decodeCode_code .ofsPrefix,
    decodeCode_code .ptDecode, decodeCode_code .ptEncode, decodeCode_code .decrypt, decodeCode_code .encrypt,
    decodeCode_code .sysReset, fun c hc => decodeCode_illegal ?_⟩
  rintro i rfl
  exact hc (by cases i <;> decide)

/-- Decoding takes the code of a command off a byte string and leaves what follows it (R90). -/
theorem decode_encode_append (i : Instr) (rest : List Byte) : decode (encode i ++ rest) = .ok (i, rest) := by
  change decode (i.code :: rest) = _
  rw [decode, decodeCode_code]

/-- Settles O2: each command has a row in the opcode map, and each row holds the code of its command. -/
theorem decodeInvertsEncode : Obligations.DecodeInvertsEncode :=
  ⟨fun i rest _ => ⟨decode_encode_append i rest, rfl⟩, fun _ _ h => congrArg (· :: []) (code_of_decodeCode h)⟩

/-! ### The header codec -/

/-- `HDR.PARSE` on a ready block whose `IN` holds, at the header offset, a serialised header and a payload of the
length it declares, writes that header and ends well (R166, R167). -/
theorem exec_hdrParse_serialised {pre payload : List Byte} {h : Header} (hi : s.initOk = true)
    (hin : s.inMem.bytes = pre ++ hdrSer h ++ payload) (hpre : pre.length = s.md.headerOffset.toNat)
    (hlen : h.length.toNat = payload.length) (h4 : payload.length % 4 = 0) :
    exec .hdrParse s = .next (s.setHdr h).succeed := by
  have hdrop : s.opInFromHeader = hdrSer h ++ payload := by
    rw [State.opInFromHeader, State.opIn, hin, ← hpre, List.append_assoc, List.drop_left]
  have hparse : hdrParse s.opInFromHeader = .ok h := by
    rw [hdrop, hdrParse_ser, if_neg (not_not.mpr hlen), if_pos (hlen ▸ h4)]
  change execHdrParse s = _
  rw [execHdrParse, hparse]
  exact command_ok hi

/-- Settles O29: the twelve bytes are the serialised header of the numbers their fields stand for. -/
theorem hdrParseResult : Obligations.HdrParseResult := by
  intro s pre m l c payload hi hin hpre hm hl hc hlen h4
  obtain ⟨h, hser, hmagic, hlength, hchecksum⟩ := exists_fields hm hl hc
  exact ⟨_, exec_hdrParse_serialised hi (hser ▸ hin) hpre (hlength.trans hlen) h4, hmagic, hlength, hchecksum,
    endsOk_succeed _⟩

/-- `HDR.SER` on a ready block replaces `OUT` by the serialised header where it fits (R169). -/
theorem exec_hdrSer_fits (hi : s.initOk = true) (h : 12 ≤ s.rom.bufMax.toNat) :
    exec .hdrSer s = .next (s.setOut (hdrSer s.hdr)).succeed :=
  (congrArg (command s) (storeOut_fits h)).trans (command_ok hi)

/-- `HDR.SER` is refused where twelve bytes do not fit in `OUT` (R66, R169). -/
theorem exec_hdrSer_large (hi : s.initOk = true) (h : s.rom.bufMax.toNat < 12) :
    exec .hdrSer s = .next (s.raise (Err.lengthTooLarge 12 s.rom.bufMax)) :=
  (congrArg (command s) (storeOut_large h)).trans (command_error hi)

/-- Settles O31: `OUT` reads the bytes of the serialised header, or the error leaves it as it was. -/
theorem hdrSerResult : Obligations.HdrSerResult := by
  refine fun s hi => ⟨fun hfits => ?_, fun hlarge => ?_⟩
  · refine ⟨_, exec_hdrSer_fits hi hfits, fun a => ?_, rfl, endsOk_succeed _⟩
    exact (Memory.read_ofBytes (hdrSer s.hdr) a).trans (hdrSer_getElem? s.hdr a)
  · exact ⟨_, exec_hdrSer_large hi hlarge,
      reports_raise s rfl (infoWord_fits (n := 12) (by decide)) (by simp [Err.lengthTooLarge]), frame_raise s _⟩

end Sys2Proof.Machine
end

section
/-! PROOFS. The generator engines (spec/40_prng.md): the table fill, the additive-feedback step and its unrolling, the
linear-congruential step, and the commands that run them. -/
namespace Sys2Proof.Machine

/-! ### The recurrence of the table fill (R122, R126) -/

/-- The recurrence value of a signed word before the correction of its sign (R122). -/
def afRaw (x : Int) : Int := 16807 * Int.tmod x 127773 - 2836 * Int.tdiv x 127773

/-- The value is an odd function of the word: its range for negative words mirrors that for positive ones. -/
theorem afRaw_neg (x : Int) : afRaw (-x) = -afRaw x := by
  simp only [afRaw, Int.neg_tmod, Int.neg_tdiv]
  omega

/-- 2147483647 is `16807 * 127773 + 2836`, so the value differs from `16807 * x` by a multiple of it. -/
theorem afRaw_eq (x : Int) : afRaw x = 16807 * x - 2147483647 * Int.tdiv x 127773 := by
  have hx := Int.mul_tdiv_add_tmod x 127773
  unfold afRaw
  omega

theorem afRaw_range {x : Int} (h0 : 0 ≤ x) (h : x ≤ 2147483648) : -47664652 ≤ afRaw x ∧ afRaw x ≤ 2147464004 := by
  rw [afRaw, Int.tdiv_eq_ediv_of_nonneg h0, Int.tmod_eq_emod_of_nonneg h0]
  omega

theorem afRaw_range_neg {x : Int} (h0 : x < 0) (h : -2147483648 ≤ x) :
    -2147464004 ≤ afRaw x ∧ afRaw x ≤ 47664652 := by
  have hr := afRaw_range (x := -x) (by omega) (by omega)
  rw [afRaw_neg] at hr
  omega

/-- One range for the value of every word: one addition of 2147483647 makes a negative one non-negative. -/
theorem afRaw_bounds (w : Word) : -2147464004 ≤ afRaw w.toInt ∧ afRaw w.toInt ≤ 2147464004 := by
  have hlo : -2147483648 ≤ w.toInt := BitVec.le_toInt w
  have hhi : w.toInt < 2147483648 := BitVec.toInt_lt
  rcases lt_or_ge w.toInt 0 with h0 | h0
  · have := afRaw_range_neg h0 hlo
    omega
  · have := afRaw_range h0 hhi.le
    omega

/-- The word of the table after `w`, as a signed integer. -/
theorem afWord_toInt (w : Word) :
    (afWord w).toInt = if afRaw w.toInt < 0 then afRaw w.toInt + 2147483647 else afRaw w.toInt := by
  have hb := afRaw_bounds w
  change (BitVec.ofInt 32 (if afRaw w.toInt < 0 then afRaw w.toInt + 2147483647 else afRaw w.toInt)).toInt = _
  rw [BitVec.toInt_ofInt]
  exact Int.bmod_eq_of_le (by split <;> omega) (by split <;> omega)

/-- It is a remainder modulo 2147483647, for every word (R126 (b) says so of the positive ones). -/
theorem afWord_toInt_mod (w : Word) : (afWord w).toInt = 16807 * w.toInt % 2147483647 := by
  have hb := afRaw_bounds w
  have he := afRaw_eq w.toInt
  rw [afWord_toInt]
  split <;> omega

/-- Settles O23: the ranges of the value, and the word as a remainder modulo 2147483647. -/
theorem afRecurrenceNeverOverflows : Obligations.AfRecurrenceNeverOverflows := by
  intro w x y
  have hlo : -2147483648 ≤ x := BitVec.le_toInt w
  have hhi : x < 2147483648 := BitVec.toInt_lt
  have hmod : (afWord w).toInt = 16807 * x % 2147483647 := afWord_toInt_mod w
  exact ⟨fun h0 => afRaw_range h0 hhi.le, fun h0 => afRaw_range_neg h0 hlo, by omega, by omega, fun _ => hmod⟩

/-! ### The table fill -/

/-- Word `i` of the table is the recurrence applied `i` times. -/
theorem afWords_getElem (n : Nat) (w : Word) (i : Nat) (h : i < (afWords n w).length) :
    (afWords n w)[i] = afWord^[i] w := by
  induction n generalizing w i with
  | zero => exact absurd h (Nat.not_lt_zero i)
  | succ n ih =>
    cases i with
    | zero => rfl
    | succ i => exact ih (afWord w) i _

theorem afFill_getElem (seed : Word) (i : Nat) (h : i < 31) :
    (afFill seed)[i] = afWord^[i] (if seed = 0#32 then 1#32 else seed) :=
  afWords_getElem 31 _ i _

theorem afFill_succ (seed : Word) (i : Fin 30) : (afFill seed)[i.succ] = afWord (afFill seed)[i.castSucc] := by
  simp only [Fin.getElem_fin, Fin.val_succ, Fin.val_castSucc, afFill_getElem, Function.iterate_succ_apply']

/-- Seed 0 fills the table as seed 1 does. -/
theorem afFill_zero : afFill 0#32 = afFill 1#32 := by
  simp [afFill]

/-- Settles O17: the cursors advance with the warm-up from 3 and 0, and the fill takes seed 0 for 1. -/
theorem afSeedCursors : Obligations.AfSeedCursors := by
  intro warmup seed
  have cursors (n : Nat) : (afSeed n seed).f.val = (3 + n) % 31 ∧ (afSeed n seed).b.val = (0 + n) % 31 :=
    afSteps_cursors n ⟨afFill seed, 3, 0⟩
  obtain ⟨hf, hb⟩ := cursors warmup
  obtain ⟨hf309, hb309⟩ := cursors 309
  exact ⟨hf, hb.trans (by rw [Nat.zero_add]), hf309, hb309, by rw [afSeed, afFill_zero, afSeed]⟩

/-! ### One additive-feedback step (R124) -/

/-- The word a step writes under the front cursor. -/
theorem afNext_front (st : AfState) : (afNext st).2.r[st.f] = st.r[st.f] + st.r[st.b] := by
  simp

theorem afNext_other (st : AfState) {j : Fin 31} (h : j ≠ st.f) : (afNext st).2.r[j] = st.r[j] := by
  simp [Vector.getElem_set_ne, Fin.val_ne_of_ne h.symm]

/-- The output of a step as R124 writes it: an arithmetic shift and a mask. -/
theorem afNext_out_masked (st : AfState) :
    (afNext st).1 = BitVec.ofInt 32 ((st.r[st.f] + st.r[st.b]).toInt / 2) &&& 0x7FFFFFFF#32 := by
  rw [afNext, BitVec.sshiftRight_eq, Int.shiftRight_eq_div_pow, afMask]
  rfl

theorem afNext_out_toNat (st : AfState) : (afNext st).1.toNat = (st.r[st.f] + st.r[st.b]).toNat / 2 := by
  rw [afNext_out, BitVec.toNat_ushiftRight, Nat.shiftRight_eq_div_pow]

/-! ### The additive-feedback step unrolled (R124, R126 (c)) -/

/-- The generator holds the 31 words of the sequence `x` from number `k` on, read from the front cursor, and its rear
cursor is three behind. -/
def Unrolls (x : Nat → Word) (k : Nat) (st : AfState) : Prop :=
  st.b = st.f + 28 ∧ ∀ i j : Fin 31, j = st.f + i → st.r[j] = x (k + i.val)

section unroll
variable {x : Nat → Word} (hx : ∀ n, x (n + 31) = x n + x (n + 28))
include hx

/-- The sum of a step is the next word of the sequence. -/
theorem Unrolls.sum {k : Nat} {st : AfState} (h : Unrolls x k st) : st.r[st.f] + st.r[st.b] = x (k + 31) := by
  obtain ⟨hb, hr⟩ := h
  have hfront : st.r[st.f] = x k := hr 0 st.f (add_zero st.f).symm
  have hrear : st.r[st.b] = x (k + 28) := hr 28 st.b hb
  rw [hfront, hrear, hx]

/-- A step drops the oldest word of the sequence, under the front cursor, and writes the next one in its place. -/
theorem Unrolls.next {k : Nat} {st : AfState} (h : Unrolls x k st) : Unrolls x (k + 1) (afNext st).2 := by
  refine ⟨?_, fun i j hj => ?_⟩
  · rw [afNext_f, afNext_b, h.1, add_right_comm]
  · rw [afNext_f, add_assoc] at hj
    by_cases hi : i = 30
    · subst hi
      have hwrap : j = st.f := hj.trans (add_zero st.f)
      subst hwrap
      rw [afNext_front, h.sum hx]
      rfl
    · have hval : (1 + i).val = 1 + i.val := by
        rw [Fin.val_add, Fin.val_one]
        omega
      have hkept : j ≠ st.f := fun hjf => hi (eq_neg_of_add_eq_zero_right (left_eq_add.mp (hjf.symm.trans hj)))
      rw [afNext_other st hkept, h.2 (1 + i) j hj, hval, add_assoc]

theorem Unrolls.steps {st : AfState} (h : Unrolls x 0 st) (k : Nat) : Unrolls x k (afSteps k st) := by
  induction k with
  | zero => exact h
  | succ k ih => exact afSteps_succ k st ▸ ih.next hx

end unroll

/-- Settles O22: the sum of call `k` is word `31 + k` of the sequence. -/
theorem afStepsUnrollToRecurrence : Obligations.AfStepsUnrollToRecurrence := by
  intro r x hr hx k
  have hstart : Unrolls x 0 ⟨r, 3, 0⟩ := ⟨rfl, fun i j hj => by simp [hr, hj, add_comm]⟩
  rw [afNext_out, (hstart.steps hx k).sum hx, Nat.add_comm]

/-! ### The generator commands -/

variable {s : State}

theorem exec_afSeed_ready (hi : s.initOk = true) :
    exec .afSeed s = .next (s.putGen true (.af (afSeed s.rom.afWarmup s.md.real))).succeed :=
  command_ok hi

theorem exec_lcSeed_ready (hi : s.initOk = true) :
    exec .lcSeed s = .next (s.putGen true (.lc (lcSeed s.md.real))).succeed :=
  command_ok hi

theorem exec_afNext_seeded (hi : s.initOk = true) (hv : s.afValid = true) :
    exec .afNext s = .next ((s.setAf (afNext s.af).2).setRngOut (afNext s.af).1).succeed :=
  (congrArg (command s) (if_pos hv)).trans (command_ok hi)

theorem exec_lcNext_seeded (hi : s.initOk = true) (hv : s.lcValid = true) :
    exec .lcNext s = .next ((s.setLc (lcNext s.lcS).2).setRngOut (lcNext s.lcS).1).succeed :=
  (congrArg (command s) (if_pos hv)).trans (command_ok hi)

/-- Settles O16: the table is the fill, word by word the recurrence. -/
theorem afSeedResult : Obligations.AfSeedResult := by
  intro s hi
  refine ⟨_, afFill s.md.real, exec_afSeed_ready hi, afFill_getElem _ 0 (by decide), fun i => ?_, rfl, rfl,
    endsOk_succeed _⟩
  rw [afFill_succ]
  exact afWord_toInt _

/-- Settles O18: the registers hold the generator after one step, and `RNG_OUT` the output of that step. -/
theorem afNextResult : Obligations.AfNextResult := by
  intro s hi hv
  refine ⟨_, exec_afNext_seeded hi hv, ?_⟩
  simp only [State.succeed_af, State.succeed_rngOut, State.setRngOut_af, State.setRngOut_rngOut, State.setAf_af,
    afNext_front]
  exact ⟨BitVec.toNat_add _ _, fun j => afNext_other s.af, afNext_out_masked _, afNext_out_toNat _,
    Fin.val_add _ _, Fin.val_add _ _, endsOk_succeed _⟩

theorem lcSeed_toNat (seed : Word) : (lcSeed seed).toNat = (seed.toNat + (2 ^ 64 - 1)) % 2 ^ 64 := by
  have := seed.isLt
  simp only [lcSeed, BitVec.toNat_sub, BitVec.toNat_setWidth, BitVec.toNat_ofNat]
  omega

/-- Settles O20: the register holds the seeded state. -/
theorem lcSeedResult : Obligations.LcSeedResult := fun s hi =>
  ⟨_, exec_lcSeed_ready hi, lcSeed_toNat s.md.real, rfl, endsOk_succeed _⟩

/-- Settles O21: the register holds the state after one step, and `RNG_OUT` the output of that step. -/
theorem lcNextResult : Obligations.LcNextResult := fun s hi hv =>
  ⟨_, exec_lcNext_seeded hi hv, lcNext_state s.lcS, lcNext_out s.lcS, endsOk_succeed _⟩

/-- Settles O57: the commands write what the engines give. -/
theorem cipherRunsCommandEngines : Obligations.CipherRunsCommandEngines := fun _ hi =>
  ⟨⟨_, exec_afSeed_ready hi, rfl⟩, ⟨_, exec_lcSeed_ready hi, rfl⟩, fun hv => ⟨_, exec_afNext_seeded hi hv, rfl⟩,
    fun hv => ⟨_, exec_lcNext_seeded hi hv, rfl⟩⟩

end Sys2Proof.Machine
end

section
/-! PROOFS. `KS.APPLY` where it meets no error (spec/41_keystream_cipher.md R151 to R154): what it writes, and the bits
it passes through. -/
namespace Sys2Proof.Machine

variable {s t : State}

/-- The generator of the Metadata's family as the pass of `KS.APPLY` leaves it (R154). -/
def State.lastGen (s : State) : Gen := genAfter (s.opLength / 4) (Gen.seed s.rom s.opFamily s.opSeed)

theorem family_lastGen (s : State) : s.lastGen.family = s.md.family := by
  rw [State.lastGen, genAfter_family, Gen.family_seed, State.opFamily]

/-- The state `KS.APPLY` ends in where it meets no error (R153). -/
def State.ciphered (s : State) : State :=
  ((s.endCipher s.opLength s.lastGen).setOut
    (xorKey (Gen.seed s.rom s.opFamily s.opSeed) (s.opIn.take s.opLength))).succeed

theorem ciphered_outMem (s : State) :
    s.ciphered.outMem =
      Memory.ofBytes (xorKey (Gen.seed s.rom s.opFamily s.opSeed) (s.opIn.take s.opLength)) := rfl

theorem exec_ksApply_fits (hi : s.initOk = true) (h4 : s.opLength % 4 = 0) (hin : s.opLength ≤ s.inMem.length)
    (hout : s.opLength ≤ s.rom.bufMax.toNat) : exec .ksApply s = .next s.ciphered := by
  rcases execKsApply_cases hi with ⟨h, _⟩ | ⟨_, h, _⟩ | ⟨_, _, h, _⟩ | ⟨_, _, _, hn⟩
  · exact absurd h4 h
  · exact absurd h (Nat.not_lt.mpr hin)
  · exact absurd h (Nat.not_lt.mpr hout)
  · exact hn

/-- A pass that ends well met none of the three errors (R153). -/
theorem ksApply_ok (hi : s.initOk = true) (hx : exec .ksApply s = .next t) (hok : t.status = 0#32) :
    s.opLength % 4 = 0 ∧ s.opLength ≤ s.inMem.length ∧ s.opLength ≤ s.rom.bufMax.toNat ∧ t = s.ciphered := by
  rcases execKsApply_cases hi with ⟨_, hn⟩ | ⟨_, _, hn⟩ | ⟨_, _, _, hn⟩ | ⟨h4, hin, hout, hn⟩ <;>
    cases hn.symm.trans hx
  · exact absurd hok (raise_not_ok _ _)
  · exact absurd hok (raise_not_ok _ _)
  · exact absurd hok (raise_not_ok _ _)
  · exact ⟨h4, hin, hout, rfl⟩

/-- Below `L` each byte of `OUT` is that of `IN` XORed with the keystream byte, and nothing stands beyond (R151). -/
theorem read_ciphered (hwf : s.inMem.wf = true) (j : Nat) :
    s.ciphered.outMem.read j =
      if j < s.opLength then (s.inMem.read j).map (fun b => b ^^^ keyByte s.rom s.opFamily s.opSeed j) else none := by
  rw [ciphered_outMem, Memory.read_ofBytes, xorKey_getElem?, List.getElem?_take, Memory.read_eq hwf]
  split <;> rfl

theorem outLen_ciphered (hin : s.opLength ≤ s.inMem.length) : s.ciphered.outLen.toNat = s.opLength := by
  have hlen : s.ciphered.outMem.length = s.opLength := by
    rw [ciphered_outMem, Memory.length_ofBytes, xorKey_length, List.length_take, State.opIn, Memory.length_bytes]
    exact Nat.min_eq_left hin
  rw [State.outLen, hlen, BitVec.toNat_ofNat]
  exact Nat.mod_eq_of_lt (lt_trans s.hdr.length.isLt (by decide))

/-- The registers of the family used hold the last generator, with the valid flag clear (R154). -/
theorem holds_ciphered (s : State) : Holds s.lastGen s.ciphered := by
  unfold State.ciphered
  cases s.lastGen <;> exact ⟨rfl, rfl⟩

theorem frame_ciphered (s : State) : UnchangedBut (s.lastGen.ports ++ [.blkI, .outBuf, .status]) s s.ciphered := by
  rw [Gen.ports_eq]
  exact frame_after_cipher ((frame_setOut _ _).append (frame_succeed _)) rfl

/-- Settles O24: a pass that meets no error, byte by byte, with the generator of the family it used. -/
theorem ksApplyResult : Obligations.KsApplyResult := by
  refine ⟨fun _ => rfl, fun _ => rfl, fun _ _ => ⟨rfl, rfl⟩, fun s hi hwf h4 hin hout => ?_⟩
  refine ⟨_, exec_ksApply_fits hi h4 hin hout, read_ciphered hwf, outLen_ciphered hin, ?_, endsOk_succeed _⟩
  have hfam := family_lastGen s
  have hheld := holds_ciphered s
  have hframe := frame_ciphered s
  change match s.lastGen with | .af x => _ | .lc x => _
  generalize s.lastGen = g at hfam hheld hframe ⊢
  cases g <;> exact ⟨hfam.symm, hheld.1, hheld.2, hframe.mono (by simp [Gen.ports])⟩

/-- Bit 7 of the fourth byte of a keystream word is clear (R126 (d)). -/
theorem keyByte_top (rom : Config) (g : Family) (seed : Word) (k : Nat) :
    (keyByte rom g seed (4 * k + 3)).getLsbD 7 = false := by
  have hsmall : (keyWord rom g seed ((4 * k + 3) / 4)).toNat < 2 ^ 31 := Gen.next_small _
  have hmod : (4 * k + 3) % 4 = 3 := by omega
  rw [keyByte, hmod, BitVec.getLsbD_extractLsb', BitVec.getLsbD, Nat.testBit_lt_two_pow hsmall, Bool.and_false]

/-- Settles O28: the byte of `IN` there is XORed with one whose top bit is clear. -/
theorem cipherKeepsTopBits : Obligations.CipherKeepsTopBits := by
  refine ⟨Gen.next_small, fun s t hi hwf hx hok k hk => ?_⟩
  obtain ⟨_, _, _, rfl⟩ := ksApply_ok hi hx hok
  rw [read_ciphered hwf, if_pos (show 4 * k + 3 < s.opLength from hk), Option.map_map]
  congr 1
  funext b
  simp only [Function.comp_apply, BitVec.getLsbD_xor, keyByte_top, Bool.xor_false]

end Sys2Proof.Machine
end

section
/-! PROOFS. The errors of `KS.APPLY`, and the cipher as its own inverse (spec/41_keystream_cipher.md R153, R155). -/
namespace Sys2Proof.Machine

variable {s t : State}

/-! ### The three errors, in their order (R153) -/

theorem exec_ksApply_unaligned (hi : s.initOk = true) (h : s.opLength % 4 ≠ 0) :
    exec .ksApply s = .next (s.raise (Err.notBlockAligned s.opLength)) := by
  rcases execKsApply_cases hi with ⟨_, hn⟩ | ⟨h4, _⟩ | ⟨h4, _⟩ | ⟨h4, _⟩
  · exact hn
  · exact absurd h4 h
  · exact absurd h4 h
  · exact absurd h4 h

theorem exec_ksApply_short (hi : s.initOk = true) (h4 : s.opLength % 4 = 0) (h : s.inMem.length < s.opLength) :
    exec .ksApply s = .next (s.raise (Err.cipherInputShort s.opLength s.inMem.length)) := by
  rcases execKsApply_cases hi with ⟨h', _⟩ | ⟨_, _, hn⟩ | ⟨_, hin, _⟩ | ⟨_, hin, _⟩
  · exact absurd h4 h'
  · exact hn
  · exact absurd h (Nat.not_lt.mpr hin)
  · exact absurd h (Nat.not_lt.mpr hin)

theorem exec_ksApply_tooLong (hi : s.initOk = true) (h4 : s.opLength % 4 = 0) (hin : s.opLength ≤ s.inMem.length)
    (h : s.rom.bufMax.toNat < s.opLength) :
    exec .ksApply s = .next (s.raise (Err.lengthTooLarge s.opLength s.rom.bufMax)) := by
  rcases execKsApply_cases hi with ⟨h', _⟩ | ⟨_, h', _⟩ | ⟨_, _, _, hn⟩ | ⟨_, _, hout, _⟩
  · exact absurd h4 h'
  · exact absurd h' (Nat.not_lt.mpr hin)
  · exact hn
  · exact absurd h (Nat.not_lt.mpr hout)

/-- `HDR_LENGTH` has 32 bits, so it fits in an information word. -/
theorem infoWord_opLength (s : State) : infoWord s.opLength = BitVec.ofNat 64 s.opLength :=
  infoWord_fits (lt_trans s.hdr.length.isLt (by decide))

/-- Settles O25: each error is raised on the state the command began in, once the conditions of those before it fail. -/
theorem ksApplyErrors : Obligations.KsApplyErrors := by
  intro s hfit hi
  have hL := infoWord_opLength s
  have hlimit : s.rom.bufMax = BitVec.ofNat 64 s.rom.bufMax.toNat := by simp
  refine ⟨fun h => ?_, fun h4 h => ?_, fun h4 hin h => ?_⟩
  · exact ⟨_, exec_ksApply_unaligned hi h, reports_raise s rfl hL rfl, frame_raise s _⟩
  · exact ⟨_, exec_ksApply_short hi h4 h, reports_raise s rfl hL (infoWord_fits hfit), frame_raise s _⟩
  · exact ⟨_, exec_ksApply_tooLong hi h4 hin h, reports_raise s rfl hL hlimit, frame_raise s _⟩

/-! ### Two passes (R155) -/

@[simp] theorem ciphered_rom (s : State) : s.ciphered.rom = s.rom := by simp [State.ciphered]

@[simp] theorem ciphered_md (s : State) : s.ciphered.md = s.md := by simp [State.ciphered]

@[simp] theorem ciphered_hdr (s : State) : s.ciphered.hdr = s.hdr := by simp [State.ciphered]

@[simp] theorem ciphered_initOk (s : State) : s.ciphered.initOk = s.initOk := by simp [State.ciphered]

/-- The bytes of `OUT` after a pass: those of `IN` below `L`, XORed with the keystream (R151). -/
theorem bytes_ciphered (s : State) :
    s.ciphered.outMem.bytes = xorKey (Gen.seed s.rom s.opFamily s.opSeed) (s.opIn.take s.opLength) := by
  rw [ciphered_outMem, Memory.bytes_ofBytes]

theorem length_bytes_ciphered (hin : s.opLength ≤ s.inMem.length) : s.ciphered.outMem.bytes.length = s.opLength := by
  rw [bytes_ciphered, xorKey_length, List.length_take, State.opIn, Memory.length_bytes, Nat.min_eq_left hin]

/-- The state a second pass begins in: that after the first, with `OUT` loaded as `IN`. -/
def State.fedBack (s : State) : State := s.ciphered.setIn s.ciphered.outMem.bytes

theorem opLength_fedBack (s : State) : s.fedBack.opLength = s.opLength := by
  simp [State.fedBack, State.opLength]

/-- The second pass has the settings of the first, and so its keystream. -/
theorem seed_fedBack (s : State) :
    Gen.seed s.fedBack.rom s.fedBack.opFamily s.fedBack.opSeed = Gen.seed s.rom s.opFamily s.opSeed := by
  simp [State.fedBack, State.opFamily, State.opSeed]

theorem opIn_fedBack (s : State) : s.fedBack.opIn = s.ciphered.outMem.bytes := by
  simp [State.fedBack, State.opIn]

/-- A second pass XORs the same keystream with the bytes the first XORed with it. -/
theorem bytes_ciphered_fedBack (hin : s.opLength ≤ s.inMem.length) :
    s.fedBack.ciphered.outMem.bytes = s.inMem.bytes.take s.opLength := by
  rw [bytes_ciphered, seed_fedBack, opLength_fedBack, opIn_fedBack,
    List.take_of_length_le (length_bytes_ciphered hin).le, bytes_ciphered, xorKey_twice, State.opIn]

/-- Settles O26: the second pass meets no error, for it has the length of the first and just that many bytes. -/
theorem ksApplyTwiceRestores : Obligations.KsApplyTwiceRestores := by
  intro s t hi hx hok
  obtain ⟨h4, hin, hout, rfl⟩ := ksApply_ok hi hx hok
  have hinitOk : s.fedBack.initOk = true := by simp [State.fedBack, hi]
  have hlen : s.fedBack.inMem.length = s.fedBack.opLength := by
    rw [opLength_fedBack, State.fedBack, State.setIn_inMem, Memory.length_ofBytes, length_bytes_ciphered hin]
  have hrom : s.fedBack.rom = s.rom := by simp [State.fedBack]
  have second : exec .ksApply s.fedBack = .next s.fedBack.ciphered :=
    exec_ksApply_fits hinitOk (opLength_fedBack s ▸ h4) hlen.ge (by rw [hrom, opLength_fedBack]; exact hout)
  exact ⟨_, second, endsOk_succeed _, bytes_ciphered_fedBack hin⟩

end Sys2Proof.Machine
end

section
/-! PROOFS. The header codec: parsing and serialising undo each other (spec/42_header_codec.md R170); and the errors of
the two commands that parse a header, `HDR.PARSE` (R167) and `DECRYPT` (spec/47_pipeline.md R247). -/
namespace Sys2Proof.Machine

/-! ### The parser, one answer at a time (R166) -/

theorem hdrParse_ser_ok {h : Header} {payload : List Byte} (hlen : h.length.toNat = payload.length)
    (h4 : payload.length % 4 = 0) : hdrParse (hdrSer h ++ payload) = .ok h := by
  rw [hdrParse_ser, if_neg (not_not.mpr hlen), if_pos (hlen ▸ h4)]

theorem hdrParse_ser_mismatch {h : Header} {payload : List Byte} (hlen : h.length.toNat ≠ payload.length) :
    hdrParse (hdrSer h ++ payload) = .error (Err.lengthMismatch h.length payload.length) := by
  rw [hdrParse_ser, if_pos hlen]

theorem hdrParse_ser_unaligned {h : Header} {payload : List Byte} (hlen : h.length.toNat = payload.length)
    (h4 : payload.length % 4 ≠ 0) :
    hdrParse (hdrSer h ++ payload) = .error (Err.lengthNotMultipleOf4 h.length) := by
  rw [hdrParse_ser, if_neg (not_not.mpr hlen), if_neg (hlen ▸ h4)]

/-- Settles O32: a parse that succeeds says that the bytes are the serialised header and its payload. -/
theorem headerRoundTrip : Obligations.HeaderRoundTrip := by
  refine ⟨fun _ _ => hdrParse_ser_ok, fun t h hp => ?_⟩
  obtain ⟨payload, rfl, hlen, h4⟩ := hdrParse_ok hp
  refine ⟨List.take_left' (hdrSer_length h), ?_, hlen ▸ h4⟩
  rw [List.length_append, hdrSer_length, hlen, Nat.add_comm]

/-! ### A header at an offset of a file -/

/-- An offset beyond the end counts as no bytes available (R167). -/
theorem hdrParse_drop_short {file : List Byte} {off : Nat} (h : file.length < off + 12) :
    hdrParse (file.drop off) = .error (Err.headerTruncated (file.length - off)) := by
  have hshort : (file.drop off).length < 12 := by
    rw [List.length_drop]
    omega
  rw [hdrParse_short hshort, List.length_drop]

/-- What stands at the header offset of a file of some bytes, twelve header bytes and a payload: the
serialised header of some registers whose length is the number the length field stands for (R94). -/
theorem exists_header_at {file pre m l c payload : List Byte} {off : Nat}
    (hfile : file = pre ++ (m ++ l ++ c) ++ payload) (hpre : pre.length = off)
    (hm : m.length = 4) (hl : l.length = 4) (hc : c.length = 4) :
    ∃ h : Header, file.drop off = hdrSer h ++ payload ∧ h.length.toNat = leNumber l := by
  obtain ⟨h, hser, _, hlength, _⟩ := exists_fields hm hl hc
  exact ⟨h, by rw [hfile, hser, List.append_assoc, List.drop_left' hpre], hlength⟩

/-! ### Commands that reject their input -/

/-- The command reports this error and changes nothing else (60_exceptions.md R285). -/
def Rejects (i : Instr) (s : State) (kind cause info0 info1 : Nat) : Prop :=
  ∃ t, exec i s = .next t ∧ Reports t kind cause info0 info1 ∧ UnchangedBut [.status] s t

/-- Every error of the parser on the bytes from `off` on is raised by the command on the state it began in. -/
def RaisesParserErrors (i : Instr) (s : State) (off : Nat) : Prop :=
  ∀ e, hdrParse (s.inMem.bytes.drop off) = .error e → exec i s = .next (s.raise e)

variable {s : State} {i : Instr} {off : Nat}

theorem rejects_of_raise {e : Err} {kind cause info0 info1 : Nat} (hx : exec i s = .next (s.raise e))
    (hstatus : e.cause.status = BitVec.ofNat 32 (kind + 256 * cause)) (h0 : e.info0 = BitVec.ofNat 64 info0)
    (h1 : e.info1 = BitVec.ofNat 64 info1) : Rejects i s kind cause info0 info1 :=
  ⟨_, hx, reports_raise s hstatus h0 h1, frame_raise s e⟩

/-- A 32-bit length fits in an information word. -/
theorem infoWord_word_toNat (w : Word) : infoWord w.toNat = BitVec.ofNat 64 w.toNat :=
  infoWord_fits (lt_trans w.isLt (by decide))

/-- A 64-bit register shows in an information word as its number. -/
theorem dword_eq_ofNat_toNat (v : DWord) : v = BitVec.ofNat 64 v.toNat := by
  rw [BitVec.ofNat_toNat, BitVec.setWidth_eq]

theorem rejects_truncated (hraise : RaisesParserErrors i s off) (hfit : s.inMem.length < 2 ^ 64)
    (h : s.inMem.length < off + 12) : Rejects i s 1 0x02 (s.inMem.length - off) 12 := by
  rw [← Memory.length_bytes] at h hfit ⊢
  exact rejects_of_raise (hraise _ (hdrParse_drop_short h)) rfl
    (infoWord_fits (lt_of_le_of_lt (Nat.sub_le _ _) hfit)) (infoWord_fits (n := 12) (by decide))

theorem rejects_mismatch {h : Header} {payload : List Byte} (hraise : RaisesParserErrors i s off)
    (hfit : payload.length < 2 ^ 64) (hdrop : s.inMem.bytes.drop off = hdrSer h ++ payload)
    (hlen : h.length.toNat ≠ payload.length) : Rejects i s 1 0x03 h.length.toNat payload.length :=
  rejects_of_raise (hraise _ (hdrop ▸ hdrParse_ser_mismatch hlen)) rfl (infoWord_word_toNat _) (infoWord_fits hfit)

theorem rejects_unaligned {h : Header} {payload : List Byte} (hraise : RaisesParserErrors i s off)
    (hdrop : s.inMem.bytes.drop off = hdrSer h ++ payload) (hlen : h.length.toNat = payload.length)
    (h4 : payload.length % 4 ≠ 0) : Rejects i s 1 0x04 h.length.toNat 0 :=
  rejects_of_raise (hraise _ (hdrop ▸ hdrParse_ser_unaligned hlen h4)) rfl (infoWord_word_toNat _) rfl

/-- The payload is a part of `IN`, so its length fits in an information word where that of `IN` does. -/
theorem payload_fits {h : Header} {payload : List Byte} (hfit : s.inMem.length < 2 ^ 64)
    (hdrop : s.inMem.bytes.drop off = hdrSer h ++ payload) : payload.length < 2 ^ 64 := by
  have hlen := congrArg List.length hdrop
  rw [List.length_drop, Memory.length_bytes, List.length_append] at hlen
  omega

/-! ### `HDR.PARSE` (R167) -/

theorem exec_hdrParse_raises (hi : s.initOk = true) : RaisesParserErrors .hdrParse s s.md.headerOffset.toNat := by
  intro e he
  change hdrParse s.opInFromHeader = _ at he
  change execHdrParse s = _
  rw [execHdrParse, he]
  exact command_error hi

/-- Settles O30: each error is the parser's, raised on the state the command began in; by the invariant the lengths fit
in the information words. -/
theorem hdrParseErrors : Obligations.HdrParseErrors := by
  intro s hinv hi
  have hraise := exec_hdrParse_raises hi
  refine ⟨rejects_truncated hraise hinv.inLen_lt, fun pre m l c payload hin hpre hm hl hc => ?_⟩
  obtain ⟨h, hdrop, hlength⟩ := exists_header_at hin hpre hm hl hc
  rw [← hlength]
  exact ⟨rejects_mismatch hraise (payload_fits hinv.inLen_lt hdrop) hdrop, rejects_unaligned hraise hdrop⟩

/-! ### `DECRYPT` before its first trial (R247, 60_exceptions.md R275 (f)) -/

theorem ofsDetect_short {rom : Config} {file rest : List Byte} (hfile : file = marker ++ rest)
    (h : file.length < rom.containerOffset.toNat) :
    ofsDetect rom file = .error (Err.containerTooShort file.length rom.containerOffset) := by
  have hmarker : file.take 10 = marker := hfile ▸ List.take_left' rfl
  rcases ofsDetect_cases rom file with ⟨_, _, he⟩ | ⟨_, hlong, _⟩ | ⟨hm, _⟩
  · exact he
  · exact absurd h (Nat.not_lt.mpr hlong)
  · exact absurd hmarker hm

section decryptParse

variable {rom : Config} {file : List Byte} {start : DWord} {e : Err}

theorem decryptParse_detect_error (ho : ofsDetect rom file = .error e) : decryptParse rom file = .error e := by
  rw [decryptParse, ho]

theorem decryptParse_parse_error (ho : ofsDetect rom file = .ok start)
    (hp : hdrParse (file.drop start.toNat) = .error e) : decryptParse rom file = .error e := by
  simp only [decryptParse, ho, hp]

theorem decryptParse_tooLong {h : Header} (ho : ofsDetect rom file = .ok start)
    (hp : hdrParse (file.drop start.toNat) = .ok h) (hb : rom.bufMax.toNat < h.length.toNat) :
    decryptParse rom file = .error (Err.lengthTooLarge h.length.toNat rom.bufMax) := by
  simp only [decryptParse, ho, hp, if_pos hb]

end decryptParse

theorem exec_decrypt_error {e : Err} (hi : s.initOk = true) (he : decryptParse s.rom s.inMem.bytes = .error e) :
    exec .decrypt s = .next (s.raise e) := by
  rcases execDecrypt_cases hi with ⟨e', he', hn⟩ | ⟨_, _, _, _, _, _, hok, _⟩
  · cases he'.symm.trans he
    exact hn
  · cases hok.symm.trans he

theorem exec_decrypt_raises {start : DWord} (hi : s.initOk = true) (ho : ofsDetect s.rom s.inMem.bytes = .ok start) :
    RaisesParserErrors .decrypt s start.toNat :=
  fun _ he => exec_decrypt_error hi (decryptParse_parse_error ho he)

theorem decrypt_rejects_short {rest : List Byte} (hi : s.initOk = true) (hfit : s.inMem.length < 2 ^ 64)
    (hin : s.inMem.bytes = marker ++ rest) (h : s.inMem.length < s.rom.containerOffset.toNat) :
    Rejects .decrypt s 1 0x01 s.inMem.length s.rom.containerOffset.toNat := by
  rw [← Memory.length_bytes] at h hfit ⊢
  exact rejects_of_raise (exec_decrypt_error hi (decryptParse_detect_error (ofsDetect_short hin h))) rfl
    (infoWord_fits hfit) (dword_eq_ofNat_toNat _)

theorem decrypt_rejects_tooLong {start : DWord} {h : Header} {payload : List Byte} (hi : s.initOk = true)
    (ho : ofsDetect s.rom s.inMem.bytes = .ok start) (hdrop : s.inMem.bytes.drop start.toNat = hdrSer h ++ payload)
    (hlen : h.length.toNat = payload.length) (h4 : payload.length % 4 = 0) (hb : s.rom.bufMax.toNat < payload.length) :
    Rejects .decrypt s 3 0x44 payload.length s.rom.bufMax.toNat := by
  rw [← hlen] at hb ⊢
  have hparse : hdrParse (s.inMem.bytes.drop start.toNat) = .ok h := hdrop ▸ hdrParse_ser_ok hlen h4
  exact rejects_of_raise (exec_decrypt_error hi (decryptParse_tooLong ho hparse hb)) rfl (infoWord_word_toNat _)
    (dword_eq_ofNat_toNat _)

/-- Settles O50: the detector's error, the parser's three as of `HDR.PARSE`, and the length limit, each raised on the
state the command began in. -/
theorem decryptRejectsMalformed : Obligations.DecryptRejectsMalformed := by
  intro s hfit hi
  refine ⟨fun _ => decrypt_rejects_short hi hfit, fun start ho => ?_⟩
  have hraise := exec_decrypt_raises hi ho
  refine ⟨rejects_truncated hraise hfit, fun pre m l c payload hin hpre hm hl hc => ?_⟩
  obtain ⟨h, hdrop, hlength⟩ := exists_header_at hin hpre hm hl hc
  rw [← hlength]
  exact ⟨rejects_mismatch hraise (payload_fits hfit hdrop) hdrop, rejects_unaligned hraise hdrop,
    decrypt_rejects_tooLong hi ho hdrop⟩

end Sys2Proof.Machine
end

section
/-! PROOFS. The checksum commands on whole blocks (spec/43_checksum.md): what they write, and what a verification
detects. -/
namespace Sys2Proof.Machine

variable {s t : State}

/-! ### The two functions on whole blocks -/

theorem ckVerify_aligned {p : List Byte} (c : Word) (h : p.length % 4 = 0) :
    ckVerify c p =
      if settled (ckAccumulate c p) then .ok (ckAccumulate c p)
      else .error (Err.checksumMismatch (ckAccumulate c p)) :=
  if_pos ((blockAligned_iff _).mpr h)

theorem ckCalc_aligned {p : List Byte} (h : p.length % 4 = 0) :
    ckCalc p = .ok (ckSentinel - wordSum (blocks p)) := by
  rcases ckCalc_cases p with ⟨h', _⟩ | ⟨_, hc⟩
  · exact absurd h h'
  · exact hc

/-- From the checksum computed over a byte string, a verification of it settles (R185). -/
theorem ckAccumulate_computed (p : List Byte) : ckAccumulate (ckSentinel - wordSum (blocks p)) p = ckSentinel := by
  rw [ckAccumulate_eq, BitVec.sub_add_cancel]

/-- The wrapping sum does not depend on the order of the blocks. -/
theorem wordSum_perm {vs ws : List Word} (h : vs.Perm ws) : wordSum vs = wordSum ws := by
  induction h with
  | nil => rfl
  | cons w _ ih => rw [wordSum, wordSum, ih]
  | swap v w ws => simp only [wordSum, ← BitVec.add_assoc, BitVec.add_comm v w]
  | trans _ _ ih ih' => exact ih.trans ih'

/-- Settles O38: both functions read the blocks through their sum alone. -/
theorem checksumIgnoresBlockOrder : Obligations.ChecksumIgnoresBlockOrder := by
  intro c p q hp hq hperm
  have hsum := wordSum_perm hperm
  have hacc : ckAccumulate c p = ckAccumulate c q := by rw [ckAccumulate_eq, ckAccumulate_eq, hsum]
  exact ⟨by rw [ckVerify_aligned c hp, ckVerify_aligned c hq, hacc],
    by rw [ckCalc_aligned hp, ckCalc_aligned hq, hsum]⟩

/-! ### `CK.VERIFY` (R182) -/

/-- The state a verification that settles ends in. -/
def State.verified (s : State) : State := (s.endVerify s.opIn.length ckSentinel).succeed

/-- The state a verification that ends in another accumulator ends in. -/
def State.mismatched (s : State) (acc : Word) : State :=
  (s.endVerify s.opIn.length acc).raise (Err.checksumMismatch acc)

theorem exec_ckVerify_settles (hi : s.initOk = true) (h4 : s.inMem.length % 4 = 0)
    (hs : ckAccumulate s.hdr.checksum s.inMem.bytes = ckSentinel) : exec .ckVerify s = .next s.verified := by
  rw [← Memory.length_bytes] at h4
  rcases execCkVerify_cases hi with ⟨h, _⟩ | ⟨_, _, hn⟩ | ⟨_, h, _⟩
  · exact absurd h4 h
  · exact hn
  · exact absurd hs h

theorem exec_ckVerify_mismatch (hi : s.initOk = true) (h4 : s.inMem.length % 4 = 0)
    (hs : ckAccumulate s.hdr.checksum s.inMem.bytes ≠ ckSentinel) :
    exec .ckVerify s = .next (s.mismatched (ckAccumulate s.hdr.checksum s.inMem.bytes)) := by
  rw [← Memory.length_bytes] at h4
  rcases execCkVerify_cases hi with ⟨h, _⟩ | ⟨_, h, _⟩ | ⟨_, _, hn⟩
  · exact absurd h4 h
  · exact absurd h hs
  · exact hn

theorem verified_mdVerified (s : State) : s.verified.mdVerified = true :=
  decide_eq_true (Eq.refl ckSentinel)

theorem mismatched_mdVerified {acc : Word} (h : acc ≠ ckSentinel) : (s.mismatched acc).mdVerified = false :=
  decide_eq_false h

/-- A mismatch reports the accumulator and the sentinel, both widened to 64 bits (60_exceptions.md R272). -/
theorem reports_mismatched (s : State) (acc : Word) : Reports (s.mismatched acc) 2 0x20 acc.toNat 0xFFFFFFFF :=
  reports_raise _ rfl (BitVec.ofNat_toNat 64 acc).symm rfl

theorem frame_mismatched (s : State) (acc : Word) :
    UnchangedBut [.status, .ckAcc, .mdVerified, .blkI] s (s.mismatched acc) :=
  ((frame_endVerify s _ acc).append (frame_raise _ _)).mono (by simp)

/-- A verification that ends well was of whole blocks, and settled. -/
theorem ckVerify_ok (hi : s.initOk = true) (hx : exec .ckVerify s = .next t) (hok : t.status = 0#32) :
    s.inMem.length % 4 = 0 ∧ ckAccumulate s.hdr.checksum s.inMem.bytes = ckSentinel := by
  rw [← Memory.length_bytes]
  rcases execCkVerify_cases hi with ⟨_, hn⟩ | ⟨h4, hs, _⟩ | ⟨_, _, hn⟩
  · cases hn.symm.trans hx
    exact absurd hok (raise_not_ok _ _)
  · exact ⟨h4, hs⟩
  · cases hn.symm.trans hx
    exact absurd hok (raise_not_ok _ _)

/-- Settles O33: whether the accumulator settles decides between the two ends. -/
theorem ckVerifyResult : Obligations.CkVerifyResult := by
  intro s hi h4
  have hacc := ckAccumulate_toNat s.hdr.checksum s.inMem.bytes (by rwa [Memory.length_bytes])
  by_cases hs : ckAccumulate s.hdr.checksum s.inMem.bytes = ckSentinel
  · rw [hs] at hacc
    exact ⟨_, exec_ckVerify_settles hi h4 hs, hacc, fun _ => ⟨verified_mdVerified s, endsOk_succeed _⟩,
      fun h => absurd rfl h⟩
  · exact ⟨_, exec_ckVerify_mismatch hi h4 hs, hacc, fun h => absurd h hs,
      fun _ => ⟨mismatched_mdVerified hs, reports_mismatched s _⟩⟩

/-! ### `CK.CALC` (R184) -/

/-- The checksum of `IN` (R183). -/
def State.inChecksum (s : State) : Word := ckSentinel - wordSum (blocks s.inMem.bytes)

/-- The state a computation of it over whole blocks ends in. -/
def State.summed (s : State) : State :=
  (((s.setCkAcc s.inChecksum).setHdr { s.hdr with checksum := s.inChecksum }).endPass s.opIn.length).succeed

@[simp] theorem summed_checksum (s : State) : s.summed.hdr.checksum = s.inChecksum := by simp [State.summed]

@[simp] theorem summed_inMem (s : State) : s.summed.inMem = s.inMem := by simp [State.summed]

@[simp] theorem summed_initOk (s : State) : s.summed.initOk = s.initOk := by simp [State.summed]

theorem exec_ckCalc_aligned (hi : s.initOk = true) (h4 : s.inMem.length % 4 = 0) :
    exec .ckCalc s = .next s.summed := by
  have hc : ckCalc s.opIn = .ok s.inChecksum := ckCalc_aligned ((Memory.length_bytes s.inMem).symm ▸ h4)
  change execCkCalc s = _
  rw [execCkCalc, hc]
  exact command_ok hi

/-- A computation that ends well was over whole blocks. -/
theorem ckCalc_ok (hi : s.initOk = true) (hx : exec .ckCalc s = .next t) (hok : t.status = 0#32) :
    s.inMem.length % 4 = 0 ∧ t = s.summed := by
  by_cases h4 : s.inMem.length % 4 = 0
  · cases (exec_ckCalc_aligned hi h4).symm.trans hx
    exact ⟨h4, rfl⟩
  · cases (exec_ckCalc_unaligned hi h4).symm.trans hx
    exact absurd hok (raise_not_ok _ _)

/-- Settles O34: the accumulator from the computed checksum on is the sentinel, and a sum of numbers as well. -/
theorem ckCalcResult : Obligations.CkCalcResult := by
  intro s hi h4
  have hsum := ckAccumulate_toNat s.inChecksum s.inMem.bytes (by rwa [Memory.length_bytes])
  have hacc : ckAccumulate s.inChecksum s.inMem.bytes = ckSentinel := ckAccumulate_computed _
  exact ⟨_, exec_ckCalc_aligned hi h4, hsum.symm.trans (congrArg BitVec.toNat hacc), rfl, endsOk_succeed _⟩

/-- Settles O36: the verification starts from the checksum in `HDR_CHECKSUM`, over the same `IN`. -/
theorem computedChecksumVerifies : Obligations.ComputedChecksumVerifies := by
  intro s t hi hx hok
  obtain ⟨h4, rfl⟩ := ckCalc_ok hi hx hok
  have hacc : ckAccumulate s.summed.hdr.checksum s.summed.inMem.bytes = ckSentinel := by
    rw [summed_checksum, summed_inMem, State.inChecksum, ckAccumulate_computed]
  have second : exec .ckVerify s.summed = .next s.summed.verified :=
    exec_ckVerify_settles (by rwa [summed_initOk]) (by rwa [summed_inMem]) hacc
  exact ⟨_, second, endsOk_succeed _, verified_mdVerified _, rfl⟩

/-! ### A changed byte (R186) -/

/-- Replacing the byte at an offset replaces its term of the byte-by-byte sum. -/
theorem byteSumFrom_set {p : List Byte} {k : Nat} {b : Byte} (hb : p[k]? = some b) (x : Byte) (n : Nat) :
    byteSumFrom n (p.set k x) + b.toNat * 256 ^ ((n + k) % 4) =
      byteSumFrom n p + x.toNat * 256 ^ ((n + k) % 4) := by
  induction p generalizing k n with
  | nil => cases hb
  | cons a p ih =>
    cases k with
    | zero =>
      cases hb
      rw [List.set_cons_zero, byteSumFrom_cons, byteSumFrom_cons]
      simp only [Nat.add_zero]
      omega
    | succ k =>
      have ih := ih hb (n + 1)
      rw [Nat.add_right_comm, Nat.add_assoc] at ih
      rw [List.set_cons_succ, byteSumFrom_cons, byteSumFrom_cons]
      omega

/-- Two bytes differ by less than 256, so at each of the four weights they differ modulo 2^32. -/
theorem byte_eq_of_weighted_sum_mod_eq {b x r : Nat} (hb : b < 256) (hx : x < 256) (hr : r < 4) {m n : Nat}
    (hmn : m + b * 256 ^ r = n + x * 256 ^ r) (hmod : m % 2 ^ 32 = n % 2 ^ 32) : x = b := by
  have : r = 0 ∨ r = 1 ∨ r = 2 ∨ r = 3 := by omega
  rcases this with rfl | rfl | rfl | rfl <;> omega

/-- Replacing one byte by another changes the accumulator, whatever the two bytes are. -/
theorem ckAccumulate_set_ne {p : List Byte} {k : Nat} {b x : Byte} (c : Word) (h4 : p.length % 4 = 0)
    (hb : p[k]? = some b) (hx : x ≠ b) : ckAccumulate c (p.set k x) ≠ ckAccumulate c p := by
  intro heq
  have hmod := congrArg BitVec.toNat heq
  rw [ckAccumulate_toNat c _ (by rwa [List.length_set]), ckAccumulate_toNat c p h4] at hmod
  have hset := byteSumFrom_set hb x 0
  rw [← byteSum_eq, ← byteSum_eq] at hset
  refine hx (BitVec.eq_of_toNat_eq (byte_eq_of_weighted_sum_mod_eq b.isLt x.isLt (Nat.mod_lt (0 + k) (by decide))
    (m := c.toNat + byteSum (p.set k x)) (n := c.toNat + byteSum p) ?_ hmod))
  rw [Nat.add_assoc, hset, Nat.add_assoc]

/-- Flipping a bit of a byte changes it. -/
theorem xor_twoPow_ne (b : Byte) (j : Fin 8) : b ^^^ BitVec.twoPow 8 j.val ≠ b := by
  intro h
  have hbit := congrArg (BitVec.getLsbD · j.val) h
  simp at hbit

/-- Settles O37: a flipped bit is a changed byte, so the accumulator leaves the sentinel. -/
theorem singleBitFlipDetected : Obligations.SingleBitFlipDetected := by
  intro s t k b j hi hx hok hb
  obtain ⟨h4, hs⟩ := ckVerify_ok hi hx hok
  generalize hflip : s.inMem.bytes.set k (b ^^^ BitVec.twoPow 8 j.val) = flipped
  have hne : ckAccumulate s.hdr.checksum flipped ≠ ckSentinel := by
    rw [← hs, ← hflip]
    exact ckAccumulate_set_ne _ (by rwa [Memory.length_bytes]) hb (xor_twoPow_ne b j)
  have hin : (s.setIn flipped).inMem.bytes = flipped := by rw [State.setIn_inMem, Memory.bytes_ofBytes]
  have hlen : (s.setIn flipped).inMem.length % 4 = 0 := by
    rwa [← Memory.length_bytes, hin, ← hflip, List.length_set, Memory.length_bytes]
  have hacc : ckAccumulate (s.setIn flipped).hdr.checksum (s.setIn flipped).inMem.bytes ≠ ckSentinel := by
    rwa [hin, State.setIn_hdr]
  exact ⟨_, exec_ckVerify_mismatch hi hlen hacc, checksumMismatch_status, mismatched_mdVerified hacc⟩

end Sys2Proof.Machine
end

section
/-! PROOFS. What an error leaves unchanged (spec/60_exceptions.md R285). -/
namespace Sys2Proof.Machine

variable {s t : State}

/-- An error of `CK.VERIFY` on a ready block: of the length, on the state it began in; or of the sum (R182). -/
theorem ckVerify_failed (hi : s.initOk = true) (hx : exec .ckVerify s = .next t) (hs : t.status ≠ 0#32) :
    UnchangedBut [.status] s t ∨ ∃ acc ≠ ckSentinel, t = s.mismatched acc := by
  by_cases h4 : s.inMem.length % 4 = 0
  · by_cases hacc : ckAccumulate s.hdr.checksum s.inMem.bytes = ckSentinel
    · cases (exec_ckVerify_settles hi h4 hacc).symm.trans hx
      exact absurd rfl hs
    · cases (exec_ckVerify_mismatch hi h4 hacc).symm.trans hx
      exact .inr ⟨_, hacc, rfl⟩
  · cases (exec_ckVerify_unaligned hi h4).symm.trans hx
    exact .inl (frame_raise s _)

/-- An error of `DECRYPT` on a ready block: before its first trial, on the state it began in; or of the last trial's sum
(47_pipeline.md R248). -/
theorem decrypt_failed (hi : s.initOk = true) (hx : exec .decrypt s = .next t) (hs : t.status ≠ 0#32) :
    UnchangedBut [.status] s t ∨ (t.status = 0x00002002#32 ∧ t.mdVerified = false) := by
  rcases execDecrypt_cases hi with ⟨e, _, hn⟩ | ⟨off, h, payload, before, x, _, _, _, _, _, hn⟩ <;>
    cases hn.symm.trans hx
  · exact .inl (frame_raise s e)
  · by_cases hacc : (attempt s.rom h.checksum payload x).acc = ckSentinel
    · dsimp only at hs
      rw [if_pos hacc] at hs
      exact absurd rfl hs
    · dsimp only
      rw [if_neg hacc]
      exact .inr ⟨checksumMismatch_status, decide_eq_false hacc⟩

/-- Settles O15: a refusal and an error of `command`'s are raised on the state the command began in; the two commands
that are no `command` have the ends above. -/
theorem errorLeavesPortsUnchanged : Obligations.ErrorLeavesPortsUnchanged := by
  intro i s t hne hx hs
  cases hi : s.initOk with
  | false =>
    cases (exec_refused hne hi).symm.trans hx
    exact .inl (frame_raise s _)
  | true =>
    cases i with
    | ckVerify =>
      refine (ckVerify_failed hi hx hs).imp_right ?_
      rintro ⟨acc, hacc, rfl⟩
      exact .inl ⟨rfl, checksumMismatch_status, mismatched_mdVerified hacc, frame_mismatched s acc⟩
    | decrypt => exact (decrypt_failed hi hx hs).imp_right fun hend => .inr ⟨rfl, hend⟩
    | sysReset => exact absurd rfl hne
    | _ => exact .inl (command_error_frame hx hs)

end Sys2Proof.Machine
end

section
/-! PROOFS. `DECRYPT` on a file that its checks accept (spec/47_pipeline.md R246 to R248): the trials it makes, and what
it writes from the last of them. -/
namespace Sys2Proof.Machine

variable {s t : State}

/-! ### One trial (R246) -/

section attempt
variable {payload : List Byte} (h4 : payload.length % 4 = 0) (rom : Config) (c : Word) (x : Trial)
include h4

/-- The payload XORed with the keystream of the trial's family and seed, byte by byte. -/
theorem attempt_plain : (attempt rom c payload x).plain =
    payload.zipIdx.map (fun y => y.1 ^^^ keyByte rom x.family x.real y.2) := by
  rw [attempt_eq rom c payload x h4]
  rfl

theorem attempt_gen : (attempt rom c payload x).gen =
    genAfter (payload.length / 4) (Gen.seed rom x.family x.real) := by
  rw [attempt_eq rom c payload x h4]

theorem length_attempt_plain : (attempt rom c payload x).plain.length = payload.length := by
  rw [attempt_eq rom c payload x h4, xorKey_length]

theorem attempt_acc_toNat : (attempt rom c payload x).acc.toNat =
    (c.toNat + byteSum (attempt rom c payload x).plain) % 2 ^ 32 := by
  rw [attempt_eq rom c payload x h4]
  exact ckAccumulate_toNat c _ (by rwa [xorKey_length])

end attempt

/-! ### The registers of the two families (R154) -/

theorem Family.eq_other_of_ne : ∀ {f g : Family}, f ≠ g → f = g.other
  | .af, .lc, _ | .lc, .af, _ => rfl
  | .af, .af, h | .lc, .lc, h => absurd rfl h

/-- Trials of one family write its registers alone. -/
theorem frame_afterTrials_family {g : Family} (c : Word) (payload : List Byte) {ts : List Trial}
    (hg : ∀ y ∈ ts, y.family = g) (s : State) :
    UnchangedBut (Family.ports g ++ [.blkI]) s (afterTrials c payload ts s) := by
  induction ts generalizing s with
  | nil => exact .refl _ s
  | cons y ts ih =>
    have hpass := frame_endCipher s payload.length (attempt s.rom c payload y).gen
    rw [Gen.ports_eq, attempt_family, hg y List.mem_cons_self] at hpass
    exact hpass.trans (ih (fun z hz => hg z (List.mem_cons_of_mem _ hz)) _)

/-- A frame that names no generator register keeps a generator held. -/
theorem Holds.of_frame {g : Gen} {ps : List Port} (h : Holds g s) (hf : UnchangedBut ps s t)
    (hps : ∀ p ∈ ps, p ∉ [Port.afRegs, .afValid, .lcReg, .lcValid]) : Holds g t := by
  have hout : ∀ p ∈ [Port.afRegs, .afValid, .lcReg, .lcValid], p.same s t := fun p hm => hf p fun hp => hps p hp hm
  cases g with
  | af z => exact ⟨(hout .afRegs (by decide)).trans h.1, (hout .afValid (by decide)).trans h.2⟩
  | lc z => exact ⟨(hout .lcReg (by decide)).trans h.1, (hout .lcValid (by decide)).trans h.2⟩

/-! ### The state `DECRYPT` ends in -/

/-- A mismatch reports the accumulator and the sentinel (60_exceptions.md R272). -/
theorem reports_checksumMismatch (s : State) (acc : Word) :
    Reports (s.raise (Err.checksumMismatch acc)) 2 0x20 acc.toNat 0xFFFFFFFF :=
  reports_raise s rfl (BitVec.ofNat_toNat 64 acc).symm rfl

/-- The state `DECRYPT` ends in when its trials are those of `before` and then `x`: the result ports of the trial `x`,
and OK or `ChecksumError` as it settles or not (R247, R248). -/
def State.decrypted (s : State) (off : DWord) (h : Header) (payload : List Byte) (before : List Trial) (x : Trial) :
    State :=
  let a := attempt s.rom h.checksum payload x
  let t := (afterTrials h.checksum payload (before ++ [x]) s).endDecrypt off h a
  if a.acc = ckSentinel then t.succeed else t.raise (Err.checksumMismatch a.acc)

/-- On a file that the checks accept the trials of the plan are made in order, up to the first that settles or the last
(44_magic_resolver.md R199). -/
theorem exec_decrypt_accepted {off : DWord} {h : Header} {payload : List Byte} (hi : s.initOk = true)
    (hparse : decryptParse s.rom s.inMem.bytes = .ok (off, h, payload)) :
    ∃ before x after, mrPlan s.rom h.magic = before ++ x :: after ∧
      (∀ y ∈ before, (attempt s.rom h.checksum payload y).acc ≠ ckSentinel) ∧
      ((attempt s.rom h.checksum payload x).acc = ckSentinel ∨ after = []) ∧
      exec .decrypt s = .next (s.decrypted off h payload before x) := by
  rcases execDecrypt_cases hi with ⟨e, he, _⟩ | ⟨_, _, _, before, x, after, hok, hplan, hbefore, hlast, hx⟩
  · cases he.symm.trans hparse
  · cases hok.symm.trans hparse
    exact ⟨before, x, after, hplan, hbefore, hlast, hx⟩

section decrypted
variable (s : State) (off : DWord) (h : Header) (payload : List Byte) (before : List Trial) (x : Trial)

/-- The result ports are those of the last trial, however it ends (R247, R248). -/
theorem decrypted_ports :
    let a := attempt s.rom h.checksum payload x
    let t := s.decrypted off h payload before x
    t.hdr = h ∧ t.md = ⟨off, h.magic, x.real, x.family⟩ ∧ t.outMem = Memory.ofBytes a.plain ∧ t.ckAcc = a.acc ∧
      t.mdVerified = settled a.acc := by
  dsimp only
  unfold State.decrypted
  dsimp only
  split <;> exact ⟨rfl, rfl, rfl, rfl, rfl⟩

/-- `MR_HIT` is read off the table the block began with, which no trial writes. -/
theorem decrypted_mrHit : (s.decrypted off h payload before x).mrHit = (mrLookup s.rom h.magic).1 := by
  rw [← afterTrials_rom h.checksum payload (before ++ [x]) s]
  unfold State.decrypted
  dsimp only
  split <;> rfl

/-- What is done after the last trial writes no generator register. -/
theorem frame_decrypted_end :
    UnchangedBut [.hdrMagic, .hdrLength, .hdrChecksum, .mdHeaderOffset, .mdStated, .mdReal, .mdFamily, .mrHit, .outBuf,
      .ckAcc, .mdVerified, .status] (afterTrials h.checksum payload (before ++ [x]) s)
      (s.decrypted off h payload before x) := by
  have hend := frame_endDecrypt (afterTrials h.checksum payload (before ++ [x]) s) off h
    (attempt s.rom h.checksum payload x)
  unfold State.decrypted
  dsimp only
  split
  · exact hend.append (frame_succeed _)
  · exact hend.append (frame_raise _ _)

variable {s off h payload before x}

theorem endsOk_decrypted (hs : (attempt s.rom h.checksum payload x).acc = ckSentinel) :
    EndsOk (s.decrypted off h payload before x) := by
  rw [State.decrypted, if_pos hs]
  exact endsOk_succeed _

theorem reports_decrypted (hs : (attempt s.rom h.checksum payload x).acc ≠ ckSentinel) :
    Reports (s.decrypted off h payload before x) 2 0x20 (attempt s.rom h.checksum payload x).acc.toNat 0xFFFFFFFF := by
  rw [State.decrypted, if_neg hs]
  exact reports_checksumMismatch _ _

/-- Each family tried holds the generator of its trial, with the valid flag clear (R154). -/
theorem holds_decrypted (hfam : ((before ++ [x]).map Trial.family).Nodup) (h4 : payload.length % 4 = 0) :
    ∀ y ∈ before ++ [x], Holds (genAfter (payload.length / 4) (Gen.seed s.rom y.family y.real))
      (s.decrypted off h payload before x) := by
  intro y hy
  rw [← attempt_gen h4 s.rom h.checksum y]
  exact (holds_afterTrials h.checksum payload (before ++ [x]) s hfam y hy).of_frame
    (frame_decrypted_end s off h payload before x) (by decide)

/-- Where every trial is of one family, those of the other are as before (R154). -/
theorem frame_decrypted_family {g : Family} (hg : ∀ y ∈ before ++ [x], y.family = g) :
    (g = .af → (s.decrypted off h payload before x).lcS = s.lcS ∧
      (s.decrypted off h payload before x).lcValid = s.lcValid) ∧
    (g = .lc → (s.decrypted off h payload before x).af = s.af ∧
      (s.decrypted off h payload before x).afValid = s.afValid) := by
  have hframe := (frame_afterTrials_family h.checksum payload hg s).append
    (frame_decrypted_end s off h payload before x)
  rw [List.append_assoc] at hframe
  exact hframe.other_family (by decide)

end decrypted


/-- The trials made are of different families, for those of the plan are. -/
theorem families_nodup_of_plan {rom : Config} {m : Word} {before after : List Trial} {x : Trial}
    (hplan : mrPlan rom m = before ++ x :: after) : ((before ++ [x]).map Trial.family).Nodup := by
  have hall := mrPlan_families rom m
  rw [hplan, List.append_cons, List.map_append] at hall
  exact hall.of_append_left

/-- Settles O51: the trials made are the plan's up to `x`. Their accumulators, as numbers, are the sums the statement
speaks of, so a trial settles where its sum is the sentinel; and every port is that of the state the command ends in. -/
theorem decryptResult : Obligations.DecryptResult := by
  intro s off h hi ho hp hb payload plain acc
  have hparse : decryptParse s.rom s.inMem.bytes = .ok (off, h, payload) := decryptParse_ok ho hp hb
  obtain ⟨_, _, _, _, hlen, h4⟩ := decryptParse_inv hparse
  have hplain : ∀ y, (attempt s.rom h.checksum payload y).plain = plain y := attempt_plain h4 s.rom h.checksum
  have hacc : ∀ y, (attempt s.rom h.checksum payload y).acc.toNat = acc y := fun y => by
    rw [attempt_acc_toNat h4, hplain]
  have hsettles : ∀ y, acc y = 0xFFFFFFFF ↔ (attempt s.rom h.checksum payload y).acc = ckSentinel := fun y =>
    hacc y ▸ BitVec.toNat_inj (y := ckSentinel)
  obtain ⟨before, x, after, hplan, hbefore, hlast, hx⟩ := exec_decrypt_accepted hi hparse
  obtain ⟨hhdr, hmd, hout, hck, hver⟩ := decrypted_ports s off h payload before x
  have hheld := holds_decrypted (s := s) (off := off) (h := h) (families_nodup_of_plan hplan) h4
  rw [hlen] at hheld
  refine ⟨s.decrypted off h payload before x, before, x, after, hx, hplan,
    fun y hy => mt (hsettles y).mp (hbefore y hy), hlast.imp_left (hsettles x).mpr, hhdr, hmd,
    decrypted_mrHit s off h payload before x, hplain x ▸ hout, ?_, hck ▸ hacc x, fun hs => ?_, fun hs => ?_, ?_, ?_, ?_⟩
  · rw [State.outLen, hout, Memory.length_ofBytes, length_attempt_plain h4, hlen, BitVec.ofNat_toNat]
  · have hs := (hsettles x).mp hs
    exact ⟨hver.trans (decide_eq_true hs), endsOk_decrypted hs⟩
  · have hs := mt (hsettles x).mpr hs
    exact ⟨hver.trans (decide_eq_false hs), hacc x ▸ reports_decrypted hs⟩
  · rintro _ ⟨y, hy, rfl⟩
    have hg := hheld y hy
    have hfam : (genAfter (h.length.toNat / 4) (Gen.seed s.rom y.family y.real)).family = y.family := by
      rw [genAfter_family, Gen.family_seed]
    generalize genAfter (h.length.toNat / 4) (Gen.seed s.rom y.family y.real) = gen at hg hfam
    rw [← hfam]
    cases gen <;> exact hg.2
  · intro y hy
    have hg := hheld y hy
    generalize genAfter (h.length.toNat / 4) (Gen.seed s.rom y.family y.real) = gen at hg ⊢
    cases gen <;> exact hg.1
  · intro g hg
    have hother := frame_decrypted_family (off := off) (h := h) (payload := payload) (s := s)
      fun y hy => Family.eq_other_of_ne (hg y hy)
    cases g with
    | af => exact hother.2 rfl
    | lc => exact hother.1 rfl

end Sys2Proof.Machine
end

section
/-! PROOFS. The container offset detector and the prefix generator as commands (spec/45_offset_detector.md R210 to
R213). -/
namespace Sys2Proof.Machine

variable {s : State}

/-! ### `OFS.DETECT` (R211) -/

theorem ofsDetect_long {rom : Config} {file rest : List Byte} (hfile : file = marker ++ rest)
    (h : rom.containerOffset.toNat ≤ file.length) : ofsDetect rom file = .ok rom.containerOffset := by
  have hmarker : file.take 10 = marker := hfile ▸ List.take_left' rfl
  rcases ofsDetect_cases rom file with ⟨_, hshort, _⟩ | ⟨_, _, hok⟩ | ⟨hm, _⟩
  · exact absurd h (Nat.not_le.mpr hshort)
  · exact hok
  · exact absurd hmarker hm

theorem ofsDetect_unmarked {rom : Config} {file : List Byte} (h : file.take 10 ≠ marker) :
    ofsDetect rom file = .ok 0 := by
  rcases ofsDetect_cases rom file with ⟨hm, _⟩ | ⟨hm, _⟩ | ⟨_, hok⟩
  · exact absurd hm h
  · exact absurd hm h
  · exact hok

theorem exec_ofsDetect_ok {off : DWord} (hi : s.initOk = true) (ho : ofsDetect s.rom s.inMem.bytes = .ok off) :
    exec .ofsDetect s = .next (s.setMd { s.md with headerOffset := off }).succeed := by
  change execOfsDetect s = _
  rw [execOfsDetect, State.opIn, ho]
  exact command_ok hi

theorem exec_ofsDetect_error {e : Err} (hi : s.initOk = true) (he : ofsDetect s.rom s.inMem.bytes = .error e) :
    exec .ofsDetect s = .next (s.raise e) := by
  change execOfsDetect s = _
  rw [execOfsDetect, State.opIn, he]
  exact command_error hi

/-- Settles O41: the detector's offset is written to the Metadata, or its error is raised on the state the command began
in; by the invariant the length of `IN` fits in an information word. -/
theorem ofsDetectResult : Obligations.OfsDetectResult := by
  intro s hinv hi
  have hfit := hinv.inLen_lt
  rw [← Memory.length_bytes] at hfit ⊢
  refine ⟨fun rest hin => ⟨fun hlong => ?_, fun hshort => ?_⟩, fun hunmarked => ?_⟩
  · exact ⟨_, exec_ofsDetect_ok hi (ofsDetect_long hin hlong), rfl, endsOk_succeed _⟩
  · exact rejects_of_raise (exec_ofsDetect_error hi (ofsDetect_short hin hshort)) rfl (infoWord_fits hfit)
      (dword_eq_ofNat_toNat _)
  · exact ⟨_, exec_ofsDetect_ok hi (ofsDetect_unmarked hunmarked), rfl, endsOk_succeed _⟩

/-! ### `OFS.PREFIX` (R213) -/

theorem ofsPrefix_accepted {off : DWord} (h : off.toNat = 0 ∨ 10 ≤ off.toNat) :
    ofsPrefix off = .ok (ofsFiller off) := by
  rcases ofsPrefix_cases off with ⟨hpos, hlt, _⟩ | ⟨_, hok⟩
  · omega
  · exact hok

theorem ofsPrefix_refused {off : DWord} (hpos : 0 < off.toNat) (hlt : off.toNat < 10) :
    ofsPrefix off = .error (Err.badHeaderOffset off) := by
  rcases ofsPrefix_cases off with ⟨_, _, he⟩ | ⟨h, _⟩
  · exact he
  · omega

/-- With an offset the generator accepts the command is one store of the prefix to `OUT`. -/
theorem exec_ofsPrefix_accepted (h : s.md.headerOffset.toNat = 0 ∨ 10 ≤ s.md.headerOffset.toNat) :
    exec .ofsPrefix s = command s (s.storeOut s.md.headerOffset.toNat (ofsFiller s.md.headerOffset)) := by
  change execOfsPrefix s = _
  rw [execOfsPrefix, ofsPrefix_accepted h]

theorem exec_ofsPrefix_refused (hi : s.initOk = true) (hpos : 0 < s.md.headerOffset.toNat)
    (hlt : s.md.headerOffset.toNat < 10) :
    exec .ofsPrefix s = .next (s.raise (Err.badHeaderOffset s.md.headerOffset)) := by
  change execOfsPrefix s = _
  rw [execOfsPrefix, ofsPrefix_refused hpos hlt]
  exact command_error hi

/-- The prefix replaces `OUT` where it fits (R66). -/
theorem exec_ofsPrefix_fits (hi : s.initOk = true) (h : s.md.headerOffset.toNat = 0 ∨ 10 ≤ s.md.headerOffset.toNat)
    (hb : s.md.headerOffset.toNat ≤ s.rom.bufMax.toNat) :
    exec .ofsPrefix s = .next (s.setOut (ofsFiller s.md.headerOffset)).succeed := by
  rw [exec_ofsPrefix_accepted h, storeOut_fits hb]
  exact command_ok hi

/-- The command is refused where the prefix does not fit (R66). -/
theorem exec_ofsPrefix_large (hi : s.initOk = true) (h : 10 ≤ s.md.headerOffset.toNat)
    (hb : s.rom.bufMax.toNat < s.md.headerOffset.toNat) :
    exec .ofsPrefix s = .next (s.raise (Err.lengthTooLarge s.md.headerOffset.toNat s.rom.bufMax)) := by
  rw [exec_ofsPrefix_accepted (.inr h), storeOut_large hb]
  exact command_error hi

/-- Settles O42: `OUT` reads the bytes of the prefix, or the error leaves it as it was. -/
theorem ofsPrefixResult : Obligations.OfsPrefixResult := by
  intro s hi off
  refine ⟨fun hoff hfits => ?_, fun hpos hlt => ?_, fun hoff hlarge => ?_⟩
  · refine ⟨_, exec_ofsPrefix_fits hi hoff hfits, fun a => ?_, ?_, endsOk_succeed _⟩
    · exact (Memory.read_ofBytes _ a).trans (ofsFiller_getElem? hoff a)
    · simp [State.outLen, ofsFiller_length hoff]
  · exact rejects_of_raise (exec_ofsPrefix_refused hi hpos hlt) rfl (dword_eq_ofNat_toNat _) rfl
  · exact rejects_of_raise (exec_ofsPrefix_large hi hoff hlarge) rfl (infoWord_fits s.md.headerOffset.isLt)
      (dword_eq_ofNat_toNat _)

end Sys2Proof.Machine
end

section
/-! PROOFS. The plaintext codec as commands (spec/46_plaintext_codec.md R226 to R232). -/
namespace Sys2Proof.Machine

variable {s t : State}

/-! ### `PT.DECODE` (R226, R227) -/

theorem exec_ptDecode_ok {es : List Entry} (hi : s.initOk = true) (hd : ptDecode s.inMem.bytes = .ok es) :
    exec .ptDecode s = .next (s.setEnt es).succeed := by
  change execPtDecode s = _
  rw [execPtDecode, State.opIn, hd]
  exact command_ok hi

theorem exec_ptDecode_error {e : Err} (hi : s.initOk = true) (hd : ptDecode s.inMem.bytes = .error e) :
    exec .ptDecode s = .next (s.raise e) := by
  change execPtDecode s = _
  rw [execPtDecode, State.opIn, hd]
  exact command_error hi

/-- Settles O43: acceptable segments decode to their entries, which the command stores. -/
theorem ptDecodeResult : Obligations.PtDecodeResult := by
  intro s segs hi hne hnul hin hok
  exact ⟨_, exec_ptDecode_ok hi (hin ▸ ptDecode_good hne hnul hok), rfl, endsOk_succeed _⟩

/-- A segment ends within the byte string it is joined into. -/
theorem segOffset_add_length_le (good : List (List Byte)) (bad : List Byte) (more : List (List Byte)) :
    segOffset good + bad.length ≤ (joinNul (good ++ bad :: more)).length := by
  induction good with
  | nil => cases more <;> simp [segOffset]
  | cons seg good ih =>
    obtain ⟨next, rest, hrest⟩ := List.exists_cons_of_ne_nil (show good ++ bad :: more ≠ [] by simp)
    rw [hrest] at ih
    rw [List.cons_append, hrest, joinNul_cons]
    simp only [segOffset, List.map_cons, List.sum_cons, List.length_append, List.length_cons] at ih ⊢
    omega

/-- Each segment before an offset takes up at least its zero byte. -/
theorem length_le_segOffset (good : List (List Byte)) : good.length ≤ segOffset good := by
  induction good with
  | nil => exact Nat.zero_le _
  | cons seg good ih =>
    simp only [segOffset, List.map_cons, List.sum_cons, List.length_cons] at ih ⊢
    omega

/-- Among acceptable segments a key leads to the first entry that has it: no earlier one does (R226). -/
theorem keyIndex_entriesOf {good before after : List (List Byte)} {first key : List Byte}
    (hok : SegmentsOk good) (hgood : good.filter (fun seg => seg ≠ []) = before ++ first :: after)
    (hkey : (cutFirst first).key = key) : keyIndex (entriesOf good) key = some before.length := by
  have hkeys := hok.2
  rw [hgood, List.map_append, List.nodup_append] at hkeys
  obtain ⟨-, -, hdisjoint⟩ := hkeys
  have hbefore : ∀ e ∈ before.map cutFirst, e.key ≠ key := by
    intro e he
    obtain ⟨seg, hseg, rfl⟩ := List.mem_map.mp he
    exact hkey ▸ hdisjoint _ (List.mem_map_of_mem hseg) _ List.mem_cons_self
  rw [entriesOf, hgood, List.map_append, List.map_cons, keyIndex_some hbefore hkey, List.length_map]

/-- Settles O44: after acceptable segments the decoder fails at the offending one; by the invariant its offset, its
length and the index fit in the information words. -/
theorem ptDecodeErrors : Obligations.PtDecodeErrors := by
  intro s good bad more hinv hi hnul hin hok hne
  have hstands := ptDecode_after (List.cons_ne_nil bad more) hnul hok
  rw [← hin] at hstands
  have hend := segOffset_add_length_le good bad more
  rw [← hin, Memory.length_bytes] at hend
  have hfit := hinv.inLen_lt
  have hoffset : segOffset good < 2 ^ 64 := by omega
  refine ⟨fun hm => ?_, fun before first after hm hgood hkey => ?_⟩
  · have hlength : bad.length < 2 ^ 64 := by omega
    exact rejects_of_raise (exec_ptDecode_error hi (hstands.trans (collect_malformed hne hm))) rfl
      (infoWord_fits hoffset) (infoWord_fits hlength)
  · have hindex : before.length < 2 ^ 64 := by
      have hfilter := List.length_filter_le (fun seg : List Byte => seg ≠ []) good
      have hgoodLength := length_le_segOffset good
      rw [hgood, List.length_append] at hfilter
      omega
    exact rejects_of_raise
      (exec_ptDecode_error hi (hstands.trans (collect_duplicate hne hm (keyIndex_entriesOf hok hgood hkey)))) rfl
      (infoWord_fits hoffset) (infoWord_fits hindex)

/-! ### `PT.ENCODE` (R228, R229) -/

/-- Bytes within `BUF_MAX` are counted exactly by `OUT_LEN` (R34). -/
theorem outLen_setOut {bs : List Byte} (h : bs.length ≤ s.rom.bufMax.toNat) :
    (s.setOut bs).outLen.toNat = bs.length := by
  rw [State.outLen, State.setOut_outMem, Memory.length_ofBytes, BitVec.toNat_ofNat]
  exact Nat.mod_eq_of_lt (h.trans_lt s.rom.bufMax.isLt)

theorem exec_ptEncode_fits (hi : s.initOk = true) (h : (ptEncode s.ent).length ≤ s.rom.bufMax.toNat) :
    exec .ptEncode s = .next (s.setOut (ptEncode s.ent)).succeed := by
  change execPtEncode s = _
  rw [execPtEncode, storeOut_fits h]
  exact command_ok hi

theorem exec_ptEncode_large (hi : s.initOk = true) (h : s.rom.bufMax.toNat < (ptEncode s.ent).length) :
    exec .ptEncode s = .next (s.raise (Err.lengthTooLarge (ptEncode s.ent).length s.rom.bufMax)) := by
  change execPtEncode s = _
  rw [execPtEncode, storeOut_large h]
  exact command_error hi

/-- Settles O45: `OUT` reads the bytes of the encoding, or the refusal leaves it as it was. -/
theorem ptEncodeResult : Obligations.PtEncodeResult := by
  intro s hi
  change ((ptEncode s.ent).length ≤ _ → _) ∧ _
  refine ⟨fun hfits => ?_, fun hlarge => ⟨_, exec_ptEncode_large hi hlarge, raise_lengthTooLarge _ _ _⟩⟩
  exact ⟨_, exec_ptEncode_fits hi hfits, Memory.read_ofBytes _, outLen_setOut hfits, endsOk_succeed _⟩

/-! ### The shape of an encoding (R230, R232) -/

theorem flatMap_entryBytes_concat (es : List Entry) (e : Entry) :
    (es.concat e).flatMap entryBytes = es.flatMap entryBytes ++ (e.key ++ [eqSign] ++ e.value) ++ [nul] := by
  simp [entryBytes]

/-- An encoding ends in two zero bytes: the terminator of the last entry and one of padding, or, with no entry, two of
the four of padding. -/
theorem ptEncode_ends_in_two_zeros (es : List Entry) : ∃ front, ptEncode es = front ++ [nul, nul] := by
  rcases List.eq_nil_or_concat es with rfl | ⟨es, e, rfl⟩
  · exact ⟨[nul, nul], rfl⟩
  · obtain ⟨hpad, -, -⟩ := padLength_pos ((es.concat e).flatMap entryBytes).length
    obtain ⟨p, hp⟩ := Nat.exists_eq_add_of_le' hpad
    have hzeros : nul :: List.replicate (p + 1) nul = List.replicate p nul ++ [nul, nul] := by
      rw [← List.replicate_succ, List.replicate_add p 2]; rfl
    refine ⟨es.flatMap entryBytes ++ (e.key ++ [eqSign] ++ e.value) ++ List.replicate p nul, ?_⟩
    rw [ptEncode, hp, flatMap_entryBytes_concat, List.append_assoc, List.singleton_append, hzeros]
    exact (List.append_assoc _ _ _).symm

/-- Settles O46: the padding completes the entries to whole blocks, and the two last bytes are zero bytes. -/
theorem encodedPlaintextShape : Obligations.EncodedPlaintextShape := by
  intro es
  obtain ⟨hpos, hle, hblocks⟩ := padLength_pos (es.flatMap entryBytes).length
  obtain ⟨front, hfront⟩ := ptEncode_ends_in_two_zeros es
  have haligned : (ptEncode es).length % 4 = 0 := by rw [ptEncode_length, hblocks]
  have hlength : (ptEncode es).length = front.length + 2 := by rw [hfront, List.length_append]; rfl
  refine ⟨_, List.replicate (padLength (es.flatMap entryBytes).length) nul, rfl, rfl,
    fun _ hb => List.eq_of_mem_replicate hb, ?_, ?_, haligned, by omega, ?_, ?_⟩
  · rwa [List.length_replicate]
  · rwa [List.length_replicate]
  · rw [hlength, hfront]; simp [nul]
  · rw [hlength, hfront]; simp [nul]

/-! ### The round trip (R231) -/

/-- An encoding that ends well fitted in `OUT` and stands there (R229). -/
theorem ptEncode_ok (hi : s.initOk = true) (hx : exec .ptEncode s = .next t) (hok : t.status = 0#32) :
    t.initOk = true ∧ t.outMem.bytes = ptEncode s.ent := by
  rcases Nat.lt_or_ge s.rom.bufMax.toNat (ptEncode s.ent).length with hlarge | hfits
  · cases (exec_ptEncode_large hi hlarge).symm.trans hx
    exact absurd hok (raise_not_ok _ _)
  · cases (exec_ptEncode_fits hi hfits).symm.trans hx
    exact ⟨hi, Memory.bytes_ofBytes _⟩

/-- Settles O47: the encoder's result, loaded into `IN`, decodes to the entries encoded. -/
theorem plaintextRoundTrip : Obligations.PlaintextRoundTrip := by
  intro s t hi hclean hx hok
  obtain ⟨hready, hout⟩ := ptEncode_ok hi hx hok
  have hdecode : ptDecode (t.setIn t.outMem.bytes).inMem.bytes = .ok s.ent := by
    rw [State.setIn_inMem, Memory.bytes_ofBytes, hout, ptDecode_ptEncode hclean]
  exact ⟨_, exec_ptDecode_ok hready hdecode, endsOk_succeed _, rfl⟩

end Sys2Proof.Machine
end

section
/-! PROOFS. The reset command and the self-check it reports (spec/70_reset_and_hazards.md R310 to R313). -/
namespace Sys2Proof.Machine

variable {s t : State} {i : Instr}

/-! ### `SYS.RESET` (R260, R312) -/

theorem AllZero.succeed (h : AllZero s) : AllZero s.succeed := { h with }

theorem AllZero.raise (h : AllZero s) (e : Err) : AllZero (s.raise e) := { h with }

/-- A reset of a block leaves every register, flag and length at 0, whatever they were (R310). -/
theorem allZero_resetAll (s : State) : AllZero s.resetAll := (allZero_resetOf s.rom).setHost s.host

/-- A reset leaves `ROM` and the host's moves alone (R310). -/
theorem frame_resetAll (s : State) :
    UnchangedBut
      [.inBuf, .outBuf, .ent, .hdrMagic, .hdrLength, .hdrChecksum, .mdHeaderOffset, .mdStated, .mdReal, .mdFamily,
       .ckAcc, .blkI, .afRegs, .afValid, .lcReg, .lcValid, .rngOut, .mrHit, .mdVerified, .initOk, .cmd, .status]
      s s.resetAll := by
  refine .of_all fun p => ?_; cases p <;> simp [Port.same]

theorem resetReport_passed (h : selfCheck s.rom.ovrTable = none) : s.resetReport = s.resetAll.succeed := by
  rw [State.resetReport, h]

theorem resetReport_failed {k : Nat} (h : selfCheck s.rom.ovrTable = some k) :
    s.resetReport = s.resetAll.raise (Err.initFailed k) := by
  rw [State.resetReport, h]

/-- The report of the self-check leaves `INIT_OK` its result (R312). -/
theorem resetReport_initOk (s : State) : s.resetReport.initOk = (selfCheck s.rom.ovrTable).isNone := by
  cases h : selfCheck s.rom.ovrTable with
  | none => rw [resetReport_passed h, State.succeed_initOk, State.resetAll_initOk, h]
  | some k => rw [resetReport_failed h, State.raise_initOk, State.resetAll_initOk, h]

/-- Settles O12: the self-check passes, or fails at the first entry that does; either way the report is made on the
reset state. -/
theorem sysResetResult : Obligations.SysResetResult := by
  refine fun s => ⟨fun hgood => ?_, fun good bad more htable hgood hbad hfit => ?_⟩
  · have hcheck := selfCheck_none.mpr hgood
    refine ⟨s.resetReport, rfl, ?_⟩
    rw [resetReport_passed hcheck]
    exact ⟨(allZero_resetAll s).succeed, endsOk_succeed _, by simp [hcheck],
      (frame_resetAll s).trans ((frame_succeed _).mono (by decide))⟩
  · have hcheck : selfCheck s.rom.ovrTable = some good.length := htable ▸ selfCheck_some hgood hbad
    refine ⟨s.resetReport, rfl, ?_⟩
    rw [resetReport_failed hcheck]
    exact ⟨(allZero_resetAll s).raise _, reports_raise _ rfl (infoWord_fits hfit) rfl, by simp [hcheck], rfl, rfl⟩

/-! ### A failed self-check (R313) -/

/-- One entry whose key is not its stated magic makes the self-check fail (R312). -/
theorem selfCheck_fails {table : List OvrEntry} {e : OvrEntry} (he : e ∈ table) (hbad : e.key ≠ e.stated) :
    (selfCheck table).isNone = false := by
  rw [← Bool.not_eq_true, Option.isNone_iff_eq_none, selfCheck_none]
  exact fun hall => hbad (hall e he)

theorem hostWrite_initOk {w : HostWrite} (hw : hostWrite w s = .next t) : t.initOk = s.initOk := by
  rcases hostWrite_cases hw with ⟨_, _, rfl⟩ | ⟨_, _, rfl⟩ | ⟨_, rfl⟩ | ⟨_, rfl⟩ <;> rfl

theorem illegalCommand_initOk {c : Byte} (hc : illegalCommand c s = .next t) : t.initOk = s.initOk := by
  rcases guarded_cases hc with ⟨_, rfl⟩ | ⟨_, rfl⟩ <;> exact State.raise_initOk _ _

/-- On a block whose table fails the self-check a command is refused, or it is `SYS.RESET`, which checks again. -/
theorem exec_initOk_false (hcheck : (selfCheck s.rom.ovrTable).isNone = false) (hi : s.initOk = false)
    (hx : exec i s = .next t) : t.initOk = false := by
  by_cases hreset : i = .sysReset
  · subst hreset
    cases hx
    exact (resetReport_initOk s).trans hcheck
  · cases (exec_refused hreset hi).symm.trans hx
    exact hi

/-- Settles O10: only a reset writes `INIT_OK`, and the self-check it runs fails at that entry again, for `ROM` is never
written. -/
theorem failedSelfCheckIsForever : Obligations.FailedSelfCheckIsForever := by
  intro s t e he hbad hi hstep
  have hcheck := selfCheck_fails he hbad
  refine ⟨?_, (romNeverWritten s t hstep).1 ▸ he⟩
  rcases step_cases hstep with ⟨_, rfl⟩ | ⟨_, _, _, hw⟩ | ⟨c, rest, _, _, _, hx⟩ | ⟨_, _, _, _, hc⟩ | ⟨_, _, rfl⟩
  · exact hi
  · exact (hostWrite_initOk hw).trans hi
  · exact exec_initOk_false (s := (s.setHost rest).latch c) hcheck hi hx
  · exact (illegalCommand_initOk hc).trans hi
  · exact hcheck

end Sys2Proof.Machine
end

section
/-! PROOFS. How every command ends: with a next state, and with OK or a cause of its row of the table of causes
(spec/60_exceptions.md R273, R288). -/
namespace Sys2Proof.Machine

variable {s t : State} {i : Instr}

/-! ### Every command ends (R288, R336) -/

/-- A guarded command answers a next state, ready or refused. -/
theorem guarded_ends (s t : State) : ∃ u, guarded s t = .next u := ⟨_, rfl⟩

/-- Settles O13: every command is guarded but `SYS.RESET`, which answers the reset state. -/
theorem everyCommandEnds : Obligations.EveryCommandEnds := by
  intro i s
  cases i with
  | sysReset => exact ⟨s.resetReport, rfl⟩
  | _ => exact guarded_ends s _

/-! ### The causes of each command (R273) -/

/-- A cause as the table of causes names it: its kind and code as numbers (R272). -/
def Cause.row (c : Cause) : Nat × Nat := (c.kind.code.toNat, c.code.toNat)

/-- `STATUS` reads OK or a cause of the command's row. -/
def EndsInRow (i : Instr) (t : State) : Prop :=
  t.status = 0#32 ∨ ∃ x ∈ causesOf i, t.status = BitVec.ofNat 32 (x.1 + 256 * x.2)

theorem endsInRow_succeed (i : Instr) (s : State) : EndsInRow i s.succeed := .inl rfl

theorem endsInRow_raise {e : Err} (s : State) (h : e.cause.row ∈ causesOf i) : EndsInRow i (s.raise e) :=
  .inr ⟨_, h, e.cause.status_eq⟩

/-- An error with one of some causes is of a command's row when those causes are. -/
theorem row_of_cause_mem {e : Err} {cs : List Cause} (he : e.cause ∈ cs) (hcs : ∀ c ∈ cs, c.row ∈ causesOf i) :
    e.cause.row ∈ causesOf i := hcs _ he

/-- A command of a ready block ends in its row when the errors its pseudocode can answer are of it. -/
theorem endsInRow_command {r : Except Err State} (hi : s.initOk = true) (hx : command s r = .next t)
    (hr : ∀ e, r = .error e → e.cause.row ∈ causesOf i) : EndsInRow i t := by
  cases r with
  | ok u => cases (command_ok hi).symm.trans hx; exact endsInRow_succeed i u
  | error e => cases (command_error hi).symm.trans hx; exact endsInRow_raise s (hr e rfl)

theorem storeOut_error_cause {n : Nat} {bs : List Byte} {e : Err} (h : s.storeOut n bs = .error e) :
    e.cause = .lengthTooLarge := by
  rcases storeOut_cases s n bs with ⟨_, ho⟩ | ⟨_, ho⟩ <;> cases ho.symm.trans h
  rfl

/-- A command whose pseudocode is one store to `OUT` can raise LengthTooLarge alone (R66). -/
theorem endsInRow_storeOut {n : Nat} {bs : List Byte} (hi : s.initOk = true)
    (hx : command s (s.storeOut n bs) = .next t) (hrow : Cause.lengthTooLarge.row ∈ causesOf i) : EndsInRow i t :=
  endsInRow_command hi hx fun _ he => storeOut_error_cause he ▸ hrow

theorem exec_afNext_endsInRow (hi : s.initOk = true) (hx : exec .afNext s = .next t) : EndsInRow .afNext t := by
  refine endsInRow_command hi hx fun e he => ?_
  split at he <;> cases he
  decide

theorem exec_lcNext_endsInRow (hi : s.initOk = true) (hx : exec .lcNext s = .next t) : EndsInRow .lcNext t := by
  refine endsInRow_command hi hx fun e he => ?_
  split at he <;> cases he
  decide

theorem exec_ksApply_endsInRow (hi : s.initOk = true) (hx : exec .ksApply s = .next t) : EndsInRow .ksApply t := by
  rcases execKsApply_cases hi with ⟨_, hn⟩ | ⟨_, _, hn⟩ | ⟨_, _, _, hn⟩ | ⟨_, _, _, hn⟩ <;>
    cases hn.symm.trans hx
  · exact endsInRow_raise s (by decide : Cause.notBlockAligned.row ∈ causesOf .ksApply)
  · exact endsInRow_raise s (by decide : Cause.cipherInputShort.row ∈ causesOf .ksApply)
  · exact endsInRow_raise s (by decide : Cause.lengthTooLarge.row ∈ causesOf .ksApply)
  · exact endsInRow_succeed _ _

theorem exec_hdrParse_endsInRow (hi : s.initOk = true) (hx : exec .hdrParse s = .next t) : EndsInRow .hdrParse t := by
  refine endsInRow_command hi hx fun e he => ?_
  split at he <;> cases he
  exact row_of_cause_mem (hdrParse_error_cause ‹_›) (by decide)

theorem exec_ckVerify_endsInRow (hi : s.initOk = true) (hx : exec .ckVerify s = .next t) : EndsInRow .ckVerify t := by
  rcases execCkVerify_cases hi with ⟨_, hn⟩ | ⟨_, _, hn⟩ | ⟨_, _, hn⟩ <;> cases hn.symm.trans hx
  · exact endsInRow_raise s (by decide : Cause.notBlockAligned.row ∈ causesOf .ckVerify)
  · exact endsInRow_succeed _ _
  · exact endsInRow_raise _ (by decide : Cause.checksumMismatch.row ∈ causesOf .ckVerify)

theorem exec_ckCalc_endsInRow (hi : s.initOk = true) (hx : exec .ckCalc s = .next t) : EndsInRow .ckCalc t := by
  refine endsInRow_command hi hx fun e he => ?_
  rcases ckCalc_cases s.opIn with ⟨_, hc⟩ | ⟨_, hc⟩ <;> rw [hc] at he <;> cases he
  exact (by decide : Cause.notBlockAligned.row ∈ causesOf .ckCalc)

theorem exec_ofsDetect_endsInRow (hi : s.initOk = true) (hx : exec .ofsDetect s = .next t) :
    EndsInRow .ofsDetect t := by
  refine endsInRow_command hi hx fun e he => ?_
  split at he <;> cases he
  exact row_of_cause_mem (List.mem_singleton.mpr (ofsDetect_error_cause ‹_›)) (by decide)

theorem exec_ofsPrefix_endsInRow (hi : s.initOk = true) (hx : exec .ofsPrefix s = .next t) :
    EndsInRow .ofsPrefix t := by
  refine endsInRow_command hi hx fun e he => ?_
  rcases ofsPrefix_cases s.md.headerOffset with ⟨_, _, hp⟩ | ⟨_, hp⟩ <;> rw [hp] at he
  · cases he
    exact (by decide : Cause.badHeaderOffset.row ∈ causesOf .ofsPrefix)
  · exact row_of_cause_mem (List.mem_singleton.mpr (storeOut_error_cause he)) (by decide)

theorem exec_ptDecode_endsInRow (hi : s.initOk = true) (hx : exec .ptDecode s = .next t) : EndsInRow .ptDecode t := by
  refine endsInRow_command hi hx fun e he => ?_
  split at he <;> cases he
  exact row_of_cause_mem (ptDecode_error_cause ‹_›) (by decide)

/-- `DECRYPT` ends with an error of its checks or as its last trial does (R247, R248). -/
theorem exec_decrypt_endsInRow (hi : s.initOk = true) (hx : exec .decrypt s = .next t) : EndsInRow .decrypt t := by
  rcases execDecrypt_cases hi with ⟨e, he, hn⟩ | ⟨_, _, _, _, _, _, _, _, _, _, hn⟩ <;> cases hn.symm.trans hx
  · exact endsInRow_raise s (row_of_cause_mem (decryptParse_error_cause he) (by decide))
  · dsimp only
    split
    · exact endsInRow_succeed _ _
    · exact endsInRow_raise _ (by decide : Cause.checksumMismatch.row ∈ causesOf .decrypt)

theorem exec_encrypt_endsInRow (hi : s.initOk = true) (hx : exec .encrypt s = .next t) : EndsInRow .encrypt t := by
  rcases execEncrypt_cases hi with ⟨e, he, hn⟩ | ⟨_, hn⟩ <;> cases hn.symm.trans hx
  · exact endsInRow_raise s (row_of_cause_mem (encryptError_cause he) (by decide))
  · exact endsInRow_succeed _ _

theorem resetReport_endsInRow (s : State) : EndsInRow .sysReset s.resetReport := by
  cases h : selfCheck s.rom.ovrTable with
  | none => rw [resetReport_passed h]; exact endsInRow_succeed _ _
  | some k =>
    rw [resetReport_failed h]
    exact endsInRow_raise _ (by decide : Cause.initFailed.row ∈ causesOf .sysReset)

/-- A command of a ready block ends OK or with a cause of its row (R273). -/
theorem exec_endsInRow (hi : s.initOk = true) (hx : exec i s = .next t) : EndsInRow i t := by
  cases i with
  | afSeed => exact endsInRow_command hi hx nofun
  | afNext => exact exec_afNext_endsInRow hi hx
  | lcSeed => exact endsInRow_command hi hx nofun
  | lcNext => exact exec_lcNext_endsInRow hi hx
  | ksApply => exact exec_ksApply_endsInRow hi hx
  | hdrParse => exact exec_hdrParse_endsInRow hi hx
  | hdrSer => exact endsInRow_storeOut hi hx (by decide)
  | ckVerify => exact exec_ckVerify_endsInRow hi hx
  | ckCalc => exact exec_ckCalc_endsInRow hi hx
  | mrLookup => exact endsInRow_command hi hx nofun
  | ofsDetect => exact exec_ofsDetect_endsInRow hi hx
  | ofsPrefix => exact exec_ofsPrefix_endsInRow hi hx
  | ptDecode => exact exec_ptDecode_endsInRow hi hx
  | ptEncode => exact endsInRow_storeOut hi hx (by decide)
  | decrypt => exact exec_decrypt_endsInRow hi hx
  | encrypt => exact exec_encrypt_endsInRow hi hx
  | sysReset => cases hx; exact resetReport_endsInRow s

/-- `HDR.SER` fails only where its twelve bytes do not fit in `OUT` (R169). -/
theorem hdrSer_failed (hi : s.initOk = true) (hx : exec .hdrSer s = .next t) (hs : t.status ≠ 0#32) :
    s.rom.bufMax.toNat < 12 := by
  by_contra hfits
  cases (exec_hdrSer_fits hi (Nat.le_of_not_lt hfits)).symm.trans hx
  exact hs rfl

/-- Settles O14: the row of each command, and for `HDR.SER` the one way it fails. -/
theorem commandRaisesOnlyItsCauses : Obligations.CommandRaisesOnlyItsCauses := by
  intro i s t hi hx
  refine ⟨exec_endsInRow hi hx, ?_⟩
  rintro rfl
  exact hdrSer_failed hi hx

end Sys2Proof.Machine
end

section
/-! PROOFS. `ENCRYPT` (spec/47_pipeline.md R253 to R255): the file it makes, and the preconditions it refuses on. -/
namespace Sys2Proof.Machine

variable {s t : State}

/-! ### The file (R254) -/

/-- The header `ENCRYPT` writes: the stated magic, the length and the checksum of `IN` (R254). -/
def State.newHeader (s : State) : Header := ⟨s.md.stated, BitVec.ofNat 32 s.inMem.length, s.inChecksum⟩

/-- The generator `ENCRYPT` starts from: that of the Metadata's family, seeded with the real magic (R254). -/
def State.mdGen (s : State) : Gen := Gen.seed s.rom s.md.family s.md.real

/-- The ciphertext of `IN` (R254). -/
def State.newPayload (s : State) : List Byte := xorKey s.mdGen s.inMem.bytes

/-- The file `ENCRYPT` makes: prefix, header, ciphertext (R254). -/
def State.newFile (s : State) : List Byte := ofsFiller s.md.headerOffset ++ hdrSer s.newHeader ++ s.newPayload

/-- The state `ENCRYPT` ends in where it meets no error (R255). -/
def State.encrypted (s : State) : State :=
  ((((s.endCipher s.inMem.length (genAfter (s.inMem.length / 4) s.mdGen)).setHdr s.newHeader).setCkAcc
    s.inChecksum).setOut s.newFile).succeed

/-- Byte `a` of a prefix, a serialised header and what follows them (R254, 30_encoding.md R94). -/
theorem file_getElem? {off : DWord} (hoff : off.toNat = 0 ∨ 10 ≤ off.toNat) (h : Header) (body : List Byte) (a : Nat) :
    (ofsFiller off ++ hdrSer h ++ body)[a]? =
      if a < off.toNat then some (marker.getD a 0#8)
      else if a < off.toNat + 4 then some (BitVec.ofNat 8 (h.magic.toNat / 256 ^ (a - off.toNat)))
      else if a < off.toNat + 8 then some (BitVec.ofNat 8 (h.length.toNat / 256 ^ (a - off.toNat - 4)))
      else if a < off.toNat + 12 then some (BitVec.ofNat 8 (h.checksum.toNat / 256 ^ (a - off.toNat - 8)))
      else body[a - off.toNat - 12]? := by
  have hfill := ofsFiller_length hoff
  have hlen := hdrSer_length h
  rw [List.append_assoc]
  rcases Nat.lt_or_ge a off.toNat with ha | ha
  · rw [if_pos ha, List.getElem?_append_left (by omega), ofsFiller_getElem? hoff, if_pos ha]
  · rw [if_neg (by omega), List.getElem?_append_right (by omega), hfill]
    obtain ⟨k, rfl⟩ := Nat.exists_eq_add_of_le ha
    simp only [Nat.add_sub_cancel_left, Nat.add_lt_add_iff_left]
    rcases Nat.lt_or_ge k 12 with hk | hk
    · rw [List.getElem?_append_left (by omega), hdrSer_getElem?]
      simp only [hk, if_true]
    · rw [List.getElem?_append_right (by omega), hlen, if_neg (by omega), if_neg (by omega), if_neg (by omega)]

theorem length_newPayload (s : State) : s.newPayload.length = s.inMem.length := by
  rw [State.newPayload, xorKey_length, Memory.length_bytes]

theorem length_newFile (hoff : s.md.headerOffset.toNat = 0 ∨ 10 ≤ s.md.headerOffset.toNat) :
    s.newFile.length = s.md.headerOffset.toNat + 12 + s.inMem.length := by
  rw [State.newFile, List.length_append, List.length_append, ofsFiller_length hoff, hdrSer_length,
    length_newPayload]

/-- A length a header can declare is read back from its 32 bits (R253). -/
theorem newHeader_length (hn : s.inMem.length ≤ 2 ^ 32 - 4) : s.newHeader.length.toNat = s.inMem.length :=
  Nat.mod_eq_of_lt (by omega)

/-- The checksum written and the sum of `IN` make the sentinel (43_checksum.md R183). -/
theorem inChecksum_add_byteSum (h4 : s.inMem.length % 4 = 0) :
    (s.inChecksum.toNat + byteSum s.inMem.bytes) % 2 ^ 32 = 0xFFFFFFFF := by
  rw [← ckAccumulate_toNat _ _ (by rwa [Memory.length_bytes]), State.inChecksum, ckAccumulate_computed]
  rfl

/-! ### `ENCRYPT` where its preconditions hold (R255) -/

theorem exec_encrypt_ok (hi : s.initOk = true) (he : encryptError s.rom s.md.headerOffset s.inMem.length = none) :
    exec .encrypt s = .next s.encrypted := by
  rcases execEncrypt_cases hi with ⟨_, he', _⟩ | ⟨_, hn⟩
  · cases he'.symm.trans he
  · exact hn

theorem encrypted_outMem (s : State) : s.encrypted.outMem = Memory.ofBytes s.newFile := (rfl)

@[simp] theorem encrypted_hdr (s : State) : s.encrypted.hdr = s.newHeader := (rfl)

/-- The registers of the Metadata's family hold the generator as the pass left it, with the valid flag clear (R154). -/
theorem holds_encrypted (s : State) : Holds (genAfter (s.inMem.length / 4) s.mdGen) s.encrypted := by
  unfold State.encrypted
  cases genAfter (s.inMem.length / 4) s.mdGen <;> exact ⟨rfl, rfl⟩

theorem read_encrypted (hwf : s.inMem.wf = true)
    (hoff : s.md.headerOffset.toNat = 0 ∨ 10 ≤ s.md.headerOffset.toNat) (a : Nat) :
    s.encrypted.outMem.read a =
      if a < s.md.headerOffset.toNat then some (marker.getD a 0#8)
      else if a < s.md.headerOffset.toNat + 4 then
        some (BitVec.ofNat 8 (s.newHeader.magic.toNat / 256 ^ (a - s.md.headerOffset.toNat)))
      else if a < s.md.headerOffset.toNat + 8 then
        some (BitVec.ofNat 8 (s.newHeader.length.toNat / 256 ^ (a - s.md.headerOffset.toNat - 4)))
      else if a < s.md.headerOffset.toNat + 12 then
        some (BitVec.ofNat 8 (s.newHeader.checksum.toNat / 256 ^ (a - s.md.headerOffset.toNat - 8)))
      else (s.inMem.read (a - s.md.headerOffset.toNat - 12)).map
        (fun b => b ^^^ keyByte s.rom s.md.family s.md.real (a - s.md.headerOffset.toNat - 12)) := by
  rw [encrypted_outMem, Memory.read_ofBytes, State.newFile, file_getElem? hoff, State.newPayload, xorKey_getElem?,
    Memory.read_eq hwf]
  rfl

/-- Settles O48: the file byte by byte, the header it holds, and the generator of the family used; the registers of the
other family are in the command's frame. -/
theorem encryptResult : Obligations.EncryptResult := by
  intro s hi hwf off n hpos h4 hn hoff hfits
  have hx := exec_encrypt_ok hi (encryptError_none.mpr ⟨hpos, h4, hn, hoff, hfits⟩)
  have hlen := length_newFile hoff
  have hout : s.encrypted.outLen.toNat = off + 12 + n := hlen ▸ outLen_setOut (hlen ▸ hfits)
  refine ⟨_, hx, rfl, newHeader_length hn, inChecksum_add_byteSum h4, rfl, read_encrypted hwf hoff, hout, ?_,
    endsOk_succeed _⟩
  have hother := (execEncrypt_frame hx).other_family (by decide)
  have hheld := holds_encrypted s
  have hfam : (genAfter (s.inMem.length / 4) s.mdGen).family = s.md.family := by
    rw [genAfter_family, State.mdGen, Gen.family_seed]
  change match genAfter (s.inMem.length / 4) s.mdGen with | .af x => _ | .lc x => _
  generalize genAfter (s.inMem.length / 4) s.mdGen = g at hfam hheld ⊢
  cases g with
  | af x => exact ⟨hfam.symm, hheld.1, hheld.2, hother.1 hfam.symm⟩
  | lc x => exact ⟨hfam.symm, hheld.1, hheld.2, hother.2 hfam.symm⟩

/-! ### The preconditions (R253) -/

section encryptError

variable {rom : Config} {off : DWord} {n : Nat}

theorem encryptError_empty : encryptError rom off 0 = some Err.emptyInput := rfl

theorem encryptError_unaligned (h4 : n % 4 ≠ 0) : encryptError rom off n = some (Err.notBlockAligned n) := by
  have hne : n ≠ 0 := by rintro rfl; exact h4 rfl
  rw [encryptError, if_neg hne, if_pos (by rw [(blockAligned_false n).mpr h4]; rfl)]

/-- On whole blocks, not none, the first two preconditions hold. -/
theorem encryptError_aligned (hpos : 0 < n) (h4 : n % 4 = 0) :
    encryptError rom off n =
      if 2 ^ 32 - 4 < n then some (Err.lengthTooLarge n maxPlain)
      else if badOffset off then some (Err.badHeaderOffset off)
      else if rom.bufMax.toNat < fileLength off n then some (Err.lengthTooLarge (fileLength off n) rom.bufMax)
      else none := by
  rw [encryptError, if_neg hpos.ne', if_neg (by simp [h4])]
  rfl

theorem encryptError_long (hn : 2 ^ 32 - 4 < n) (h4 : n % 4 = 0) :
    encryptError rom off n = some (Err.lengthTooLarge n maxPlain) := by
  rw [encryptError_aligned (Nat.zero_lt_of_lt hn) h4, if_pos hn]

theorem encryptError_badOffset (hpos : 0 < n) (h4 : n % 4 = 0) (hn : n ≤ 2 ^ 32 - 4) (hlow : 0 < off.toNat)
    (hhigh : off.toNat < 10) : encryptError rom off n = some (Err.badHeaderOffset off) := by
  rw [encryptError_aligned hpos h4, if_neg hn.not_gt, if_pos ((badOffset_iff off).mpr ⟨hlow, hhigh⟩)]

theorem encryptError_fileLong (hpos : 0 < n) (h4 : n % 4 = 0) (hn : n ≤ 2 ^ 32 - 4)
    (hoff : off.toNat = 0 ∨ 10 ≤ off.toNat) (hlarge : rom.bufMax.toNat < fileLength off n) :
    encryptError rom off n = some (Err.lengthTooLarge (fileLength off n) rom.bufMax) := by
  rw [encryptError_aligned hpos h4, if_neg hn.not_gt, if_neg (by simp [(badOffset_false off).mpr hoff]), if_pos hlarge]

end encryptError

theorem exec_encrypt_error {e : Err} (hi : s.initOk = true)
    (he : encryptError s.rom s.md.headerOffset s.inMem.length = some e) : exec .encrypt s = .next (s.raise e) := by
  rcases execEncrypt_cases hi with ⟨e', he', hn⟩ | ⟨he', _⟩
  · cases he'.symm.trans he
    exact hn
  · cases he'.symm.trans he

/-- Settles O49: each precondition's error is raised on the state the command began in; by the invariant the length of
`IN` fits in an information word. -/
theorem encryptErrors : Obligations.EncryptErrors := by
  intro s hinv hi off n
  have hfit : infoWord n = BitVec.ofNat 64 n := infoWord_fits hinv.inLen_lt
  refine ⟨fun h0 => ?_, fun h4 => ?_, fun h4 hn => ?_, fun hpos h4 hn hlow hhigh => ?_,
    fun hpos h4 hn hoff hlarge => ?_⟩
  · exact rejects_of_raise (exec_encrypt_error hi (h0 ▸ encryptError_empty)) rfl rfl rfl
  · exact rejects_of_raise (exec_encrypt_error hi (encryptError_unaligned h4)) rfl hfit rfl
  · exact rejects_of_raise (exec_encrypt_error hi (encryptError_long hn h4)) rfl hfit rfl
  · exact rejects_of_raise (exec_encrypt_error hi (encryptError_badOffset hpos h4 hn hlow hhigh)) rfl
      (dword_eq_ofNat_toNat _) rfl
  · exact ⟨_, exec_encrypt_error hi (encryptError_fileLong hpos h4 hn hoff hlarge), raise_lengthTooLarge s _ _⟩

end Sys2Proof.Machine
end

section
/-! PROOFS. What a `DECRYPT` that ends OK leaves in the Metadata (spec/47_pipeline.md R249). -/
namespace Sys2Proof.Machine

variable {s t : State}

/-! ### The trials of a plan (44_magic_resolver.md R198, R199) -/

/-- Where the last trial made is not the first of the plan, the first was made before it. -/
theorem first_mem_of_ne {before after rest : List Trial} {x y : Trial}
    (hplan : y :: rest = before ++ x :: after) (hne : x ≠ y) : y ∈ before := by
  cases before with
  | nil => exact absurd (List.cons.inj hplan).1.symm hne
  | cons z zs => exact (List.cons.inj hplan).1 ▸ List.mem_cons_self

/-- A trial settles exactly where the sum of its plaintext and the header's checksum is the sentinel (R181). -/
theorem attempt_settles_iff {payload : List Byte} (h4 : payload.length % 4 = 0) (rom : Config) (c : Word) (x : Trial) :
    (attempt rom c payload x).acc = ckSentinel ↔
      (c.toNat + byteSum (payload.zipIdx.map (fun y => y.1 ^^^ keyByte rom x.family x.real y.2))) % 2 ^ 32 =
        0xFFFFFFFF := by
  rw [← attempt_plain h4 rom c x, ← attempt_acc_toNat h4 rom c x]
  exact BitVec.toNat_inj.symm

/-! ### The Metadata after a `DECRYPT` that ends OK (R249) -/

/-- A `DECRYPT` that ends OK met no error of its checks, and its last trial settles. -/
theorem decrypt_ok (hi : s.initOk = true) (hx : exec .decrypt s = .next t) (hok : t.status = 0#32) :
    ∃ off h payload before x after, decryptParse s.rom s.inMem.bytes = .ok (off, h, payload) ∧
      mrPlan s.rom h.magic = before ++ x :: after ∧
      (∀ y ∈ before, (attempt s.rom h.checksum payload y).acc ≠ ckSentinel) ∧
      (attempt s.rom h.checksum payload x).acc = ckSentinel ∧ t = s.decrypted off h payload before x := by
  cases hp : decryptParse s.rom s.inMem.bytes with
  | error e =>
    cases (exec_decrypt_error hi hp).symm.trans hx
    exact absurd hok (raise_not_ok s e)
  | ok r =>
    obtain ⟨off, h, payload⟩ := r
    obtain ⟨before, x, after, hplan, hbefore, _, hn⟩ := exec_decrypt_accepted hi hp
    cases hn.symm.trans hx
    refine ⟨off, h, payload, before, x, after, rfl, hplan, hbefore, ?_, rfl⟩
    by_contra hs
    rw [State.decrypted, if_neg hs] at hok
    exact raise_not_ok _ _ hok

/-- The detector answers 0 or `CONTAINER_OFFSET` (R210). -/
theorem ofsDetect_ok {rom : Config} {file : List Byte} {off : DWord} (h : ofsDetect rom file = .ok off) :
    off = 0#64 ∨ off = rom.containerOffset := by
  rcases ofsDetect_cases rom file with ⟨_, _, ho⟩ | ⟨_, _, ho⟩ | ⟨_, ho⟩ <;> cases ho.symm.trans h
  · exact .inr rfl
  · exact .inl rfl

/-- On a hit the plan has the entry's trial alone (R198). -/
theorem trial_of_hit {rom : Config} {m : Word} {before after : List Trial} {x : Trial}
    (hplan : mrPlan rom m = before ++ x :: after) (hhit : (mrLookup rom m).1 = true) :
    ∃ e ∈ rom.ovrTable, e.key = m ∧ x.real = e.real ∧ x.family = e.family := by
  rcases ovrFind_cases rom m with ⟨e, he, hkey, hf⟩ | ⟨_, hf⟩
  · have hmem : x ∈ mrPlan rom m := by simp [hplan]
    rw [mrPlan_hit hf, List.mem_singleton] at hmem
    exact ⟨e, he, hkey, by rw [hmem], by rw [hmem]⟩
  · simp [mrLookup_miss hf] at hhit

/-- On a miss every trial is of the stated magic, and one of another family than the first comes after the trial of the
first (R198). -/
theorem trial_of_miss {rom : Config} {m : Word} {before after : List Trial} {x : Trial}
    (hplan : mrPlan rom m = before ++ x :: after) (hmiss : (mrLookup rom m).1 = false) :
    (∀ e ∈ rom.ovrTable, e.key ≠ m) ∧ x.real = m ∧ (x.family ≠ rom.trialFirst → ⟨m, rom.trialFirst⟩ ∈ before) := by
  rcases ovrFind_cases rom m with ⟨e, _, _, hf⟩ | ⟨hnone, hf⟩
  · simp [mrLookup_hit hf] at hmiss
  · have hmem : x ∈ mrPlan rom m := by simp [hplan]
    rw [mrPlan_miss hf] at hplan hmem
    refine ⟨hnone, ?_, fun hfam => first_mem_of_ne hplan (by rintro rfl; exact hfam rfl)⟩
    simp only [List.mem_cons, List.not_mem_nil, or_false] at hmem
    rcases hmem with rfl | rfl <;> rfl

/-- Settles O52: the Metadata are those of the trial that settles, and the trials before it do not. -/
theorem decryptMetadataInvariant : Obligations.DecryptMetadataInvariant := by
  intro s t hi hx hok
  obtain ⟨off, h, payload, before, x, after, hparse, hplan, hbefore, hs, rfl⟩ := decrypt_ok hi hx hok
  obtain ⟨ho, _, _, hpayload, _, h4⟩ := decryptParse_inv hparse
  obtain ⟨hhdr, hmd, _, _, hver⟩ := decrypted_ports s off h payload before x
  rw [hhdr, hmd, hver, decrypted_mrHit]
  dsimp only
  rw [← hpayload]
  refine ⟨decide_eq_true hs, rfl, ofsDetect_ok ho, (attempt_settles_iff h4 _ _ x).mp hs, trial_of_hit hplan,
    fun hmiss => ?_⟩
  obtain ⟨hnone, hreal, hfirst⟩ := trial_of_miss hplan hmiss
  exact ⟨hnone, hreal, fun hfam => mt (attempt_settles_iff h4 s.rom h.checksum ⟨h.magic, s.rom.trialFirst⟩).mpr
    (hbefore _ (hfirst hfam))⟩

end Sys2Proof.Machine
end

section
/-! PROOFS. `DECRYPT` as the inverse of `ENCRYPT` (spec/47_pipeline.md R257). -/
namespace Sys2Proof.Machine

variable {s t : State}

/-! ### The file, as the checks of `DECRYPT` read it (R246) -/

/-- An `ENCRYPT` that ends OK met its preconditions (R253). -/
theorem encrypt_ok (hi : s.initOk = true) (hx : exec .encrypt s = .next t) (hok : t.status = 0#32) :
    encryptError s.rom s.md.headerOffset s.inMem.length = none ∧ t = s.encrypted := by
  cases he : encryptError s.rom s.md.headerOffset s.inMem.length with
  | some e =>
    cases (exec_encrypt_error hi he).symm.trans hx
    exact absurd hok (raise_not_ok s e)
  | none =>
    cases (exec_encrypt_ok hi he).symm.trans hx
    exact ⟨rfl, rfl⟩

theorem drop_newFile (hoff : s.md.headerOffset.toNat = 0 ∨ 10 ≤ s.md.headerOffset.toNat) :
    s.newFile.drop s.md.headerOffset.toNat = hdrSer s.newHeader ++ s.newPayload := by
  rw [State.newFile, List.append_assoc, List.drop_left' (ofsFiller_length hoff)]

/-- The detector finds the header of the file where the Metadata put it: the marker stands before any header but one at
offset 0, which does not look like the marker (R210, R257). -/
theorem ofsDetect_newFile (hoff : s.md.headerOffset = 0#64 ∨
      s.md.headerOffset = s.rom.containerOffset ∧ 10 ≤ s.md.headerOffset.toNat)
    (h4 : s.newHeader.length.toNat % 4 = 0) : ofsDetect s.rom s.newFile = .ok s.md.headerOffset := by
  rcases hoff with h0 | ⟨hcont, h10⟩
  · have hfile : s.newFile = hdrSer s.newHeader ++ s.newPayload := by
      rw [← drop_newFile (.inl (by rw [h0]; rfl)), h0]; rfl
    rw [hfile, ofsDetect_unmarked (hdrSer_ne_marker _ _ h4), h0]
    rfl
  · have hmarker : s.newFile.take 10 = marker := by
      rw [State.newFile, List.append_assoc, ofsFiller_take h10]
    have hfile : s.newFile = marker ++ s.newFile.drop 10 := by rw [← hmarker, List.take_append_drop]
    rw [ofsDetect_long hfile (by rw [length_newFile (.inr h10), ← hcont]; omega), hcont]

/-- The checks of `DECRYPT` accept the file and find its header and ciphertext. -/
theorem decryptParse_newFile (he : encryptError s.rom s.md.headerOffset s.inMem.length = none)
    (hoff : s.md.headerOffset = 0#64 ∨ s.md.headerOffset = s.rom.containerOffset) :
    decryptParse s.rom s.newFile = .ok (s.md.headerOffset, s.newHeader, s.newPayload) := by
  obtain ⟨_, h4, hn, hroom, hfits⟩ := encryptError_none.mp he
  have hlen := newHeader_length hn
  have hpayload := length_newPayload s
  have hcont : s.md.headerOffset = 0#64 ∨ s.md.headerOffset = s.rom.containerOffset ∧ 10 ≤ s.md.headerOffset.toNat :=
    hroom.imp BitVec.eq_of_toNat_eq fun h10 => ⟨hoff.resolve_left (by rintro h0; simp [h0] at h10), h10⟩
  have hparse : hdrParse (s.newFile.drop s.md.headerOffset.toNat) = .ok s.newHeader := by
    rw [drop_newFile hroom]
    exact hdrParse_ser_ok (hlen.trans hpayload.symm) (hpayload ▸ h4)
  rw [decryptParse_ok (ofsDetect_newFile hcont (hlen ▸ h4)) hparse (by omega), ← List.drop_drop, drop_newFile hroom]
  rfl

/-! ### The trials of the file (R246, 44_magic_resolver.md R199) -/

/-- The trials stop at the first that settles: where those before `y` do not settle and `y` does, at `y`. -/
theorem last_eq_of_settles {before after skipped rest : List Trial} {x y : Trial} {Settles : Trial → Prop}
    (hplan : skipped ++ y :: rest = before ++ x :: after) (hbefore : ∀ z ∈ before, ¬ Settles z)
    (hlast : Settles x ∨ after = []) (hskipped : ∀ z ∈ skipped, ¬ Settles z) (hy : Settles y) : x = y := by
  induction skipped generalizing before with
  | nil =>
    by_contra hne
    exact hbefore y (first_mem_of_ne hplan hne) hy
  | cons z zs ih =>
    cases before with
    | nil =>
      obtain ⟨rfl, hrest⟩ := List.cons.inj hplan
      rcases hlast with hx | hnil
      · exact absurd hx (hskipped z List.mem_cons_self)
      · simp [hnil] at hrest
    | cons b bs =>
      exact ih (List.cons.inj hplan).2 (fun z hz => hbefore z (List.mem_cons_of_mem _ hz))
        (fun z hz => hskipped z (List.mem_cons_of_mem _ hz))

/-- The trial of the Metadata's family and real magic. -/
def State.mdTrial (s : State) : Trial := ⟨s.md.real, s.md.family⟩

/-- That trial of the ciphertext gives back the plaintext. -/
theorem attempt_mdTrial_plain (h4 : s.inMem.length % 4 = 0) (c : Word) :
    (attempt s.rom c s.newPayload s.mdTrial).plain = s.inMem.bytes := by
  rw [attempt_eq _ _ _ _ ((length_newPayload s).symm ▸ h4)]
  exact xorKey_twice s.mdGen s.inMem.bytes

/-- So it settles with the checksum of the plaintext (43_checksum.md R185). -/
theorem attempt_mdTrial_settles (h4 : s.inMem.length % 4 = 0) :
    (attempt s.rom s.inChecksum s.newPayload s.mdTrial).acc = ckSentinel := by
  have h4' : s.newPayload.length % 4 = 0 := (length_newPayload s).symm ▸ h4
  apply BitVec.eq_of_toNat_eq
  rw [attempt_acc_toNat h4', attempt_mdTrial_plain h4]
  exact inChecksum_add_byteSum h4

/-- XORing with two keystreams, byte by byte. -/
theorem xorKey_xorKey (g g' : Gen) (bs : List Byte) :
    xorKey g' (xorKey g bs) = bs.zipIdx.map (fun y => (y.1 ^^^ genByte g y.2) ^^^ genByte g' y.2) := by
  apply List.ext_getElem?
  intro j
  simp only [xorKey_getElem?, List.getElem?_map, List.getElem?_zipIdx]
  cases bs[j]? <;> simp

/-- A trial of the ciphertext XORs the keystream of `ENCRYPT` and then its own. -/
theorem newPayload_xor (g : Family) (seed : Word) :
    s.newPayload.zipIdx.map (fun y => y.1 ^^^ keyByte s.rom g seed y.2) =
      s.inMem.bytes.zipIdx.map
        (fun y => (y.1 ^^^ keyByte s.rom s.md.family s.md.real y.2) ^^^ keyByte s.rom g seed y.2) :=
  xorKey_xorKey s.mdGen _ _

/-- R257's condition on the resolver: the Metadata are the table's for the stated magic; or that is no key, the real
magic is the stated one, and the trial of the family before the Metadata's does not settle. -/
def State.Resolvable (s : State) : Prop :=
  (∃ e ∈ s.rom.ovrTable, e.key = s.md.stated ∧ s.md.real = e.real ∧ s.md.family = e.family) ∨
  ((∀ e ∈ s.rom.ovrTable, e.key ≠ s.md.stated) ∧ s.md.real = s.md.stated ∧
    (s.md.family ≠ s.rom.trialFirst →
      (attempt s.rom s.inChecksum s.newPayload ⟨s.md.stated, s.rom.trialFirst⟩).acc ≠ ckSentinel))

/-- Then the plan has the trial of the Metadata, and those before it do not settle. -/
theorem mrPlan_mdTrial (hkeys : (s.rom.ovrTable.map OvrEntry.key).Nodup) (hres : s.Resolvable) :
    ∃ skipped rest, mrPlan s.rom s.md.stated = skipped ++ s.mdTrial :: rest ∧
      ∀ y ∈ skipped, (attempt s.rom s.inChecksum s.newPayload y).acc ≠ ckSentinel := by
  rcases hres with ⟨e, he, hkey, hreal, hfam⟩ | ⟨hnone, hreal, hother⟩
  · refine ⟨[], [], ?_, by simp⟩
    rw [← hkey, mrPlan_hit (ovrFind_hit hkeys he), State.mdTrial, hreal, hfam]
    rfl
  · rw [mrPlan_miss (ovrFind_miss hnone), State.mdTrial, hreal]
    by_cases hfam : s.md.family = s.rom.trialFirst
    · exact ⟨[], [⟨s.md.stated, s.rom.trialFirst.other⟩], by rw [hfam]; rfl, by simp⟩
    · refine ⟨[⟨s.md.stated, s.rom.trialFirst⟩], [], ?_, by simpa using hother hfam⟩
      rw [Family.eq_other_of_ne hfam]
      rfl

/-! ### `ENCRYPT`, then `DECRYPT` (R257) -/

/-- The state `DECRYPT` begins in: that after `ENCRYPT`, with `OUT` loaded as `IN`. -/
def State.reloaded (s : State) : State := s.encrypted.setIn s.encrypted.outMem.bytes

@[simp] theorem reloaded_rom (s : State) : s.reloaded.rom = s.rom := by simp [State.reloaded, State.encrypted]

@[simp] theorem reloaded_initOk (s : State) : s.reloaded.initOk = s.initOk := by simp [State.reloaded, State.encrypted]

theorem bytes_reloaded (s : State) : s.reloaded.inMem.bytes = s.newFile := by
  rw [State.reloaded, State.setIn_inMem, Memory.bytes_ofBytes, encrypted_outMem, Memory.bytes_ofBytes]

/-- `DECRYPT` of the file stops at the trial of the Metadata. -/
theorem exec_decrypt_reloaded (hi : s.initOk = true)
    (he : encryptError s.rom s.md.headerOffset s.inMem.length = none)
    (hoff : s.md.headerOffset = 0#64 ∨ s.md.headerOffset = s.rom.containerOffset)
    (hkeys : (s.rom.ovrTable.map OvrEntry.key).Nodup) (hres : s.Resolvable) :
    ∃ before, exec .decrypt s.reloaded =
      .next (s.reloaded.decrypted s.md.headerOffset s.newHeader s.newPayload before s.mdTrial) := by
  have hparse : decryptParse s.reloaded.rom s.reloaded.inMem.bytes =
      .ok (s.md.headerOffset, s.newHeader, s.newPayload) := by
    rw [reloaded_rom, bytes_reloaded, decryptParse_newFile he hoff]
  obtain ⟨before, x, after, hplan, hbefore, hlast, hx⟩ := exec_decrypt_accepted (by rwa [reloaded_initOk]) hparse
  obtain ⟨skipped, rest, hmd, hskipped⟩ := mrPlan_mdTrial hkeys hres
  rw [reloaded_rom] at hplan hbefore hlast
  cases last_eq_of_settles (Settles := fun y => (attempt s.rom s.inChecksum s.newPayload y).acc = ckSentinel)
    (hmd.symm.trans hplan) hbefore hlast hskipped (attempt_mdTrial_settles (encryptError_none.mp he).2.1)
  exact ⟨before, hx⟩

/-- Settles O53: the trial that settles first is that of the Metadata, and its keystream undoes that of `ENCRYPT`. -/
theorem decryptUndoesEncrypt : Obligations.DecryptUndoesEncrypt := by
  intro s t hinv hi hx hok hoff hkeys hcond
  obtain ⟨he, rfl⟩ := encrypt_ok hi hx hok
  obtain ⟨_, h4, hn, _, _⟩ := encryptError_none.mp he
  have hres : s.Resolvable := by
    refine hcond.imp_right fun ⟨hnone, hreal, hother⟩ => ⟨hnone, hreal, fun hfam hs => hother hfam ?_⟩
    rw [attempt_settles_iff ((length_newPayload s).symm ▸ h4), newPayload_xor] at hs
    exact hs
  obtain ⟨before, hdecrypt⟩ := exec_decrypt_reloaded hi he hoff hkeys hres
  obtain ⟨hhdr, hmd, hout, _, hver⟩ :=
    decrypted_ports s.reloaded s.md.headerOffset s.newHeader s.newPayload before s.mdTrial
  have hs : (attempt s.reloaded.rom s.newHeader.checksum s.newPayload s.mdTrial).acc = ckSentinel := by
    rw [reloaded_rom]
    exact attempt_mdTrial_settles h4
  have hmem : (s.reloaded.decrypted s.md.headerOffset s.newHeader s.newPayload before s.mdTrial).outMem = s.inMem := by
    rw [hout, reloaded_rom, attempt_mdTrial_plain h4, ← Memory.eq_ofBytes hinv.inWf]
  refine ⟨_, hdecrypt, endsOk_decrypted hs, hver.trans (decide_eq_true hs), hmem, hmd, ?_⟩
  rw [hhdr]
  exact ⟨rfl, newHeader_length hn, rfl⟩

end Sys2Proof.Machine
end
